-- ==== Sys2Proof/Word.lean ====
section
/-! DEFINITION. The word type of the block: every register and mailbox word is 32 bits (R12, R83). -/

namespace Sys2Proof

/-- A 32-bit word (R12). -/
abbrev Word := BitVec 32

/-- A payload byte (R56). -/
abbrev Byte := BitVec 8

end Sys2Proof
end

