-- ==== Sys2Proof/Syntax.lean ====
section
/-! DEFINITION. The ten rows of spec/opcode_table.json: the eight commands (R140) and the two
mailbox control words the block writes (R123, R124). -/

namespace Sys2Proof

/-- One constructor per row of the opcode table. Operand ranges are in WellFormed.lean. -/
inductive Instr where
  /-- `GETIFC` (R330). -/
  | getifc
  /-- `GETMAXF` (R331). -/
  | getmaxf
  /-- `START n`, n = COUNT (R340). -/
  | start (count : Nat)
  /-- `STOP` (R350). -/
  | stop
  /-- `WRITE i, n`, i = INST, n = COUNT (R302). -/
  | write (inst count : Nat)
  /-- `READ i`, i = INST (R312). -/
  | read (inst : Nat)
  /-- `SELECT g`, g = IGNW (R320). -/
  | select (ignw : Bool)
  /-- `RECONFIG n`, n = COUNT (R290). -/
  | reconfig (count : Nat)
  /-- `TXCS(d)`, the transmit control word ENCODE writes (R123, R195). -/
  | txcs (dlc : Nat)
  /-- `RXCS`, the receive-empty control word FSEQ writes (R124, R277). -/
  | rxcs
  deriving DecidableEq, Repr

end Sys2Proof
end

