-- ==== Sys2Proof/WellFormed.lean ====
section
/-! DEFINITION. The operand ranges the fields of the encodings admit (R138, R123). -/

namespace Sys2Proof

/-- INST and COUNT are 8-bit fields (R138), DLC is a 4-bit field (R121). -/
def Instr.wellFormed : Instr → Bool
  | .getifc => true
  | .getmaxf => true
  | .start count => count < 256
  | .stop => true
  | .write inst count => inst < 256 && count < 256
  | .read inst => inst < 256
  | .select _ => true
  | .reconfig count => count < 256
  | .txcs dlc => dlc < 16
  | .rxcs => true

end Sys2Proof
end

