-- ==== Sys2Proof/Decode.lean ====
section
/-! DEFINITION. Decoding of a 32-bit word (R138 to R141, R123, R124), total, rejecting by name, and
the encoder. -/

namespace Sys2Proof

/-- `w[hi:lo]` as an unsigned number (R12). -/
def field (w : Word) (hi lo : Nat) : Nat := w.toNat / 2 ^ lo % 2 ^ (hi + 1 - lo)

/-- Why a word is reserved (R141). -/
inductive DecodeError where
  /-- OP is 0x0 or 0x9 to 0xF, and the word is no control word of R123, R124. -/
  | reservedOp
  /-- A reserved field, or a field the command does not use, is not zero. -/
  | reservedField
  deriving DecidableEq, Repr

/-- The result of decoding: an instruction or the reason it is none. -/
inductive Decoded where
  | instr (i : Instr)
  | reserved (e : DecodeError)
  deriving DecidableEq, Repr

/-- An instruction whose unused fields must be zero (R138). -/
def unusedZero (zero : Bool) (i : Instr) : Decoded :=
  if zero then .instr i else .reserved .reservedField

/-- A word with OP 0xC: one of the two control words the block writes (R123, R124), else reserved. -/
def decodeControlWord (w : Word) : Decoded :=
  if field w 27 20 = 0xC2 ∧ field w 15 0 = 0 then .instr (.txcs (field w 19 16))
  else if field w 27 0 = 0x4200000 then .instr .rxcs
  else .reserved .reservedOp

/-- The command table of R140 and the two control words of R123, R124. -/
def decode (w : Word) : Decoded :=
  match field w 31 28 with
  | 0x1 => unusedZero (field w 27 0 = 0) .getifc
  | 0x2 => unusedZero (field w 27 0 = 0) .getmaxf
  | 0x3 => unusedZero (field w 27 16 = 0 ∧ field w 7 0 = 0) (.start (field w 15 8))
  | 0x4 => unusedZero (field w 27 0 = 0) .stop
  | 0x5 => unusedZero (field w 27 24 = 0 ∧ field w 7 0 = 0) (.write (field w 23 16) (field w 15 8))
  | 0x6 => unusedZero (field w 27 24 = 0 ∧ field w 15 0 = 0) (.read (field w 23 16))
  | 0x7 => unusedZero (field w 27 1 = 0) (.select (field w 0 0 = 1))
  | 0x8 => unusedZero (field w 27 16 = 0 ∧ field w 7 0 = 0) (.reconfig (field w 15 8))
  | 0xC => decodeControlWord w
  | _ => .reserved .reservedOp

/-- `(OP << 28) | (i << 16) | (n << 8) | g`, the assembler's word (R143). -/
def commandWord (op inst count ignw : Nat) : Word :=
  BitVec.ofNat 32 (op * 2 ^ 28 + inst * 2 ^ 16 + count * 2 ^ 8 + ignw)

/-- The word of a well-formed instruction (R140, R143, R123, R124). -/
def encode : Instr → Word
  | .getifc => commandWord 0x1 0 0 0
  | .getmaxf => commandWord 0x2 0 0 0
  | .start count => commandWord 0x3 0 count 0
  | .stop => commandWord 0x4 0 0 0
  | .write inst count => commandWord 0x5 inst count 0
  | .read inst => commandWord 0x6 inst 0 0
  | .select ignw => commandWord 0x7 0 0 ignw.toNat
  | .reconfig count => commandWord 0x8 0 count 0
  | .txcs dlc => BitVec.ofNat 32 (0xCC200000 + dlc * 2 ^ 16)
  | .rxcs => 0xC4200000#32

/-- The instruction a decoded word names, if it names one. -/
def Decoded.toOption : Decoded → Option Instr
  | .instr i => some i
  | .reserved _ => none

/-- The decoder on a row of spec/opcode_table.json: every encoding is one 32-bit word, written whole
to CMD (R138), so the bits above nbits are zero and nothing is laid out in bytes. -/
def decodeTableWord (nbits w : Nat) : Option Instr :=
  (decode (BitVec.ofNat 32 (w % 2 ^ nbits))).toOption

end Sys2Proof
end

