-- ==== Sys2Proof/Config.lean ====
section
/-! DEFINITION. What an implementation fixes (R10) and the one free value of the model (R462). -/

namespace Sys2Proof

/-- How RECONCILE takes the tick difference (R224, D16). -/
inductive DeltaMode where
  | abs
  | modular
  deriving DecidableEq, Repr

/-- The implementation parameters of R10 that have no fixed value. -/
structure Config where
  /-- `N_IF`, number of interfaces. -/
  nIf : Nat
  /-- `N_MB`, mailboxes per interface. -/
  nMb : Nat
  /-- `F_CAP`, filters per interface. -/
  fCap : Nat
  /-- `Q_CAP`, frames an inbound queue holds. -/
  qCap : Nat
  /-- `TICKS_PER_US`. -/
  ticksPerUs : Nat
  /-- `POLL_DEFAULT_TICKS`. -/
  pollDefaultTicks : Nat
  /-- `TXN_MAX`, largest legal count of WRITE. -/
  txnMax : Nat
  /-- `DELTA_MODE`. -/
  deltaMode : DeltaMode
  deriving DecidableEq, Repr

/-- `MTU`, fixed by R10. -/
def mtu : Nat := 64

/-- The constraints R10 puts on the parameters. -/
abbrev Config.Legal (c : Config) : Prop :=
  1 ≤ c.nIf ∧ c.nIf ≤ 255 ∧ 2 + c.fCap ≤ c.nMb ∧ c.nMb ≤ 32 ∧ c.fCap ≤ 30 ∧ 1 ≤ c.qCap ∧
    1 ≤ c.ticksPerUs ∧ c.pollDefaultTicks ≤ 0xFFFFFFFE ∧ 1 ≤ c.txnMax ∧ c.txnMax ≤ 255

/-- The illustrative configuration `CFG_EX` of R10. -/
def cfgEx : Config where
  nIf := 2
  nMb := 7
  fCap := 5
  qCap := 2
  ticksPerUs := 80
  pollDefaultTicks := 16000000
  txnMax := 1
  deltaMode := .abs

/-- FREE VALUE (log 8). What the n-th access of STOP to an interface whose clock is off does: whether an
MCR write is stored, "the MDIS write is stored (or lost; the source does not say ...)", and whether a
sample of the poll sees LPMACK, since the outcome of STOP there is "either Success or Failure" (R462). -/
opaque Config.freeBit : Nat → Bool

end Sys2Proof
end

