-- ==== Sys2Proof/Machine/State.lean ====
section
/-! DEFINITION. The state of the block as plain data (10_state.md), the moves of its agents (R17,
47_environment.md), and the power-on state (R62, R440). -/

namespace Sys2Proof.Machine

/-! ## Values -/

/-- A Frame (R56). Its payload has `DLC2LEN(dlc)` bytes (`Frame.Wf` in Safety.lean). -/
structure Frame where
  id : BitVec 29
  dlc : BitVec 4
  payload : List Byte
  ts : BitVec 64
  deriving DecidableEq, Repr

/-- One entry of the operand table FLT: `FLT_ID[j]`, `FLT_MASK[j]` (R33). -/
structure FilterReg where
  id : Word
  mask : Word
  deriving DecidableEq, Repr

/-- A Filter as the hardware of an interface holds it, 29 bits each (R57, R53). -/
structure Filter where
  id : BitVec 29
  mask : BitVec 29
  deriving DecidableEq, Repr

/-- `TXF`, the transmit frame operand (R32). -/
structure TxOperand where
  id : Word
  dlc : BitVec 4
  data : List Byte
  deriving DecidableEq, Repr

/-- `RXF`, the received frame result (R35). -/
structure RxResult where
  id : Word
  dlc : BitVec 4
  len : BitVec 7
  data : List Byte
  ts : BitVec 64
  deriving DecidableEq, Repr

/-- The outcome register as an enumeration (R146); the numbers are `OutcomeCode.code` in Flags.lean. -/
inductive OutcomeCode where
  /-- 0x00, the reset value: no command has ended yet. -/
  | noneYet
  | success
  | successNothing
  | successTimeout
  | failure
  | bufferFull
  | badArgument
  deriving DecidableEq, Repr

/-- `FP_STATE` (R52, R270). -/
inductive FpState where
  | active
  | freezing
  | frozen
  | unfreezing
  deriving DecidableEq, Repr

/-- What a frame sent looks like on the wire log (R368). -/
structure WireFrame where
  id : BitVec 29
  dlc : BitVec 4
  payload : List Byte
  deriving DecidableEq, Repr

/-! ## Memory -/

/-- The plain-storage words of one instance space, RXIMR and the mailbox RAM, by word number (R40,
R81). Word numbers strictly rise and no listed word equals `unlistedWord` (`Memory.wf`, Ops.lean). -/
abbrev Memory := List (Nat × Word)

/-- What a word that is not listed reads as (log 5, log 6). -/
def unlistedWord : Word := 0#32

/-! ## Positions of the foreground sequencer (R38): the labels of the pseudocode -/

/-- The labels of WAIT (R173). -/
inductive WaitLabel where
  | restart
  | sample
  | deadline
  deriving DecidableEq, Repr

/-- The labels of FSEQ (R272). `v` is the MCR value read one micro-step before. -/
inductive FseqLabel where
  | frz
  | frz2 (v : Word)
  | ack1 (w : WaitLabel)
  | zmb (a : Nat)
  | zim (m : Nat)
  | fm (j : Nat)
  | fc (j : Nat)
  | fi (j : Nat)
  | lst
  | hk
  | unf
  | unf2 (v : Word)
  | ack2 (w : WaitLabel)
  | rdy (w : WaitLabel)
  deriving DecidableEq, Repr

/-- The labels of START (R340). -/
inductive StartLabel where
  | chk
  | rst
  | clk
  | tmr
  | up (i : Nat)
  | fp (i : Nat) (l : FseqLabel)
  | live
  deriving DecidableEq, Repr

/-- The labels of STOP (R350). -/
inductive StopLabel where
  | lpr (i : Nat)
  | lpr2 (i : Nat) (v : Word)
  | lpa (i : Nat) (w : WaitLabel)
  | gate (i : Nat)
  | tmr
  | dead
  deriving DecidableEq, Repr

/-- The labels of WRITE (R302) and of the ENCODE inside it (R195); `m` is the mailbox chosen. -/
inductive WriteLabel where
  | chk
  | rdy
  | idw (m : Nat)
  | csw (m : Nat)
  | dw (m w : Nat)
  | cmp (m : Nat) (l : WaitLabel)
  | clr (m : Nat)
  deriving DecidableEq, Repr

/-- The labels of READ (R312). -/
inductive ReadLabel where
  | chk
  | pop
  deriving DecidableEq, Repr

/-- The labels of SELECT (R320). -/
inductive SelectLabel where
  | chk
  | restart
  | q (i : Nat)
  | t (i : Nat)
  | deadline
  deriving DecidableEq, Repr

/-- The labels of RECONFIG (R290). -/
inductive ReconfigLabel where
  | chk
  | seq (i : Nat) (l : FseqLabel)
  deriving DecidableEq, Repr

/-- `FG_PHASE` (R38): IDLE, or a command in flight with the operands latched at issue (R31) and its
next label. GETIFC and GETMAXF have one micro-step and no label. -/
inductive Phase where
  | idle
  | getifc
  | getmaxf
  | start (count : Nat) (fs : List FilterReg) (l : StartLabel)
  | stop (l : StopLabel)
  | write (inst count : Nat) (f : Frame) (l : WriteLabel)
  | read (inst : Nat) (l : ReadLabel)
  | select (ignw : Bool) (tmo : Word) (l : SelectLabel)
  | reconfig (count : Nat) (fs : List FilterReg) (l : ReconfigLabel)
  deriving DecidableEq, Repr

/-! ## Position of a running reception handler (R244) -/

/-- What DECODE returned (R200). -/
structure Capture where
  id : BitVec 29
  dlc : BitVec 4
  payload : List Byte
  ts16 : BitVec 16
  deriving DecidableEq, Repr

/-- The accesses of RXIRQ (R244), DECODE (R200), CLKREAD (R221) and RECONCILE (R223), one label each,
with the values kept so far. -/
inductive IrqLabel where
  | flg
  | csr (m : Nat)
  | idr (m : Nat) (cs : Word)
  | dr (m : Nat) (cs : Word) (id : BitVec 29) (ws : List Word)
  | hi (m : Nat) (c : Capture)
  | lo (m : Nat) (c : Capture) (h : Word)
  | tmr (m : Nat) (c : Capture) (clk : BitVec 64)
  | psh (m : Nat) (f : Frame)
  | unl (m : Nat)
  | cnt (m : Nat)
  | clr (m : Nat)
  | exit
  deriving DecidableEq, Repr

/-- A running handler IRQ[inst]. -/
structure IrqRun where
  inst : Nat
  label : IrqLabel
  deriving DecidableEq, Repr

/-! ## Moves of the agents (R17): the inputs of the step relation (R18) -/

/-- What an interface holds after INSTANCE_BRINGUP reported Timeout: "an unspecified partly enabled
state" (R344, U3), so every register of it is chosen by the move. `words` are (mailbox, word, value)
triples written to mailbox RAM, `masks` are (mailbox, value) pairs written to RXIMR. -/
structure PartialBringup where
  enabled : Bool
  mcr : Word
  status : Word
  iflag : Word
  imask : Word
  timer : BitVec 16
  masks : List (Nat × Word)
  words : List (Nat × Nat × Word)
  deriving DecidableEq, Repr

/-- What INSTANCE_BRINGUP that returns Ok leaves in the controller's registers: MCR, whose bits other
than MDIS, HALT and FRZ are of its choosing (R344), and STATUS and TIMER, which R344 does not name and
R443 counts among what is written by the end of START (log 11). -/
structure UpRegs where
  mcr : Word
  status : Word
  timer : BitVec 16
  deriving DecidableEq, Repr

/-- The result of INSTANCE_BRINGUP (R344). -/
inductive Bringup where
  | ok (r : UpRegs)
  | timeout (p : PartialBringup)
  deriving DecidableEq, Repr

/-- The moves of ENV. The first seven are the bare ownership moves of R362; the others are the moves of
a well-behaved controller (R363 to R372). -/
inductive EnvMove where
  /-- NOTRDY, FRZACK, LPMACK of MCR take any value (R362). -/
  | ack (i : Nat) (notrdy frzack lpmack : Bool)
  /-- STATUS takes any value (R362). -/
  | status (i : Nat) (v : Word)
  /-- The IFLAG bits set in `v` rise (R362). -/
  | raise (i : Nat) (v : Word)
  /-- TIMER takes any value (R362). -/
  | timer (i : Nat) (v : BitVec 16)
  /-- Word `k` of mailbox `m` takes any value unless the mailbox is locked (R362, R366). -/
  | word (i m k : Nat) (v : Word)
  /-- CLK_LO, CLK_HI take any value while CLK_RUN = 1 (R362). -/
  | clock (lo hi : Word)
  /-- PT_VAL takes any value while PT_RUN = 1 (R362). -/
  | poll (v : Word)
  /-- One clock tick (R363). `frozen` lists the interfaces whose TIMER ticks although in freeze mode (U18). -/
  | clkTick (frozen : List Nat)
  /-- One poll-timer tick (R364). -/
  | ptTick
  /-- ENV_RX (R365); `overrun` picks 0x6 where the code may be 0x2 or 0x6, and `other` gives the reserved bits 28
  and 23 of the control word (log 26). -/
  | rx (i m : Nat) (id : BitVec 29) (d : BitVec 4) (payload : List Byte) (brs esi srr overrun : Bool)
    (other : Word)
  /-- ENV_TX (R368). -/
  | tx (i m : Nat)
  /-- FRZACK <- 1, NOTRDY <- 1 (R371). -/
  | freezeAck (i : Nat)
  /-- FRZACK <- 0, and NOTRDY <- 0 in the same move when `ready` (R371). -/
  | freezeLeave (i : Nat) (ready : Bool)
  /-- NOTRDY <- 0 in a later move (R371). -/
  | ready (i : Nat)
  /-- LPMACK <- 1, NOTRDY <- 1 (R372). -/
  | lpAck (i : Nat)
  /-- STATUS as a well-behaved controller reports it: VPS is `vps`, 0 only transiently, and `other` gives the
  reserved bits (R370). -/
  | report (i : Nat) (vps : Bool) (other : Word)
  deriving DecidableEq, Repr

/-- What the host does at the port (R37). -/
inductive HostMove where
  /-- Writes CMD (R31). -/
  | cmd (w : Word)
  /-- `SET TXF, {id, dlc, bytes}` (R143); `bytes` replace the first bytes of TXF_DATA. -/
  | setTxf (id : Word) (dlc : BitVec 4) (bytes : List Byte)
  /-- `SET FLT[j], {id, mask}`. -/
  | setFlt (j : Nat) (id mask : Word)
  /-- `SET TMO, v`. -/
  | setTmo (v : Word)
  deriving DecidableEq, Repr

/-- One move of one agent. -/
inductive Move where
  /-- FG takes its next micro-step. -/
  | fg
  /-- IRQ[i] is entered (R398). -/
  | irqStart (i : Nat)
  /-- The running handler makes its next access (R94). -/
  | irq
  /-- CLOCK_BRINGUP returns (R342); `pt` is PT_VAL as its last poll left it, none if it did not poll. -/
  | clockBringup (ok : Bool) (pt : Option Word)
  /-- INSTANCE_BRINGUP returns (R344); `pt` as for CLOCK_BRINGUP. -/
  | instBringup (r : Bringup) (pt : Option Word)
  | env (e : EnvMove)
  | host (h : HostMove)
  deriving DecidableEq, Repr

/-! ## The state -/

/-- One interface (R30): its controller's registers (R40 to R48), the hidden lock (R58), and what the
block itself keeps for it (R52 to R55). -/
structure Inst where
  /-- `ENABLED` (R48). -/
  enabled : Bool
  /-- `MCR` (R41). -/
  mcr : Word
  /-- `STATUS` (R43). -/
  status : Word
  /-- `IFLAG` (R46). -/
  iflag : Word
  /-- `IMASK` (R46). -/
  imask : Word
  /-- `TIMER` (R45). -/
  timer : BitVec 16
  /-- `LOCK` (R58). -/
  lock : Option Nat
  /-- `RXIMR[m]` and `MB[m][k]` (R47, R60). -/
  ram : Memory
  /-- `FP_STATE` (R52). -/
  fpState : FpState
  /-- `LASTF`, with `LASTF_N` its length (R53). -/
  lastf : List Filter
  /-- `Q`, head first (R54). -/
  queue : List Frame
  /-- `DISCARD` (R55). -/
  discard : Word
  /-- The wire log, oldest first: an observation-only history (R368). -/
  wire : List WireFrame
  deriving DecidableEq, Repr

/-- The machine. -/
structure State where
  /-- The parameters of R10, constant (log 1). -/
  cfg : Config
  /-- `CMD` (R31). -/
  cmd : Word
  /-- `TXF` (R32). -/
  txf : TxOperand
  /-- `FLT` (R33). -/
  flt : List FilterReg
  /-- `TMO` (R34). -/
  tmo : Word
  /-- `RXF` (R35). -/
  rxf : RxResult
  /-- `OUTCOME` (R36). -/
  outcome : OutcomeCode
  /-- `NWRITTEN` (R36). -/
  nwritten : BitVec 8
  /-- `RCOUNT` (R36). -/
  rcount : BitVec 8
  /-- `HANDLE` (R36). -/
  handle : Bool
  /-- `FG_PHASE` (R38). -/
  phase : Phase
  /-- `GROUP_LIVE` (R39). -/
  groupLive : Bool
  /-- `GIM` (R49). -/
  gim : Bool
  /-- `CLK_LO` (R50). -/
  clkLo : Word
  /-- `CLK_HI` (R50). -/
  clkHi : Word
  /-- `CLK_RUN` (R50). -/
  clkRun : Bool
  /-- `PT_VAL` (R51). -/
  ptVal : Word
  /-- `PT_RUN` (R51). -/
  ptRun : Bool
  /-- The interfaces 0 .. N_IF-1 (R30). -/
  insts : List Inst
  /-- The running handler (R94, R398). -/
  irq : Option IrqRun
  /-- The inputs still to come, in order (R18, log 2). -/
  agenda : List Move
  /-- How many free values were drawn (log 8). -/
  free : Nat
  deriving DecidableEq, Repr

/-- The block reports no fault: "The outcome is the only error report" (R390), "The handler cannot
fault" (R403). -/
inductive Fault where
  deriving DecidableEq, Repr

/-- Why an access or an instruction has no meaning. -/
inductive Refusal where
  /-- Raised by an arm of exec for an instruction without a meaning; safe. No arm raises it. -/
  | notModelled (mnemonic : String)
  /-- Raised by busRead and busWrite for an interface or a word number outside the map, which "a model
  refuses" (R90); safe. No step raises it. -/
  | noSuchWord
  /-- Raised by busWrite for STATUS or TIMER: "such a write is not defined by this spec and a model
  refuses it" (R85); safe. No step raises it. -/
  | readOnlyWord
  deriving DecidableEq, Repr

/-! ## Reset -/

/-- The values R62 calls `any`, of one interface. -/
structure AnyInst where
  mcr : Word
  status : Word
  timer : BitVec 16
  ram : Memory
  deriving DecidableEq, Repr

/-- The values R62 calls `any`, and CMD, which R62 does not list. -/
structure AnyValues where
  cmd : Word
  txf : TxOperand
  flt : List FilterReg
  tmo : Word
  rxf : RxResult
  insts : List AnyInst
  deriving DecidableEq, Repr

/-- One interface after power-on (R62). -/
def Inst.powerOn (a : AnyInst) : Inst where
  enabled := false
  mcr := a.mcr
  status := a.status
  iflag := 0
  imask := 0
  timer := a.timer
  lock := none
  ram := a.ram
  fpState := .active
  lastf := []
  queue := []
  discard := 0
  wire := []

/-- The table of R62 over any configuration and any choice of the values it leaves open. -/
def State.powerOn (c : Config) (a : AnyValues) : State where
  cfg := c
  cmd := a.cmd
  txf := a.txf
  flt := a.flt
  tmo := a.tmo
  rxf := a.rxf
  outcome := .noneYet
  nwritten := 0
  rcount := 0
  handle := false
  phase := .idle
  groupLive := false
  gim := false
  clkLo := 0xFFFFFFFF#32
  clkHi := 0xFFFFFFFF#32
  clkRun := false
  ptVal := 0xFFFFFFFF#32
  ptRun := false
  insts := a.insts.map Inst.powerOn
  irq := none
  agenda := []
  free := 0

/-- DESIGN CHOICE (log 5): zero for every value R62 calls `any`. -/
def AnyInst.zero : AnyInst := { mcr := 0, status := 0, timer := 0, ram := [] }

/-- DESIGN CHOICE (log 5): zero for every value R62 calls `any`. -/
def AnyValues.zero (c : Config) : AnyValues where
  cmd := 0
  txf := { id := 0, dlc := 0, data := List.replicate 64 0 }
  flt := List.replicate c.fCap { id := 0, mask := 0 }
  tmo := 0
  rxf := { id := 0, dlc := 0, len := 0, data := List.replicate 64 0, ts := 0 }
  insts := List.replicate c.nIf AnyInst.zero

/-- The machine right after power-on reset (R62, R440), in the configuration `CFG_EX` (log 1). -/
def State.reset : State := State.powerOn cfgEx (AnyValues.zero cfgEx)

end Sys2Proof.Machine
end

