-- ==== Sys2Proof/Machine/Operands.lean ====
section
/-! DEFINITION. Operand forms: the mailbox words and their fields (R120 to R128), the length functions
(R131 to R133), PACK and UNPACK (R192, R193), the latched operands (R31 to R34), the received frame
result (R312), the clock word and RECONCILE's arithmetic (R221 to R225). -/

namespace Sys2Proof.Machine

/-! ## Lengths -/

/-- The byte lengths of the sixteen data length codes (R131). -/
def dlcTable : List Nat := [0, 1, 2, 3, 4, 5, 6, 7, 8, 12, 16, 20, 24, 32, 48, 64]

/-- `DLC2LEN(d)` (R131). -/
def dlc2len (d : BitVec 4) : Nat := dlcTable.getD d.toNat 0

/-- `LEN2DLC(n)`: the least code whose length is at least `n`; no value above 64 (R132). -/
def len2dlc (n : Nat) : Option (BitVec 4) :=
  ((List.range 16).find? fun d => decide (n ≤ dlcTable.getD d 0)).map (BitVec.ofNat 4)

/-- `ceil4(n)` (R13). -/
def ceil4 (n : Nat) : Nat := (n + 3) / 4

/-- `NWORDS(n)` (R133). -/
def nwords (n : Nat) : Nat := ceil4 n

/-! ## PACK and UNPACK -/

/-- Word `w` of PACK: byte `4w + b` at bits `31-8b : 24-8b`, missing bytes zero (R89, R192). -/
def packWord (p : List Byte) (w : Nat) : Word :=
  (p.getD (4 * w) 0 ++ p.getD (4 * w + 1) 0) ++ (p.getD (4 * w + 2) 0 ++ p.getD (4 * w + 3) 0)

/-- `PACK(p)` (R192). -/
def pack (p : List Byte) : List Word := (List.range (nwords p.length)).map (packWord p)

/-- Byte `k` of UNPACK (R193). -/
def unpackByte (ws : List Word) (k : Nat) : Byte :=
  (ws.getD (k / 4) 0).extractLsb' (24 - 8 * (k % 4)) 8

/-- `UNPACK(ws, n)` (R193). -/
def unpack (ws : List Word) (n : Nat) : List Byte := (List.range n).map (unpackByte ws)

/-! ## Control word and id word -/

/-- `TXCS(d)` (R123). -/
def txcsWord (d : BitVec 4) : Word := 0xCC200000#32 ||| (d.setWidth 32 <<< 16)

/-- `RXCS` (R124). -/
def rxcsWord : Word := 0xC4200000#32

/-- DLC, bits 19:16 of a control word (R121). -/
def csDlc (cs : Word) : BitVec 4 := cs.extractLsb' 16 4

/-- TIMESTAMP, bits 15:0 of a control word (R121). -/
def csTimestamp (cs : Word) : BitVec 16 := cs.extractLsb' 0 16

/-- CODE, bits 27:24 of a control word (R121). -/
def csCode (cs : Word) : BitVec 4 := cs.extractLsb' 24 4

/-- EDL, bit 31 of a control word (R121). -/
def csEdl (cs : Word) : Bool := cs.getLsbD 31

/-- IDE, bit 21 of a control word (R121). -/
def csIde (cs : Word) : Bool := cs.getLsbD 21

/-- The 29-bit identifier of an id word, PRIO ignored (R125). -/
def idOf (w : Word) : BitVec 29 := w.setWidth 29

/-- An id word with PRIO = 0 (R125). -/
def idWord (id : BitVec 29) : Word := id.setWidth 32

/-- `v & 0x1FFF_FFFF` (R128). -/
def cut29 (v : Word) : Word := v &&& 0x1FFFFFFF#32

/-- The DLC that ENCODE writes, `LEN2DLC(DLC2LEN(f.dlc))`, which always exists (R195). -/
def encodeDlc (f : Frame) : BitVec 4 := (len2dlc (dlc2len f.dlc)).getD f.dlc

/-- The reserved bits of a control word, 28 and 23 (R121). -/
def csReserved : Word := 0x10800000#32

/-- The control word ENV_RX leaves: EDL = 1, IDE = 1, RTR = 0 (R365). R365 gives the reserved bits no value and U13
allows any from ENV: they are those of `other` (log 26). -/
def rxControlWord (brs esi srr : Bool) (code d : BitVec 4) (ts : BitVec 16) (other : Word) : Word :=
  0x80200000#32 ||| (other &&& csReserved) ||| (if brs then 0x40000000#32 else 0) ||| (if esi then 0x20000000#32 else 0) |||
    (if srr then 0x00400000#32 else 0) ||| (code.setWidth 32 <<< 24) ||| (d.setWidth 32 <<< 16) |||
    ts.setWidth 32

/-- The control word ENV_TX leaves: CODE <- 0x8, TIMESTAMP <- TIMER, the rest as it was (R368). -/
def txDoneWord (cs : Word) (ts : BitVec 16) : Word :=
  (cs &&& 0xF0FF0000#32) ||| 0x08000000#32 ||| ts.setWidth 32

/-! ## Latched operands (R31) -/

/-- The frame of WRITE: the 29-bit id and `DLC2LEN(TXF_DLC)` bytes of TXF (R32, R302). Its `ts` is not
used (R56); zero stands there and nothing reads it (log 17). -/
def txFrame (t : TxOperand) : Frame where
  id := idOf t.id
  dlc := t.dlc
  payload := t.data.take (dlc2len t.dlc)
  ts := 0

/-- `FLT[0 .. n-1]` as latched for START and RECONFIG (R33, R139). -/
def latchFilters (count : Nat) (flt : List FilterReg) : List FilterReg := flt.take count

/-- A filter as FSEQ records it in LASTF, cut to 29 bits (R272). -/
def cutFilter (f : FilterReg) : Filter := { id := idOf f.id, mask := idOf f.mask }

/-- `SET TXF`: the given bytes replace the first bytes of TXF_DATA, and of more than 64 given bytes those from
index 64 on are dropped (R143, R32; log 22). -/
def setTxfData (old bytes : List Byte) : List Byte :=
  (bytes ++ old.drop bytes.length).take 64

/-! ## Received frame result -/

/-- RXF after READ took `f` off the queue (R312, R35). -/
def rxResult (f : Frame) : RxResult where
  id := idWord f.id
  dlc := f.dlc
  len := BitVec.ofNat 7 (dlc2len f.dlc)
  data := f.payload.take 64 ++ List.replicate (64 - (f.payload.take 64).length) 0
  ts := f.ts

/-! ## Clock and timestamp -/

/-- `inv32(x)` (R13). -/
def inv32 (x : Word) : Word := ~~~x

/-- `{inv32(h), inv32(l)}` (R221). -/
def clockValue (h l : Word) : BitVec 64 := inv32 h ++ inv32 l

/-- `absdiff(a, b)` (R13). -/
def absdiff (a b : Nat) : Nat := if b ≤ a then a - b else b - a

/-- `DELTA(cur, ts16)` (R224). -/
def delta (mode : DeltaMode) (cur ts16 : BitVec 16) : Nat :=
  match mode with
  | .abs => absdiff cur.toNat ts16.toNat
  | .modular => (cur - ts16).toNat

/-- RECONCILE's arithmetic from its three samples (R223, R225). -/
def reconcile (c : Config) (clk : BitVec 64) (cur ts16 : BitVec 16) : BitVec 64 :=
  BitVec.ofNat 64 ((clk - BitVec.ofNat 64 (delta c.deltaMode cur ts16)).toNat / c.ticksPerUs)

end Sys2Proof.Machine
end

