-- ==== Sys2Proof/Machine/Flags.lean ====
section
/-! DEFINITION. Flags and predicates over register values: MCR and STATUS bits (R41, R43), TX_READY
(R44), the write rules of MCR and IFLAG (R42, R46), HOLDS (R174), RXVALID and the mailbox choice
(R245, R248), the saturating counter (R246), PEND (R397), the outcome codes (R146). -/

namespace Sys2Proof.Machine

/-! ## MCR (R41) -/

def mdisBit : Word := 0x80000000#32
def frzBit : Word := 0x40000000#32
def haltBit : Word := 0x10000000#32
def notrdyBit : Word := 0x08000000#32
def frzackBit : Word := 0x01000000#32
def lpmackBit : Word := 0x00100000#32

/-- The three acknowledge bits ENV owns (R41, R42). -/
def ackBits : Word := notrdyBit ||| frzackBit ||| lpmackBit

/-- The request bits of a freeze (R272). -/
def freezeBits : Word := haltBit ||| frzBit

/-- `v` with the bits of `mask` set or cleared. -/
def setBits (v mask : Word) (b : Bool) : Word := if b then v ||| mask else v &&& ~~~mask

/-- Whether some bit of `mask` is set in `v`. -/
def anySet (v mask : Word) : Bool := v &&& mask != 0

/-- MCR after `RegWrite(i, MCR, v)`: the acknowledge bits keep their value (R42, R85). -/
def mcrWritten (old v : Word) : Word := (v &&& ~~~ackBits) ||| (old &&& ackBits)

/-- MCR after INSTANCE_BRINGUP returned Ok: MDIS = 0, HALT = 1, FRZ = 1, the rest of its choosing (R344). -/
def mcrBroughtUp (v : Word) : Word := (v &&& ~~~mdisBit) ||| freezeBits

/-! ## STATUS (R43, R44) -/

def vpsBit : Word := 0x00004000#32
def imbBit : Word := 0x00002000#32
def lptmBits : Word := 0x007F0000#32

/-- STATUS with the fields LPTM, VPS and IMB given and its other bits from `other` (R43). -/
def statusWord (lptm : BitVec 7) (vps imb : Bool) (other : Word) : Word :=
  setBits (setBits ((other &&& ~~~lptmBits) ||| (lptm.setWidth 32 <<< 16)) imbBit imb) vpsBit vps

/-- LPTM, bits 22:16. -/
def lptm (s : Word) : Nat := (s.extractLsb' 16 7).toNat

/-- `TX_READY(s)` (R44). -/
def txReady (s : Word) : Bool := s.getLsbD 13 && s.getLsbD 14 && decide (lptm s ≤ 1)

/-! ## IFLAG and IMASK (R46) -/

/-- Bits `0 .. N_MB-1`. -/
def mbMask (c : Config) : Word := BitVec.ofNat 32 (2 ^ c.nMb - 1)

/-- `1 << m`. -/
def mbBit (m : Nat) : Word := 1#32 <<< m

/-- IFLAG after a write of `v`: write one to clear (R46, R85). -/
def iflagWritten (old v : Word) : Word := old &&& ~~~v

/-- `RXVALID` (R245). -/
def rxValid (c : Config) : Word := BitVec.ofNat 32 (((1 <<< c.fCap) - 1) <<< 2)

/-- `ctz(x)`, the index of the least significant set bit; 32 for zero, where R13 gives no value and no
rule asks (R244 tests `f = 0` first). -/
def ctz (x : Word) : Nat := ((List.range 32).find? fun m => x.getLsbD m).getD 32

/-! ## WAIT (R174) -/

/-- `HOLDS(v, mask, target)`: `target` true is `set`, false is `cleared`. -/
def holds (v mask : Word) (target : Bool) : Bool := anySet v mask == target

/-! ## Discard counter (R246) -/

/-- `sat_inc_32(x)` (R13). -/
def satInc32 (x : Word) : Word := if x.toNat < 2 ^ 32 - 1 then x + 1 else x

/-! ## Outcome codes (R146, R147) -/

/-- The 8-bit code the host reads in OUTCOME (R146). -/
def OutcomeCode.code : OutcomeCode → BitVec 8
  | .noneYet => 0x00#8
  | .success => 0x01#8
  | .successNothing => 0x02#8
  | .successTimeout => 0x03#8
  | .failure => 0xFF#8
  | .bufferFull => 0xFE#8
  | .badArgument => 0xFD#8

/-- The failure class (R146). -/
def OutcomeCode.isFailure : OutcomeCode → Bool
  | .failure | .bufferFull | .badArgument => true
  | .noneYet | .success | .successNothing | .successTimeout => false

/-! ## An interface's derived bits -/

/-- `PEND(i)` (R397). -/
def Inst.pend (x : Inst) : Bool := x.enabled && x.iflag &&& x.imask != 0

/-- FRZACK. -/
def Inst.frzack (x : Inst) : Bool := anySet x.mcr frzackBit

/-- NOTRDY. -/
def Inst.notrdy (x : Inst) : Bool := anySet x.mcr notrdyBit

/-- LPMACK. -/
def Inst.lpmack (x : Inst) : Bool := anySet x.mcr lpmackBit

/-- HALT = 1 and FRZ = 1 (R371). -/
def Inst.freezeRequested (x : Inst) : Bool := anySet x.mcr haltBit && anySet x.mcr frzBit

/-- ENV may receive: enabled, not in freeze mode, no low-power acknowledge (R365, R371, R372). -/
def Inst.mayReceive (x : Inst) : Bool := x.enabled && !x.frzack && !x.notrdy && !x.lpmack

/-- ENV may transmit: enabled, not in freeze mode, no low-power acknowledge (R368, R371, R372; log 13). -/
def Inst.mayTransmit (x : Inst) : Bool := x.enabled && !x.frzack && !x.lpmack

end Sys2Proof.Machine
end

