-- ==== Sys2Proof/Machine/Ops.lean ====
section
/-! DEFINITION. The named operations over memory and registers: the memory of an instance space, the
address map (R40, R81, R92), the access primitives (R84 to R88) and the refusals (R85, R90), the queue
operations (R241 to R243), the end of a command (R36, R390), handler entry and exit (R398, R400). -/

namespace Sys2Proof.Machine

/-! ## Memory: a sorted list of words without repeats, none equal to `unlistedWord` (log 6) -/

/-- Every word number is at least `lo`, they strictly rise, and no word is `unlistedWord`. -/
def Memory.risingFrom : Nat → Memory → Bool
  | _, [] => true
  | lo, (a, v) :: rest => decide (lo ≤ a) && v != unlistedWord && Memory.risingFrom (a + 1) rest

/-- The canonical form. -/
def Memory.wf (m : Memory) : Bool := Memory.risingFrom 0 m

/-- The word at word number `a`. -/
def Memory.load : Memory → Nat → Word
  | [], _ => unlistedWord
  | (b, v) :: rest, a => if a = b then v else Memory.load rest a

/-- A cell, or none when the word is what an unlisted word reads as. -/
def Memory.cell (a : Nat) (v : Word) (rest : Memory) : Memory :=
  if v = unlistedWord then rest else (a, v) :: rest

/-- Store `v` at word number `a`, keeping the canonical form. -/
def Memory.store : Memory → Nat → Word → Memory
  | [], a, v => Memory.cell a v []
  | (b, w) :: rest, a, v =>
    if a < b then Memory.cell a v ((b, w) :: rest)
    else if a = b then Memory.cell a v rest
    else (b, w) :: Memory.store rest a v

/-! ## Address map (R40, R81) -/

/-- Word number of `RXIMR[m]` (R40). -/
def rximrNo (m : Nat) : Nat := 0x20 + m

/-- Word number of word `k` of mailbox `m` (R81). -/
def mbNo (m k : Nat) : Nat := 0x80 + 18 * m + k

/-- What a word number of an instance space names (R40). -/
inductive Target where
  | mcr
  | status
  | iflag
  | imask
  | timer
  | rximr (m : Nat)
  | mb (m k : Nat)
  deriving DecidableEq, Repr

/-- The map of R40 and R92: none outside its ranges (R90). -/
def target? (c : Config) (n : Nat) : Option Target :=
  if n = 0x00 then some .mcr
  else if n = 0x01 then some .status
  else if n = 0x02 then some .iflag
  else if n = 0x03 then some .imask
  else if n = 0x04 then some .timer
  else if 0x20 ≤ n ∧ n < 0x20 + c.nMb then some (.rximr (n - 0x20))
  else if 0x80 ≤ n ∧ n < 0x80 + 18 * c.nMb then some (.mb ((n - 0x80) / 18) ((n - 0x80) % 18))
  else none

/-! ## Interfaces -/

/-- What stands where no interface does; no rule reads it (R30). -/
def Inst.absent : Inst := Inst.powerOn AnyInst.zero

/-- Interface `i` (R30). -/
def State.inst (s : State) (i : Nat) : Inst := s.insts.getD i Inst.absent

/-- Interface `i` changed by `f`. -/
def State.modInst (s : State) (i : Nat) (f : Inst → Inst) : State :=
  { s with insts := s.insts.modify i f }

/-- Word `k` of mailbox `m`. -/
def Inst.mb (x : Inst) (m k : Nat) : Word := x.ram.load (mbNo m k)

/-- `RXIMR[m]`. -/
def Inst.rximr (x : Inst) (m : Nat) : Word := x.ram.load (rximrNo m)

/-- A mailbox word written. -/
def Inst.setMb (x : Inst) (m k : Nat) (v : Word) : Inst := { x with ram := x.ram.store (mbNo m k) v }

/-- A reception mask written. -/
def Inst.setRximr (x : Inst) (m : Nat) (v : Word) : Inst := { x with ram := x.ram.store (rximrNo m) v }

/-- `ws` written to mailbox words `k, k+1, ...` of mailbox `m`. -/
def Inst.setMbWords (x : Inst) (m : Nat) : Nat → List Word → Inst
  | _, [] => x
  | k, w :: ws => (x.setMb m k w).setMbWords m (k + 1) ws

/-! ## Access primitives (R84 to R88) -/

/-- A register MBC reads (R84). -/
inductive ReadReg where
  | mcr
  | status
  | iflag
  | imask
  | timer
  | rximr (m : Nat)
  deriving DecidableEq, Repr

/-- A register MBC writes (R85): STATUS and TIMER are none. -/
inductive WriteReg where
  | mcr
  | iflag
  | imask
  | rximr (m : Nat)
  deriving DecidableEq, Repr

/-- The value `RegRead` returns (R84). -/
def Inst.reg (x : Inst) : ReadReg → Word
  | .mcr => x.mcr
  | .status => x.status
  | .iflag => x.iflag
  | .imask => x.imask
  | .timer => x.timer.setWidth 32
  | .rximr m => x.rximr m

/-- The value of `RegRead(i, r)` (R84). -/
def regVal (s : State) (i : Nat) (r : ReadReg) : Word := (s.inst i).reg r

/-- The state after `RegRead(i, r)`: a TIMER read clears the lock, no other read has an effect (R84). -/
def regRead (s : State) (i : Nat) (r : ReadReg) : State :=
  match r with
  | .timer => s.modInst i fun x => { x with lock := none }
  | _ => s

/-- What `RegWrite` does to an interface (R85). -/
def Inst.regWritten (c : Config) (x : Inst) (r : WriteReg) (v : Word) : Inst :=
  match r with
  | .mcr => { x with mcr := mcrWritten x.mcr v }
  | .iflag => { x with iflag := iflagWritten x.iflag v }
  | .imask => { x with imask := v &&& mbMask c }
  | .rximr m => x.setRximr m v

/-- `RegWrite(i, r, v)` (R85). -/
def regWrite (s : State) (i : Nat) (r : WriteReg) (v : Word) : State :=
  s.modInst i fun x => x.regWritten s.cfg r v

/-- The value of `MbRead(i, m, k)` (R86). -/
def mbVal (s : State) (i m k : Nat) : Word := (s.inst i).mb m k

/-- The state after `MbRead(i, m, k)`: word 0 of a mailbox `m ≥ 2` locks it (R86). -/
def mbRead (s : State) (i m k : Nat) : State :=
  if k = 0 ∧ 2 ≤ m then s.modInst i fun x => { x with lock := some m } else s

/-- `MbWrite(i, m, k, v)` (R87). -/
def mbWrite (s : State) (i m k : Nat) (v : Word) : State := s.modInst i fun x => x.setMb m k v

/-- `PtRestart()` (R88, R172). -/
def ptRestart (s : State) : State := { s with ptVal := 0xFFFFFFFF#32, ptRun := true }

/-- The poll timer after a bring-up collaborator, which may poll, that is restart it, and never stops it
(R342, R181, R408). -/
def ptPolled (s : State) (pt : Option Word) : State :=
  { s with ptVal := pt.getD s.ptVal, ptRun := pt.isSome || s.ptRun }

/-- `0xFFFF_FFFF - PtRead()`, the elapsed ticks (R173). -/
def elapsed (s : State) : Nat := 0xFFFFFFFF - s.ptVal.toNat

/-- The clock chain loaded with 0xFFFF_FFFF, running or stopped (R340 `tmr:`, R350 `tmr:`). -/
def loadClock (s : State) (run : Bool) : State :=
  { s with clkLo := 0xFFFFFFFF#32, clkHi := 0xFFFFFFFF#32, clkRun := run }

/-- `CLK64` at an instant (R222). -/
def clk64 (s : State) : BitVec 64 := clockValue s.clkHi s.clkLo

/-! ## Access by word number, with the refusals of R85 and R90 -/

/-- An access to word `n` of instance space `i`, refused outside the map (R90, U20). -/
def located (s : State) (i n : Nat) : Option Target :=
  if i < s.cfg.nIf then target? s.cfg n else none

/-- The value of a read of word `n`; "a model refuses" a word number outside the ranges (R90). -/
def busRead (s : State) (i n : Nat) : Host.Outcome (Word × State) Fault Refusal :=
  match located s i n with
  | some .mcr => .next (regVal s i .mcr, regRead s i .mcr)
  | some .status => .next (regVal s i .status, regRead s i .status)
  | some .iflag => .next (regVal s i .iflag, regRead s i .iflag)
  | some .imask => .next (regVal s i .imask, regRead s i .imask)
  | some .timer => .next (regVal s i .timer, regRead s i .timer)
  | some (.rximr m) => .next (regVal s i (.rximr m), regRead s i (.rximr m))
  | some (.mb m k) => .next (mbVal s i m k, mbRead s i m k)
  | none => .refused .noSuchWord

/-- A write of word `n`; refused outside the ranges (R90), and for STATUS and TIMER (R85). -/
def busWrite (s : State) (i n : Nat) (v : Word) : Host.Outcome State Fault Refusal :=
  match located s i n with
  | some .mcr => .next (regWrite s i .mcr v)
  | some .status => .refused .readOnlyWord
  | some .iflag => .next (regWrite s i .iflag v)
  | some .imask => .next (regWrite s i .imask v)
  | some .timer => .refused .readOnlyWord
  | some (.rximr m) => .next (regWrite s i (.rximr m) v)
  | some (.mb m k) => .next (mbWrite s i m k v)
  | none => .refused .noSuchWord

/-! ## Queue operations (R241 to R243) -/

/-- `PUSH(i, f)` (R241). -/
def push (s : State) (i : Nat) (f : Frame) : State :=
  s.modInst i fun x => { x with queue := x.queue ++ [f] }

/-- What `POP(i)` returns (R242). -/
def popped (s : State) (i : Nat) : Option Frame := (s.inst i).queue.head?

/-- The state after `POP(i)` (R242). -/
def pop (s : State) (i : Nat) : State := s.modInst i fun x => { x with queue := x.queue.tail }

/-- `QLEN(i)` (R243). -/
def qlen (s : State) (i : Nat) : Nat := (s.inst i).queue.length

/-! ## Sequencing and the end of a command -/

/-- `FG_PHASE <- p` (R15, R38). -/
def goto (s : State) (p : Phase) : State := { s with phase := p }

/-- `return` and `raise`: OUTCOME written, FG_PHASE back at IDLE (R15, R36, R390). This is the one way a
command reports anything, the failure class included: "does not divert control anywhere" (R390). -/
def ret (s : State) (r : OutcomeCode) : State := { s with outcome := r, phase := .idle }

/-- `return` of WRITE, with NWRITTEN (R302). -/
def retWritten (s : State) (r : OutcomeCode) (n : BitVec 8) : State := { ret s r with nwritten := n }

/-- `return` of START and STOP where they write HANDLE (R340, R350). -/
def retHandle (s : State) (r : OutcomeCode) (h : Bool) : State := { ret s r with handle := h }

/-- FG at IDLE and no handler running: where the port takes a write. R31, R37 and R141 ask for IDLE; the host is
the source of FG's commands (R17), so its write falls where a micro-step of FG can, outside handler runs (R93,
R94), and "FG's state does not change" inside one (R98). -/
abbrev State.Ready (s : State) : Prop := s.phase = .idle ∧ s.gim = false

/-- A reserved command word: BadArgument, "touching no other state" (R141). -/
def reservedWord (s : State) : State := { s with outcome := .badArgument }

/-! ## The reception interrupt: entry and exit -/

/-- Handler entry, in one step: GIM <- 1, nothing saved, control to RXIRQ(i) (R398). -/
def irqEnter (s : State) (i : Nat) : State := { s with gim := true, irq := some ⟨i, .flg⟩ }

/-- Handler exit, in one step: GIM <- 0, nothing restored (R400). -/
def irqExit (s : State) : State := { s with gim := false, irq := none }

/-- IRQ[i] may start: PEND(i) and GIM = 0 (R397, R403). -/
def irqMayStart (s : State) (i : Nat) : Bool :=
  decide (i < s.cfg.nIf) && (s.inst i).pend && !s.gim

/-! ## The one free value -/

/-- One free value drawn (log 8). -/
def drawn (s : State) : State := { s with free := s.free + 1 }

/-- An MCR write of STOP: it takes effect where the clock is on; where it is off it is "stored (or lost;
the source does not say ...)" (R462), which `Config.freeBit` leaves free (log 8). -/
def mcrWriteGated (s : State) (i : Nat) (v : Word) : State :=
  if (s.inst i).enabled then regWrite s i .mcr v
  else if Config.freeBit s.free then drawn (regWrite s i .mcr v)
  else drawn s

end Sys2Proof.Machine
end

