-- ==== Sys2Proof/Machine/Environment.lean ====
section
/-! DEFINITION. The moves of ENV (47_environment.md) and of the host at the port (R31, R37). A move
whose condition does not hold has no effect (log 2). -/

namespace Sys2Proof.Machine

/-- An ENV move on interface `i`: none while its clock is off (R361). -/
def onEnabled (s : State) (i : Nat) (f : Inst → Inst) : State :=
  s.modInst i fun x => if x.enabled then f x else x

/-! ## Bare ownership moves (R362) -/

/-- The three acknowledge bits set to given values (R362). -/
def Inst.setAck (x : Inst) (notrdy frzack lpmack : Bool) : Inst :=
  { x with
    mcr := setBits (setBits (setBits x.mcr notrdyBit notrdy) frzackBit frzack) lpmackBit lpmack }

/-- IFLAG bits rise (R362, R46). -/
def Inst.raise (c : Config) (x : Inst) (v : Word) : Inst :=
  { x with iflag := x.iflag ||| (v &&& mbMask c) }

/-- A word of an unlocked mailbox of the map changes (R362, R366). -/
def Inst.pokeWord (c : Config) (x : Inst) (m k : Nat) (v : Word) : Inst :=
  if m < c.nMb ∧ k < 18 ∧ x.lock ≠ some m then x.setMb m k v else x

/-! ## Ticks (R363, R364) -/

/-- Whether TIMER of interface number `i` takes part in a clock tick (R363, U18). -/
def Inst.ticks (frozen : List Nat) (x : Inst) (i : Nat) : Bool :=
  x.enabled && (!x.frzack || frozen.contains i)

/-- TIMER of interface number `i` after a clock tick. -/
def Inst.timerTick (frozen : List Nat) (i : Nat) (x : Inst) : Inst :=
  if x.ticks frozen i then { x with timer := x.timer + 1 } else x

/-- One clock tick (R363). -/
def clkTick (s : State) (frozen : List Nat) : State :=
  if s.clkRun then
    { s with
      clkLo := if s.clkLo = 0 then 0xFFFFFFFF#32 else s.clkLo - 1
      clkHi := if s.clkLo = 0 then s.clkHi - 1 else s.clkHi
      insts := s.insts.mapIdx (Inst.timerTick frozen) }
  else s

/-- One poll-timer tick (R364). -/
def ptTick (s : State) : State :=
  if s.ptRun ∧ s.ptVal ≠ 0 then { s with ptVal := s.ptVal - 1 } else s

/-! ## Reception and transmission (R365, R368) -/

/-- The identifier of mailbox `m` matches `id` under its mask (R365). -/
def Inst.matchesId (x : Inst) (m : Nat) (id : BitVec 29) : Bool :=
  (id ^^^ idOf (x.mb m 1)) &&& idOf (x.rximr m) == 0

/-- Mailbox `m` is armed: EDL, IDE and CODE empty, full or overrun (R365). -/
def Inst.armed (x : Inst) (m : Nat) : Bool :=
  csEdl (x.mb m 0) && csIde (x.mb m 0) &&
    (csCode (x.mb m 0) == 0x4 || csCode (x.mb m 0) == 0x2 || csCode (x.mb m 0) == 0x6)

/-- The condition of `ENV_RX` (R365). -/
def Inst.rxEnabled (c : Config) (x : Inst) (m : Nat) (id : BitVec 29) (d : BitVec 4)
    (payload : List Byte) : Bool :=
  x.mayReceive && decide (2 ≤ m) && decide (m < c.nMb) && x.armed m && x.lock != some m &&
    x.matchesId m id && payload.length == dlc2len d

/-- The CODE a reception leaves: full, or, over a full mailbox, full or overrun (R365). -/
def rxCode (code : BitVec 4) (overrun : Bool) : BitVec 4 :=
  if code = 0x4 then 0x2 else if overrun then 0x6 else 0x2

/-- The effect of `ENV_RX` (R365). -/
def Inst.received (x : Inst) (m : Nat) (id : BitVec 29) (d : BitVec 4) (payload : List Byte)
    (brs esi srr overrun : Bool) (other : Word) : Inst :=
  let y := ((x.setMb m 1 (idWord id)).setMbWords m 2 (pack payload)).setMb m 0
    (rxControlWord brs esi srr (rxCode (csCode (x.mb m 0)) overrun) d x.timer other)
  { y with iflag := x.iflag ||| mbBit m }

/-- `ENV_RX` (R365). -/
def Inst.rx (c : Config) (x : Inst) (m : Nat) (id : BitVec 29) (d : BitVec 4) (payload : List Byte)
    (brs esi srr overrun : Bool) (other : Word) : Inst :=
  if x.rxEnabled c m id d payload then x.received m id d payload brs esi srr overrun other else x

/-- Data words `0 .. n-1` of mailbox `m`. -/
def Inst.dataWords (x : Inst) (m n : Nat) : List Word := (List.range n).map fun w => x.mb m (2 + w)

/-- The frame a mailbox holds, as ENV_TX sends it (R368). -/
def Inst.frameIn (x : Inst) (m : Nat) : WireFrame where
  id := idOf (x.mb m 1)
  dlc := csDlc (x.mb m 0)
  payload := unpack (x.dataWords m (nwords (dlc2len (csDlc (x.mb m 0))))) (dlc2len (csDlc (x.mb m 0)))

/-- The condition of `ENV_TX` (R368); the lock never holds a transmit mailbox (R58), and R366 forbids
any change of a locked one. -/
def Inst.txEnabled (x : Inst) (m : Nat) : Bool :=
  x.mayTransmit && decide (m ≤ 1) && csCode (x.mb m 0) == 0xC && x.lock != some m

/-- The effect of `ENV_TX` (R368). -/
def Inst.sent (x : Inst) (m : Nat) : Inst :=
  { x.setMb m 0 (txDoneWord (x.mb m 0) x.timer) with
    iflag := x.iflag ||| mbBit m
    wire := x.wire ++ [x.frameIn m] }

/-- `ENV_TX` (R368). -/
def Inst.tx (x : Inst) (m : Nat) : Inst := if x.txEnabled m then x.sent m else x

/-! ## Freeze and low power (R371, R372) -/

/-- FRZACK <- 1, NOTRDY <- 1 while HALT = 1 and FRZ = 1 (R371). -/
def Inst.freezeAck (x : Inst) : Inst :=
  if x.freezeRequested then { x with mcr := x.mcr ||| (frzackBit ||| notrdyBit) } else x

/-- FRZACK <- 0, with NOTRDY <- 0 when `ready`, while HALT and FRZ are not both set (R371). -/
def Inst.freezeLeave (x : Inst) (ready : Bool) : Inst :=
  if x.freezeRequested then x
  else { x with mcr := x.mcr &&& ~~~(if ready then frzackBit ||| notrdyBit else frzackBit) }

/-- NOTRDY <- 0 after FRZACK went down (R371). -/
def Inst.becomeReady (x : Inst) : Inst :=
  if x.freezeRequested || x.frzack then x else { x with mcr := x.mcr &&& ~~~notrdyBit }

/-- LPMACK <- 1, NOTRDY <- 1 while MDIS = 1 (R372). -/
def Inst.lpAck (x : Inst) : Inst :=
  if anySet x.mcr mdisBit then { x with mcr := x.mcr ||| (lpmackBit ||| notrdyBit) } else x

/-! ## STATUS of a well-behaved controller (R370) -/

/-- Mailbox `m` is free: CODE 0x0 or 0x8 (R370). -/
def Inst.freeMailbox (x : Inst) (m : Nat) : Bool := csCode (x.mb m 0) == 0x0 || csCode (x.mb m 0) == 0x8

/-- The lowest-numbered free mailbox (R370). -/
def Inst.lowestFree (c : Config) (x : Inst) : Option Nat := (List.range c.nMb).find? x.freeMailbox

/-- STATUS of a well-behaved controller: IMB = 1 exactly when some mailbox is free and LPTM the lowest-numbered
such mailbox; LPTM without one comes from `other`. "VPS = 1 except transiently" (R370): VPS is `vps`, and how
long a 0 stands is not said. When STATUS follows a change of CODE is not said either: it is this move, which may
come late or never (log 25). -/
def Inst.report (c : Config) (x : Inst) (vps : Bool) (other : Word) : Inst :=
  match x.lowestFree c with
  | some m => { x with status := statusWord (BitVec.ofNat 7 m) vps true other }
  | none => { x with status := statusWord (other.extractLsb' 16 7) vps false other }

/-! ## All moves -/

/-- One move of ENV. -/
def envMove (s : State) (e : EnvMove) : State :=
  match e with
  | .ack i notrdy frzack lpmack => onEnabled s i fun x => x.setAck notrdy frzack lpmack
  | .status i v => onEnabled s i fun x => { x with status := v }
  | .raise i v => onEnabled s i fun x => x.raise s.cfg v
  | .timer i v => onEnabled s i fun x => { x with timer := v }
  | .word i m k v => onEnabled s i fun x => x.pokeWord s.cfg m k v
  | .clock lo hi => if s.clkRun then { s with clkLo := lo, clkHi := hi } else s
  | .poll v => if s.ptRun then { s with ptVal := v } else s
  | .clkTick frozen => clkTick s frozen
  | .ptTick => ptTick s
  | .rx i m id d payload brs esi srr overrun other =>
    onEnabled s i fun x => x.rx s.cfg m id d payload brs esi srr overrun other
  | .tx i m => onEnabled s i fun x => x.tx m
  | .freezeAck i => onEnabled s i Inst.freezeAck
  | .freezeLeave i ready => onEnabled s i fun x => x.freezeLeave ready
  | .ready i => onEnabled s i Inst.becomeReady
  | .lpAck i => onEnabled s i Inst.lpAck
  | .report i vps other => onEnabled s i fun x => x.report s.cfg vps other

/-- Whether a move is one of a well-behaved controller (R363 to R372), not a bare ownership move. -/
def EnvMove.wellBehaved : EnvMove → Bool
  | .ack .. | .status .. | .raise .. | .timer .. | .word .. | .clock .. | .poll .. => false
  | .clkTick .. | .ptTick | .rx .. | .tx .. | .freezeAck .. | .freezeLeave .. | .ready .. | .lpAck ..
    | .report .. => true

/-- A host write of an operand register: ignored while FG_PHASE is not IDLE (R37), and not taken while a handler
runs (R98; the step keeps it back until the handler returns, log 24). A CMD write has no effect here: it is
ignored while FG_PHASE is not IDLE (R31), and at IDLE the step issues it. -/
def hostMove (s : State) (h : HostMove) : State :=
  if s.Ready then
    match h with
    | .cmd _ => s
    | .setTxf id dlc bytes => { s with txf := ⟨id, dlc, setTxfData s.txf.data bytes⟩ }
    | .setFlt j id mask => { s with flt := s.flt.set j ⟨id, mask⟩ }
    | .setTmo v => { s with tmo := v }
  else s

end Sys2Proof.Machine
end

