-- ==== Sys2Proof/Machine/Poll.lean ====
section
/-! DEFINITION. TimeoutPoll: the micro-steps of WAIT (R170 to R182). -/

namespace Sys2Proof.Machine

/-- How an internal operation stands after one micro-step: at a further label, or returned. A WAIT's
`failure` is its Timeout (R170), an FSEQ's is Failure (R287). -/
inductive Progress (α : Type) where
  | more (l : α)
  | success
  | failure
  deriving DecidableEq, Repr

/-- The registers polled in this spec (R171). -/
inductive PollReg where
  | mcr
  | iflag
  deriving DecidableEq, Repr

/-- The value a `sample:` reads (R173); reading MCR or IFLAG has no side effect (R176). -/
def sampleVal (s : State) (i : Nat) (r : PollReg) : Word :=
  match r with
  | .mcr => regVal s i .mcr
  | .iflag => regVal s i .iflag

/-- Where the loop stands after the micro-step at label `l`, `held` what a sample sees and `late` what the
deadline test says (R173). -/
def pollProgress (held late : Bool) (l : WaitLabel) : Progress WaitLabel :=
  match l with
  | .restart => .more .sample
  | .sample => if held then .success else .more .deadline
  | .deadline => if late then .failure else .more .sample

/-- Where WAIT stands after the micro-step at label `l` (R173). -/
def waitProgress (s : State) (i : Nat) (r : PollReg) (mask : Word) (target : Bool) (timeout : Nat)
    (l : WaitLabel) : Progress WaitLabel :=
  pollProgress (holds (sampleVal s i r) mask target) (decide (timeout < elapsed s)) l

/-- The state after the micro-step at label `l`: only `restart:` changes it (R173, R175). -/
def waitState (s : State) (l : WaitLabel) : State :=
  match l with
  | .restart => ptRestart s
  | .sample => s
  | .deadline => s

end Sys2Proof.Machine
end

