-- ==== Sys2Proof/Machine/Filter.lean ====
section
/-! DEFINITION. FilterProgrammer: the micro-steps of FSEQ (R272) and of RECONFIG (R290). -/

namespace Sys2Proof.Machine

/-- `FP_STATE[i] <- p` (R270). -/
def setFpState (s : State) (i : Nat) (p : FpState) : State :=
  s.modInst i fun x => { x with fpState := p }

/-- `LASTF[i] <- fs`, cut to 29 bits; LASTF_N is its length (R272 `lst:`, R280). -/
def setLastFilters (s : State) (i : Nat) (fs : List FilterReg) : State :=
  s.modInst i fun x => { x with lastf := fs.map cutFilter }

/-- The word `fc:` writes, from any value of it: the control word of mailbox `j + 2` (R277). -/
def armMailbox (s : State) (i j : Nat) (cs : Word) : State := mbWrite s i (j + 2) 0 cs

/-- The first filter label, or `lst:` when there is no filter (R272); the loop label `flt[j]:` is no
micro-step (log 23). -/
def afterMasks (fs : List FilterReg) : FseqLabel := if 0 < fs.length then .fm 0 else .lst

/-- Entry `j` of the latched filters (R272). -/
def filterAt (fs : List FilterReg) (j : Nat) : FilterReg := fs.getD j { id := 0, mask := 0 }

/-- One micro-step of `FSEQ(i, fs, n, hook)` (R272): the state after it. The unlabelled assignment
after a WAIT belongs to the micro-step whose sample ended it (log 15). -/
def fseqState (s : State) (i : Nat) (fs : List FilterReg) (hook : Bool) (l : FseqLabel) : State :=
  match l with
  | .frz => s
  | .frz2 v => setFpState (regWrite s i .mcr (v ||| freezeBits)) i .freezing
  | .ack1 w =>
    match waitProgress s i .mcr frzackBit true s.cfg.pollDefaultTicks w with
    | .success => setFpState s i .frozen
    | _ => waitState s w
  | .zmb a => mbWrite s i (a / 18) (a % 18) 0
  | .zim m => regWrite s i (.rximr m) 0
  | .fm j => regWrite s i (.rximr (j + 2)) (cut29 (filterAt fs j).mask)
  | .fc j => armMailbox s i j rxcsWord
  | .fi j => mbWrite s i (j + 2) 1 (cut29 (filterAt fs j).id)
  | .lst => setLastFilters s i fs
  | .hk => if hook then regWrite s i .imask (rxValid s.cfg) else s
  | .unf => s
  | .unf2 v => setFpState (regWrite s i .mcr (v &&& ~~~freezeBits)) i .unfreezing
  | .ack2 w => waitState s w
  | .rdy w =>
    match waitProgress s i .mcr notrdyBit false s.cfg.pollDefaultTicks w with
    | .success => setFpState s i .active
    | _ => waitState s w

/-- One micro-step of `FSEQ(i, fs, n, hook)` (R272): where it stands after it. -/
def fseqProgress (s : State) (i : Nat) (fs : List FilterReg) (l : FseqLabel) : Progress FseqLabel :=
  match l with
  | .frz => .more (.frz2 (regVal s i .mcr))
  | .frz2 _ => .more (.ack1 .restart)
  | .ack1 w =>
    match waitProgress s i .mcr frzackBit true s.cfg.pollDefaultTicks w with
    | .more w' => .more (.ack1 w')
    | .success => .more (.zmb 0)
    | .failure => .failure
  | .zmb a => .more (if a + 1 < 18 * s.cfg.nMb then .zmb (a + 1) else .zim 0)
  | .zim m => .more (if m + 1 < s.cfg.nMb then .zim (m + 1) else afterMasks fs)
  | .fm j => .more (.fc j)
  | .fc j => .more (.fi j)
  | .fi j => .more (if j + 1 < fs.length then .fm (j + 1) else .lst)
  | .lst => .more .hk
  | .hk => .more .unf
  | .unf => .more (.unf2 (regVal s i .mcr))
  | .unf2 _ => .more (.ack2 .restart)
  | .ack2 w =>
    match waitProgress s i .mcr frzackBit false s.cfg.pollDefaultTicks w with
    | .more w' => .more (.ack2 w')
    | .success => .more (.rdy .restart)
    | .failure => .failure
  | .rdy w =>
    match waitProgress s i .mcr notrdyBit false s.cfg.pollDefaultTicks w with
    | .more w' => .more (.rdy w')
    | .success => .success
    | .failure => .failure

/-- One micro-step of RECONFIG (R290); the label `seq[i]:`, which only calls FSEQ, is none (log 23). -/
def reconfigStep (s : State) (count : Nat) (fs : List FilterReg) (l : ReconfigLabel) : State :=
  match l with
  | .chk =>
    if !s.groupLive then ret s .failure
    else if s.cfg.fCap < count then ret s .badArgument
    else if 0 < s.cfg.nIf then goto s (.reconfig count fs (.seq 0 .frz))
    else ret s .success
  | .seq i fl =>
    match fseqProgress s i fs fl with
    | .more fl' => goto (fseqState s i fs false fl) (.reconfig count fs (.seq i fl'))
    | .failure => ret (fseqState s i fs false fl) .failure
    | .success =>
      if i + 1 < s.cfg.nIf then goto (fseqState s i fs false fl) (.reconfig count fs (.seq (i + 1) .frz))
      else ret (fseqState s i fs false fl) .success

end Sys2Proof.Machine
end

