-- ==== Sys2Proof/Machine/Group.lean ====
section
/-! DEFINITION. The micro-steps of WRITE with its ENCODE (R302, R195), READ (R312), SELECT (R320),
GETIFC (R330) and GETMAXF (R331). -/

namespace Sys2Proof.Machine

/-! ## WRITE -/

/-- The label after ENCODE's control word: the first data word, or the completion poll (R195, R302). -/
def afterControl (f : Frame) (m : Nat) : WriteLabel :=
  if 0 < nwords (dlc2len f.dlc) then .dw m 0 else .cmp m .restart

/-- ENCODE's `csw:` for any control word (R195); `csw:` writes `txcsWord (encodeDlc f)`. -/
def controlStore (s : State) (inst count : Nat) (f : Frame) (m : Nat) (cs : Word) : State :=
  goto (mbWrite s inst m 0 cs) (.write inst count f (afterControl f m))

/-- One micro-step of WRITE (R302), ENCODE included (R195), whose call label `enc:` is none (log 23). -/
def writeStep (s : State) (inst count : Nat) (f : Frame) (l : WriteLabel) : State :=
  match l with
  | .chk =>
    if !s.groupLive then retWritten s .failure 0
    else if s.cfg.nIf ≤ inst ∨ count = 0 ∨ s.cfg.txnMax < count then retWritten s .badArgument 0
    else goto s (.write inst count f .rdy)
  | .rdy =>
    if txReady (regVal s inst .status) then
      goto s (.write inst count f (.idw (lptm (regVal s inst .status))))
    else retWritten s .bufferFull 0
  | .idw m => goto (mbWrite s inst m 1 (idWord f.id)) (.write inst count f (.csw m))
  | .csw m => controlStore s inst count f m (txcsWord (encodeDlc f))
  | .dw m w =>
    goto (mbWrite s inst m (2 + w) (packWord f.payload w))
      (.write inst count f (if w + 1 < nwords (dlc2len f.dlc) then .dw m (w + 1) else .cmp m .restart))
  | .cmp m wl =>
    match waitProgress s inst .iflag (mbBit m) true s.cfg.pollDefaultTicks wl with
    | .more wl' => goto (waitState s wl) (.write inst count f (.cmp m wl'))
    | .success => goto (waitState s wl) (.write inst count f (.clr m))
    | .failure => retWritten (waitState s wl) .failure 0
  | .clr m => retWritten (regWrite s inst .iflag (mbBit m)) .success 1

/-! ## READ -/

/-- One micro-step of READ (R312). -/
def readStep (s : State) (inst : Nat) (l : ReadLabel) : State :=
  match l with
  | .chk =>
    if !s.groupLive then ret s .failure
    else if s.cfg.nIf ≤ inst then ret s .badArgument
    else goto s (.read inst .pop)
  | .pop =>
    match popped s inst with
    | none => ret s .successNothing
    | some f => { ret (pop s inst) .success with rxf := rxResult f }

/-! ## SELECT -/

/-- The label that begins a scan (R320); the loop label `scan:` is no micro-step (log 23). -/
def scanStart (s : State) : SelectLabel := if 0 < s.cfg.nIf then .q 0 else .deadline

/-- One micro-step of SELECT (R320). -/
def selectStep (s : State) (ignw : Bool) (tmo : Word) (l : SelectLabel) : State :=
  match l with
  | .chk => if !s.groupLive then ret s .failure else goto s (.select ignw tmo .restart)
  | .restart => goto (ptRestart s) (.select ignw tmo (scanStart s))
  | .q i => if 0 < qlen s i then ret s .success else goto s (.select ignw tmo (.t i))
  | .t i =>
    if !ignw && txReady (regVal s i .status) then ret s .success
    else goto s (.select ignw tmo (if i + 1 < s.cfg.nIf then .q (i + 1) else .deadline))
  | .deadline =>
    if tmo.toNat < elapsed s then ret s .successTimeout
    else goto s (.select ignw tmo (scanStart s))

/-! ## Capacity queries -/

/-- The one micro-step of GETIFC (R330). -/
def getifcStep (s : State) : State := { ret s .success with rcount := BitVec.ofNat 8 s.cfg.nIf }

/-- The one micro-step of GETMAXF (R331). -/
def getmaxfStep (s : State) : State := { ret s .success with rcount := BitVec.ofNat 8 s.cfg.fCap }

end Sys2Proof.Machine
end

