-- ==== Sys2Proof/Machine/Manager.lean ====
section
/-! DEFINITION. The micro-steps of START (R340) and STOP (R350), and the two collaborator steps
CLOCK_BRINGUP (R342) and INSTANCE_BRINGUP (R344). -/

namespace Sys2Proof.Machine

/-! ## START -/

/-- START's `rst:` on one interface (R341). -/
def Inst.restarted (x : Inst) : Inst := { x with queue := [], discard := 0 }

/-- The label that begins with interface `i`, or `live:` past the last one (R340); the loop label
`inst[i]:` is no micro-step (log 23). -/
def startLoop (s : State) (i : Nat) : StartLabel := if i < s.cfg.nIf then .up i else .live

/-- One micro-step of START (R340). At `clk:` and `up:` FG waits inside a collaborator, whose return is
a move of its own (`clockBringup`, `instBringup`). -/
def startStep (s : State) (count : Nat) (fs : List FilterReg) (l : StartLabel) : State :=
  match l with
  | .chk =>
    if s.cfg.fCap < count then ret s .badArgument
    else if s.groupLive then ret s .failure
    else goto s (.start count fs .rst)
  | .rst => goto { s with insts := s.insts.map Inst.restarted } (.start count fs .clk)
  | .clk => s
  | .tmr => goto (loadClock s true) (.start count fs (startLoop s 0))
  | .up _ => s
  | .fp i fl =>
    match fseqProgress s i fs fl with
    | .more fl' => goto (fseqState s i fs true fl) (.start count fs (.fp i fl'))
    | .failure => retHandle (fseqState s i fs true fl) .failure false
    | .success => goto (fseqState s i fs true fl) (.start count fs (startLoop s (i + 1)))
  | .live => { retHandle s .success true with groupLive := true }

/-! ## The collaborators -/

/-- CLOCK_BRINGUP returns Ok or Timeout; it may have polled and changes nothing else (R342). Without
effect unless START waits for it. -/
def clockBringup (s : State) (ok : Bool) (pt : Option Word) : State :=
  match s.phase with
  | .start count fs .clk =>
    if s.gim then s
    else if ok then goto (ptPolled s pt) (.start count fs .tmr)
    else retHandle (ptPolled s pt) .failure false
  | _ => s

/-- The interface after INSTANCE_BRINGUP returned Ok (R344). STATUS and TIMER, which R344 does not name,
hold what the move carries, so that no rule reads their power-on values afterwards (R443; log 11). -/
def Inst.broughtUp (x : Inst) (r : UpRegs) : Inst :=
  { x with enabled := true, mcr := mcrBroughtUp r.mcr, status := r.status, timer := r.timer, imask := 0 }

/-- A mask write of a bring-up that timed out, inside the map. -/
def Inst.partialMask (c : Config) (x : Inst) (p : Nat × Word) : Inst :=
  if p.1 < c.nMb then x.setRximr p.1 p.2 else x

/-- A mailbox write of a bring-up that timed out, inside the map. -/
def Inst.partialWord (c : Config) (x : Inst) (p : Nat × Nat × Word) : Inst :=
  if p.1 < c.nMb ∧ p.2.1 < 18 then x.setMb p.1 p.2.1 p.2.2 else x

/-- The interface after INSTANCE_BRINGUP timed out: its registers hold any value, what the block itself
keeps is untouched (R344, U3; log 11). -/
def Inst.partlyUp (c : Config) (x : Inst) (p : PartialBringup) : Inst :=
  let y := p.words.foldl (Inst.partialWord c) (p.masks.foldl (Inst.partialMask c) x)
  { y with
    enabled := p.enabled
    mcr := p.mcr
    status := p.status
    iflag := p.iflag &&& mbMask c
    imask := p.imask &&& mbMask c
    timer := p.timer }

/-- INSTANCE_BRINGUP(i) returns Ok or Timeout (R344). Without effect unless START waits for it. -/
def instBringup (s : State) (r : Bringup) (pt : Option Word) : State :=
  match s.phase with
  | .start count fs (.up i) =>
    if s.gim then s
    else
      match r with
      | .ok u =>
        goto ((ptPolled s pt).modInst i fun x => x.broughtUp u) (.start count fs (.fp i .frz))
      | .timeout p => retHandle ((ptPolled s pt).modInst i fun x => x.partlyUp s.cfg p) .failure false
  | _ => s

/-! ## STOP -/

/-- The label that begins with interface `i`, or `tmr:` past the last one (R350); the loop label
`inst[i]:` is no micro-step (log 23). -/
def stopLoop (s : State) (i : Nat) : StopLabel := if i < s.cfg.nIf then .lpr i else .tmr

/-- STOP's `gate:` (R350). -/
def gateOff (s : State) (i : Nat) : State := s.modInst i fun x => { x with enabled := false }

/-- What STOP's sample sees of LPMACK: the bit, or, where the clock is off, a free value, since "A model
treats the outcome of STOP in these states as either Success or Failure" (R462, U19; log 8). -/
def lpmackSeen (s : State) (i : Nat) : Bool :=
  if (s.inst i).enabled then holds (sampleVal s i .mcr) lpmackBit true else Config.freeBit s.free

/-- The state after a micro-step of STOP's `lpa:`: that of WAIT, the value drawn where one was (R173). -/
def lpaState (s : State) (i : Nat) (l : WaitLabel) : State :=
  match l with
  | .restart => ptRestart s
  | .sample => if (s.inst i).enabled then s else drawn s
  | .deadline => s

/-- Where STOP's `lpa:` stands after its micro-step (R350, R173). -/
def lpaProgress (s : State) (i : Nat) (l : WaitLabel) : Progress WaitLabel :=
  pollProgress (lpmackSeen s i) (decide (s.cfg.pollDefaultTicks < elapsed s)) l

/-- One micro-step of STOP (R350). -/
def stopStep (s : State) (l : StopLabel) : State :=
  match l with
  | .lpr i => goto s (.stop (.lpr2 i (regVal s i .mcr)))
  | .lpr2 i v => goto (mcrWriteGated s i (v ||| mdisBit)) (.stop (.lpa i .restart))
  | .lpa i w =>
    match lpaProgress s i w with
    | .more w' => goto (lpaState s i w) (.stop (.lpa i w'))
    | .success => goto (lpaState s i w) (.stop (.gate i))
    | .failure => ret (lpaState s i w) .failure
  | .gate i => goto (gateOff s i) (.stop (stopLoop s (i + 1)))
  | .tmr => goto (loadClock s false) (.stop .dead)
  | .dead => { retHandle s .success false with groupLive := false }

end Sys2Proof.Machine
end

