-- ==== Sys2Proof/Machine/Reception.lean ====
section
/-! DEFINITION. The reception handler, access by access: RXIRQ (R244), DECODE (R200), CLKREAD (R221),
RECONCILE (R223). -/

namespace Sys2Proof.Machine

/-- The handler of interface `i` stands at `l`. -/
def irqAt (s : State) (i : Nat) (l : IrqLabel) : State := { s with irq := some ⟨i, l⟩ }

/-- The receive flags pending on interface `i` (R244 `flg:`). -/
def rxFlags (s : State) (i : Nat) : Word := regVal s i .iflag &&& rxValid s.cfg

/-- Where RXIRQ goes from `flg:` (R244): nothing valid is set, the queue has room, or it is full. The
lowest set bit is the mailbox served (R248). -/
def afterFlags (s : State) (i : Nat) : IrqLabel :=
  if rxFlags s i = 0 then .exit
  else if qlen s i < s.cfg.qCap then .csr (ctz (rxFlags s i))
  else .cnt (ctz (rxFlags s i))

/-- What DECODE returns from the words it read (R200). -/
def captureOf (cs : Word) (id : BitVec 29) (ws : List Word) : Capture where
  id := id
  dlc := csDlc cs
  payload := unpack ws (dlc2len (csDlc cs))
  ts16 := csTimestamp cs

/-- The next access of DECODE once `ws` are read: a further data word, or the clock (R200). -/
def afterWords (m : Nat) (cs : Word) (id : BitVec 29) (ws : List Word) : IrqLabel :=
  if ws.length < nwords (dlc2len (csDlc cs)) then .dr m cs id ws else .hi m (captureOf cs id ws)

/-- The Frame pushed: its `ts` is the reconciled time (R244 `psh:`). -/
def frameOf (c : Capture) (us : BitVec 64) : Frame where
  id := c.id
  dlc := c.dlc
  payload := c.payload
  ts := us

/-- `DISCARD[i] <- sat_inc_32(DISCARD[i])` (R244 `cnt:`, R246). -/
def countDiscard (s : State) (i : Nat) : State :=
  s.modInst i fun x => { x with discard := satInc32 x.discard }

/-- One access of the handler of interface `i` at label `l` (R244, R251). -/
def rxirqStep (s : State) (i : Nat) (l : IrqLabel) : State :=
  match l with
  | .flg => irqAt s i (afterFlags s i)
  | .csr m =>
    irqAt (mbRead s i m 0) i
      (if mtu < dlc2len (csDlc (mbVal s i m 0)) then .unl m else .idr m (mbVal s i m 0))
  | .idr m cs => irqAt (mbRead s i m 1) i (afterWords m cs (idOf (mbVal s i m 1)) [])
  | .dr m cs id ws =>
    irqAt (mbRead s i m (2 + ws.length)) i (afterWords m cs id (ws ++ [mbVal s i m (2 + ws.length)]))
  | .hi m c => irqAt s i (.lo m c s.clkHi)
  | .lo m c h => irqAt s i (.tmr m c (clockValue h s.clkLo))
  | .tmr m c clk =>
    irqAt (regRead s i .timer) i
      (.psh m (frameOf c (reconcile s.cfg clk ((regVal s i .timer).setWidth 16) c.ts16)))
  | .psh m f => irqAt (push s i f) i (.clr m)
  | .unl m => irqAt (regRead s i .timer) i (.clr m)
  | .cnt m => irqAt (countDiscard s i) i (.clr m)
  | .clr m => irqAt (regWrite s i .iflag (mbBit m)) i .exit
  | .exit => irqExit s

/-- The running handler makes its next access; no effect when none runs. -/
def irqStep (s : State) : State :=
  match s.irq with
  | none => s
  | some r => rxirqStep s r.inst r.label

end Sys2Proof.Machine
end

