-- ==== Sys2Proof/Machine/Sequencer.lean ====
section
/-! DEFINITION. The moves of all agents as one function (R17, R93), and a command run from its issue to
its return over the moves the agenda holds (R31, R38, R404). -/

namespace Sys2Proof.Machine

/-- FG's micro-step at FG_PHASE (R38); none while a handler runs (R94) and none at IDLE. -/
def fgMicro (s : State) : State :=
  if s.gim then s
  else
    match s.phase with
    | .idle => s
    | .getifc => getifcStep s
    | .getmaxf => getmaxfStep s
    | .start count fs l => startStep s count fs l
    | .stop l => stopStep s l
    | .write inst count f l => writeStep s inst count f l
    | .read inst l => readStep s inst l
    | .select ignw tmo l => selectStep s ignw tmo l
    | .reconfig count fs l => reconfigStep s count fs l

/-- IRQ[i] is entered if it may start (R397, R398). -/
def irqStart (s : State) (i : Nat) : State := if irqMayStart s i then irqEnter s i else s

/-- One move of one agent; without effect where the agent may not make it (log 2). -/
def applyMove (m : Move) (s : State) : State :=
  match m with
  | .fg => fgMicro s
  | .irqStart i => irqStart s i
  | .irq => irqStep s
  | .clockBringup ok pt => clockBringup s ok pt
  | .instBringup r pt => instBringup s r pt
  | .env e => envMove s e
  | .host h => hostMove s h

/-- The moves taken in order while a command is in flight. It stops at the command's return, leaving
the rest of the moves in the agenda, or at their end, leaving the command in flight (log 3). -/
def drive : List Move → State → State
  | [], s => { s with agenda := [] }
  | m :: ms, s => if s.phase = .idle then { s with agenda := m :: ms } else drive ms (applyMove m s)

/-- A command issued at IDLE with its first phase, which holds the latched operands (R31), and run
over the agenda. At another time the command word is ignored (R31); while a handler runs none is taken (R98;
log 24). -/
def issue (s : State) (p : Phase) : State :=
  if s.Ready then drive s.agenda (goto s p) else s

end Sys2Proof.Machine
end

