-- ==== Sys2Proof/Machine/Commands.lean ====
section
/-! DEFINITION. The meaning of each row of the opcode table: the eight commands (R140), each latching
the operands it uses (R31, R139), and the two control words (R123, R124). -/

namespace Sys2Proof.Machine

/-- `GETIFC` (R330). -/
def execGetifc (s : State) : Host.Outcome State Fault Refusal := .next (issue s .getifc)

/-- `GETMAXF` (R331). -/
def execGetmaxf (s : State) : Host.Outcome State Fault Refusal := .next (issue s .getmaxf)

/-- `START n` (R340); latches `FLT[0 .. n-1]`. -/
def execStart (count : Nat) (s : State) : Host.Outcome State Fault Refusal :=
  .next (issue s (.start count (latchFilters count s.flt) .chk))

/-- `STOP` (R350). -/
def execStop (s : State) : Host.Outcome State Fault Refusal := .next (issue s (.stop (stopLoop s 0)))

/-- `WRITE i, n` (R302); latches the frame of TXF. -/
def execWrite (inst count : Nat) (s : State) : Host.Outcome State Fault Refusal :=
  .next (issue s (.write inst count (txFrame s.txf) .chk))

/-- `READ i` (R312). -/
def execRead (inst : Nat) (s : State) : Host.Outcome State Fault Refusal :=
  .next (issue s (.read inst .chk))

/-- `SELECT g` (R320); latches TMO. -/
def execSelect (ignw : Bool) (s : State) : Host.Outcome State Fault Refusal :=
  .next (issue s (.select ignw s.tmo .chk))

/-- `RECONFIG n` (R290); latches `FLT[0 .. n-1]`. -/
def execReconfig (count : Nat) (s : State) : Host.Outcome State Fault Refusal :=
  .next (issue s (.reconfig count (latchFilters count s.flt) .chk))

/-- `TXCS(d)`, no command (log 7). At IDLE it is a word written to CMD, and reserved (R141). At `csw:` of
an ENCODE it is the word that micro-step writes into the mailbox's control word, which requests the
transmission (R195, R87). At any other point no rule writes it, and a CMD write is ignored (R31). While a
handler runs FG does not move and its state does not change (R94, R98; log 24). -/
def execTxcs (dlc : Nat) (s : State) : Host.Outcome State Fault Refusal :=
  if s.gim then .next s
  else
    match s.phase with
    | .idle => .next (reservedWord s)
    | .write inst count f (.csw m) => .next (controlStore s inst count f m (txcsWord (BitVec.ofNat 4 dlc)))
    | _ => .next s

/-- `RXCS`, no command (log 7). At IDLE it is a word written to CMD, and reserved (R141). At `fc:` of an
FSEQ it is the word that micro-step writes to arm mailbox `j + 2` (R277, R87). At any other point no
rule writes it, and a CMD write is ignored (R31). While a handler runs FG does not move and its state does
not change (R94, R98; log 24). -/
def execRxcs (s : State) : Host.Outcome State Fault Refusal :=
  if s.gim then .next s
  else
    match s.phase with
    | .idle => .next (reservedWord s)
    | .start count fs (.fp i (.fc j)) =>
      .next (goto (armMailbox s i j rxcsWord) (.start count fs (.fp i (.fi j))))
    | .reconfig count fs (.seq i (.fc j)) =>
      .next (goto (armMailbox s i j rxcsWord) (.reconfig count fs (.seq i (.fi j))))
    | _ => .next s

end Sys2Proof.Machine
end

