-- ==== Sys2Proof/Machine/Dispatch.lean ====
section
/-! DEFINITION. The one match over Instr: an arm per row of spec/opcode_table.json. -/

namespace Sys2Proof.Machine

def exec (i : Instr) (s : State) : Host.Outcome State Fault Refusal :=
  match i with
  | .getifc => Sys2Proof.Machine.execGetifc s
  | .getmaxf => Sys2Proof.Machine.execGetmaxf s
  | .start count => Sys2Proof.Machine.execStart count s
  | .stop => Sys2Proof.Machine.execStop s
  | .write inst count => Sys2Proof.Machine.execWrite inst count s
  | .read inst => Sys2Proof.Machine.execRead inst s
  | .select ignw => Sys2Proof.Machine.execSelect ignw s
  | .reconfig count => Sys2Proof.Machine.execReconfig count s
  | .txcs dlc => Sys2Proof.Machine.execTxcs dlc s
  | .rxcs => Sys2Proof.Machine.execRxcs s

end Sys2Proof.Machine
end

