-- ==== Sys2Proof/Machine/Port.lean ====
section
/-! DEFINITION. How the next move is taken from the agenda and a command word from CMD (R31, R37). -/

namespace Sys2Proof.Machine

/-- The state once the first entry of the agenda is taken. -/
def takeMove (s : State) : State := { s with agenda := s.agenda.tail }

/-- The state once the host's CMD write of `w` is taken at IDLE: CMD holds `w` (R31). -/
def latchCmd (s : State) (w : Word) : State := { takeMove s with cmd := w }

/-- The command word the next step issues: the host writes CMD while FG_PHASE = IDLE (R31) and no handler
runs (R98). -/
def fetched (s : State) : Option Word :=
  match s.agenda with
  | .host (.cmd w) :: _ => if s.Ready then some w else none
  | _ => none

/-- A move of the agent that has the floor: the running handler, else FG (log 2). -/
def floorMove (s : State) : State := if s.gim then irqStep s else fgMicro s

/-- A host write that FG at IDLE would take waits for the running handler to return, since "FG's state does
not change while it runs" (R98; log 24). -/
def hostWaits (s : State) (m : Move) : Bool :=
  match m with
  | .host _ => decide (s.phase = .idle) && s.gim
  | .fg | .irqStart _ | .irq | .clockBringup .. | .instBringup .. | .env _ => false

/-- A step that issues no command: the agenda's first move, or, with no move left (log 2) or while that move
waits (log 24), one of the agent that has the floor. -/
def moveStep (s : State) : State :=
  match s.agenda with
  | [] => floorMove s
  | m :: _ => if hostWaits s m then floorMove s else applyMove m (takeMove s)

/-- The FG micro-steps `withFetchWord` schedules after the CMD write (log 4). -/
def fetchMicroSteps : Nat := 32

end Sys2Proof.Machine
end

