-- ==== Sys2Proof/Machine/Step.lean ====
section
/-! DEFINITION. One step of the block: a move of one agent (R93), or, where the host writes CMD at IDLE,
the command it encodes (R31). -/

namespace Sys2Proof.Machine

/-- A command word decoded and issued; a reserved one ends at once with BadArgument (R141). -/
def issueWord (s : State) (w : Word) : Host.Outcome State Fault Refusal :=
  match decode w with
  | .instr i => exec i (latchCmd s w)
  | .reserved _ => .next (reservedWord (latchCmd s w))

/-- One step. -/
def step (s : State) : Host.Outcome State Fault Refusal :=
  match fetched s with
  | some w => issueWord s w
  | none => .next (moveStep s)

/-- The state in which the host's next move writes the word to CMD, FG stands at IDLE and no handler runs, so
that it is taken, and FG's micro-steps follow: the very next step issues and runs that command (log 4). -/
def State.withFetchWord (s : State) (nbits w : Nat) : State :=
  { s with
    phase := .idle
    gim := false
    irq := none
    agenda := .host (.cmd (BitVec.ofNat 32 (w % 2 ^ nbits))) :: List.replicate fetchMicroSteps .fg }

end Sys2Proof.Machine
end

