-- ==== Sys2Proof/Safety.lean ====
section
/-! DEFINITION. What counts as a good state, in the terms the claims use: the shapes of R30 to R60, the
invariants of R61, the ranges the sequencer and the handler keep to (R90), the one lock (R204) and
HANDLE = GROUP_LIVE (R347). -/

namespace Sys2Proof.Machine

/-- A Frame's byte length is its table length (R56). -/
abbrev Frame.Wf (f : Frame) : Prop := f.payload.length = dlc2len f.dlc

/-- A word number of RXIMR or of the mailbox RAM (R40, R81). -/
abbrev Stored (c : Config) (a : Nat) : Prop :=
  (0x20 ≤ a ∧ a < 0x20 + c.nMb) ∨ (0x80 ≤ a ∧ a < 0x80 + 18 * c.nMb)

/-- What holds of every interface. -/
structure Inst.Wf (c : Config) (x : Inst) : Prop where
  /-- The memory keeps its canonical form. -/
  canonical : x.ram.wf = true
  /-- Nothing outside the map is stored to (R90). -/
  mapped : ∀ p ∈ x.ram, Stored c p.1
  /-- IFLAG bits at or above N_MB read zero (R46). -/
  iflagShape : x.iflag &&& ~~~mbMask c = 0
  /-- IMASK bits at or above N_MB read zero (R46). -/
  imaskShape : x.imask &&& ~~~mbMask c = 0
  /-- "queue length ≤ capacity at all observation points" (R61). -/
  queueBound : x.queue.length ≤ c.qCap
  /-- Every queued frame has its table length (R56). -/
  queueFrames : ∀ f ∈ x.queue, f.Wf
  /-- LASTF_N is at most F_CAP (R53). -/
  lastfBound : x.lastf.length ≤ c.fCap
  /-- LOCK is none or a receive mailbox (R58). -/
  lockRange : ∀ m, x.lock = some m → 2 ≤ m ∧ m < c.nMb

/-- The loop indices of FSEQ stay inside the mailboxes, the masks and the `n` filters (R272). -/
def FseqLabel.Wf (c : Config) (n : Nat) : FseqLabel → Prop
  | .zmb a => a < 18 * c.nMb
  | .zim m => m < c.nMb
  | .fm j | .fc j | .fi j => j < n
  | .frz | .frz2 _ | .ack1 _ | .lst | .hk | .unf | .unf2 _ | .ack2 _ | .rdy _ => True

/-- WRITE reaches only interface `inst < N_IF`, only mailboxes 0 and 1 (R61 invariant 4), and only the
data words of the frame (R196). -/
def WriteLabel.Wf (c : Config) (inst : Nat) (f : Frame) : WriteLabel → Prop
  | .chk => True
  | .rdy => inst < c.nIf
  | .idw m | .csw m | .cmp m _ | .clr m => inst < c.nIf ∧ m ≤ 1
  | .dw m w => inst < c.nIf ∧ m ≤ 1 ∧ w < nwords (dlc2len f.dlc)

/-- The ranges FG_PHASE keeps to, where GROUP_LIVE is `live`: past its checks START runs without a live
group (R347). -/
def Phase.Wf (c : Config) (live : Bool) : Phase → Prop
  | .idle | .getifc | .getmaxf => True
  | .start _ fs l =>
    fs.length ≤ c.fCap ∧
      match l with
      | .chk => True
      | .up i => live = false ∧ i < c.nIf
      | .fp i fl => live = false ∧ i < c.nIf ∧ fl.Wf c fs.length
      | .rst | .clk | .tmr | .live => live = false
  | .stop l =>
    match l with
    | .lpr i | .lpr2 i _ | .lpa i _ | .gate i => i < c.nIf
    | .tmr | .dead => True
  | .write inst _ f l => f.Wf ∧ l.Wf c inst f
  | .read inst l =>
    match l with
    | .chk => True
    | .pop => inst < c.nIf
  | .select _ _ l =>
    match l with
    | .q i | .t i => i < c.nIf
    | .chk | .restart | .deadline => True
  | .reconfig _ fs l =>
    fs.length ≤ c.fCap ∧
      match l with
      | .chk => True
      | .seq i fl => i < c.nIf ∧ fl.Wf c fs.length

/-- The mailbox a handler serves is one of RXVALID's (R245). -/
abbrev Served (c : Config) (m : Nat) : Prop := 2 ≤ m ∧ m < 2 + c.fCap

/-- What a handler of an interface in state `x` keeps to at its label: the mailbox served (R245), room
in the queue until the push (R241), the lock from the control-word read to the TIMER read (R204). -/
def IrqLabel.Wf (c : Config) (x : Inst) : IrqLabel → Prop
  | .flg | .exit => True
  | .csr m => Served c m ∧ x.queue.length < c.qCap
  | .idr m _ => Served c m ∧ x.queue.length < c.qCap ∧ x.lock = some m
  | .dr m cs _ ws =>
    Served c m ∧ x.queue.length < c.qCap ∧ x.lock = some m ∧ ws.length < nwords (dlc2len (csDlc cs))
  | .hi m r | .lo m r _ | .tmr m r _ =>
    Served c m ∧ x.queue.length < c.qCap ∧ x.lock = some m ∧ r.payload.length = dlc2len r.dlc
  | .psh m f => Served c m ∧ x.queue.length < c.qCap ∧ f.Wf
  | .unl m => Served c m ∧ x.lock = some m
  | .cnt m | .clr m => Served c m

/-- What holds of a running handler. -/
structure IrqRun.Wf (s : State) (r : IrqRun) : Prop where
  inst : r.inst < s.cfg.nIf
  label : r.label.Wf s.cfg (s.inst r.inst)

/-- What holds of every state of a run, from reset on. -/
structure State.Wf (s : State) : Prop where
  legal : s.cfg.Legal
  instCount : s.insts.length = s.cfg.nIf
  fltCount : s.flt.length = s.cfg.fCap
  txfBytes : s.txf.data.length = 64
  rxfBytes : s.rxf.data.length = 64
  /-- "at every return HANDLE = GROUP_LIVE" (R347). -/
  handleLive : s.handle = s.groupLive
  instWf : ∀ x ∈ s.insts, x.Wf s.cfg
  phaseWf : s.phase.Wf s.cfg s.groupLive
  /-- GIM is 1 exactly while a handler runs (R49). -/
  gimIrq : s.gim = s.irq.isSome
  irqWf : ∀ r, s.irq = some r → r.Wf s

/-! ## Schedules: the orders of moves the claims speak of (R18, R374) -/

/-- `n` micro-steps of FG. -/
def fgs (n : Nat) : List Move := List.replicate n .fg

/-- `n` accesses of the running handler. -/
def irqs (n : Nat) : List Move := List.replicate n .irq

/-- `n` poll-timer ticks (R364). -/
def ptTicks (n : Nat) : List Move := List.replicate n (.env .ptTick)

/-- Moves made one after another. -/
def applyMoves : List Move → State → State
  | [], s => s
  | m :: ms, s => applyMoves ms (applyMove m s)

/-- WRITE up to and including `restart:` of its completion poll (R302, R195, R173): `chk`, `rdy`, `idw`,
`csw`, the data words, `restart`. -/
def writeMoves (f : Frame) : List Move := fgs (5 + nwords (dlc2len f.dlc))

/-- FSEQ up to and including `restart:` of `ack2:`, the freeze acknowledged in time (R272). -/
def rewriteMoves (c : Config) (i n : Nat) : List Move :=
  fgs 3 ++ .env (.freezeAck i) :: fgs (6 + 19 * c.nMb + 3 * n)

/-- A whole FSEQ of interface `i` with `n` filters, both acknowledges in time (R272, R371). -/
def fseqMoves (c : Config) (i n : Nat) : List Move :=
  rewriteMoves c i n ++ .env (.freezeLeave i true) :: fgs 3

/-- RECONFIG up to the FSEQ of interface `k` (R290). -/
def reconfigUpTo (c : Config) (n k : Nat) : List Move :=
  fgs 1 ++ (List.range k).flatMap fun i => fseqMoves c i n

/-- A whole RECONFIG (R290). -/
def reconfigMoves (c : Config) (n : Nat) : List Move := reconfigUpTo c n c.nIf

/-- START up to the bring-up of interface `k`, both collaborators Ok; `up i` is what interface `i` is
brought up with, and `pt` how the collaborators leave the poll timer (R340, R342, R344; log 11). -/
def startUpTo (c : Config) (n : Nat) (up : Nat → UpRegs) (pt : Option Word) (k : Nat) : List Move :=
  fgs 2 ++ .clockBringup true pt :: fgs 1 ++
    (List.range k).flatMap fun i => .instBringup (.ok (up i)) pt :: fseqMoves c i n

/-- A whole START, both collaborators Ok (R340). -/
def startMoves (c : Config) (n : Nat) (up : Nat → UpRegs) (pt : Option Word) : List Move :=
  startUpTo c n up pt c.nIf ++ fgs 1

/-- The poll of FSEQ that times out (R285). -/
inductive SilentPoll where
  /-- `ack1:`, the freeze is never acknowledged. -/
  | freeze
  /-- `ack2:`, FRZACK never goes down. -/
  | unfreeze
  /-- `rdy:`, NOTRDY never goes down. -/
  | ready
  deriving DecidableEq, Repr

/-- Just enough poll-timer ticks for a deadline test to time out, and that test (R173). -/
def timeoutMoves (c : Config) : List Move := ptTicks (c.pollDefaultTicks + 1) ++ fgs 1

/-- FSEQ of interface `i` with `n` filters up to the timeout of one of its polls (R272, R285). -/
def abortMoves (c : Config) (i n : Nat) : SilentPoll → List Move
  | .freeze => fgs 4 ++ timeoutMoves c
  | .unfreeze => rewriteMoves c i n ++ fgs 1 ++ timeoutMoves c
  | .ready => rewriteMoves c i n ++ .env (.freezeLeave i false) :: fgs 3 ++ timeoutMoves c

/-- STOP on interface `i`, the low-power acknowledge in time (R350, R372). -/
def gateMoves (i : Nat) : List Move := fgs 3 ++ .env (.lpAck i) :: fgs 2

/-- A whole STOP (R350). -/
def stopMoves (c : Config) : List Move := (List.range c.nIf).flatMap gateMoves ++ fgs 2

/-- What an interface holds after the `n` filters `fs` are programmed (R278). -/
def Programmed (c : Config) (fs : List FilterReg) (x : Inst) : Prop :=
  ∀ m, m < c.nMb →
    x.rximr m = (if 2 ≤ m ∧ m < 2 + fs.length then cut29 (filterAt fs (m - 2)).mask else 0) ∧
    x.mb m 0 = (if 2 ≤ m ∧ m < 2 + fs.length then 0xC4200000#32 else 0) ∧
    x.mb m 1 = (if 2 ≤ m ∧ m < 2 + fs.length then cut29 (filterAt fs (m - 2)).id else 0) ∧
    ∀ k, 2 ≤ k → k < 18 → x.mb m k = 0

/-- Interface `x` after START emptied its queue and cleared its counter (R341) and INSTANCE_BRINGUP
returned Ok with `r` (R344; log 11). -/
def afterBringup (r : UpRegs) (x : Inst) : Inst :=
  { x with
    enabled := true
    mcr := (r.mcr &&& ~~~0x80000000#32) ||| 0x50000000#32
    status := r.status
    timer := r.timer
    imask := 0
    queue := []
    discard := 0 }

/-- IMASK after FSEQ: RXVALID with START's hook, untouched without (R282, R286). -/
def maskAfter (c : Config) (hook : Bool) (old : Word) : Word :=
  if hook then BitVec.ofNat 32 ((2 ^ c.fCap - 1) * 4) else old

/-- `y` is interface `x` after a whole FSEQ, both acknowledges in time: Active with the filters `fs`
programmed and recorded, the request and acknowledge bits clear (R272, R278, R280). -/
def Refiltered (c : Config) (fs : List FilterReg) (hook : Bool) (x y : Inst) : Prop :=
  y = { x with
    mcr := x.mcr &&& ~~~0x59000000#32
    imask := maskAfter c hook x.imask
    ram := y.ram
    fpState := .active
    lastf := fs.map fun f => { id := f.id.setWidth 29, mask := f.mask.setWidth 29 } } ∧
  Programmed c fs y

/-- `y` is interface `x` after an FSEQ whose poll `p` timed out, "in whatever state the timeout occurred
in" (R285): before the rewrite in Freezing, or after it in Unfreezing. -/
def Aborted (c : Config) (fs : List FilterReg) (hook : Bool) (x y : Inst) (p : SilentPoll) : Prop :=
  let rewritten := fun mcr : Word =>
    y = { x with
      mcr := mcr
      imask := maskAfter c hook x.imask
      ram := y.ram
      fpState := .unfreezing
      lastf := fs.map fun f => { id := f.id.setWidth 29, mask := f.mask.setWidth 29 } } ∧
    Programmed c fs y
  match p with
  | .freeze => y = { x with mcr := x.mcr ||| 0x50000000#32, fpState := .freezing }
  | .unfreeze => rewritten ((x.mcr &&& ~~~0x50000000#32) ||| 0x09000000#32)
  | .ready => rewritten ((x.mcr &&& ~~~0x51000000#32) ||| 0x08000000#32)

/-- The moves of FG and of the collaborators START waits for: a foreground run without interrupts and
without a move of the controller. -/
def Move.foreground : Move → Bool
  | .fg | .clockBringup .. | .instBringup .. => true
  | .irqStart _ | .irq | .env _ | .host _ => false

/-- A move of the host at the port. -/
def Move.isHost : Move → Bool
  | .host _ => true
  | .fg | .irqStart _ | .irq | .clockBringup .. | .instBringup .. | .env _ => false

/-- The shape of the values R62 leaves open. -/
structure AnyValues.Wf (c : Config) (a : AnyValues) : Prop where
  txfBytes : a.txf.data.length = 64
  fltCount : a.flt.length = c.fCap
  rxfBytes : a.rxf.data.length = 64
  instCount : a.insts.length = c.nIf
  ramWf : ∀ x ∈ a.insts, x.ram.wf = true ∧ ∀ p ∈ x.ram, Stored c p.1

/-! ## The command table as R140 prints it -/

/-- The match and the mask of each row of R140. -/
def commandRows : List (Word × Word) :=
  [(0x10000000#32, 0xFFFFFFFF#32), (0x20000000#32, 0xFFFFFFFF#32), (0x30000000#32, 0xFFFF00FF#32),
    (0x40000000#32, 0xFFFFFFFF#32), (0x50000000#32, 0xFF0000FF#32), (0x60000000#32, 0xFF00FFFF#32),
    (0x70000000#32, 0xFFFFFFFE#32), (0x80000000#32, 0xFFFF00FF#32)]

/-- Word `w` is one of row `k` of R140: `c & mask = match`. -/
abbrev matchesRow (w : Word) (k : Nat) : Prop :=
  ∃ row, commandRows[k]? = some row ∧ w &&& row.2 = row.1

/-- The command of row `k` of R140 with the fields it uses, INST 23:16, COUNT 15:8, IGNW 0 (R138). -/
def commandOf (w : Word) : Nat → Option Instr
  | 0 => some .getifc
  | 1 => some .getmaxf
  | 2 => some (.start (w.extractLsb' 8 8).toNat)
  | 3 => some .stop
  | 4 => some (.write (w.extractLsb' 16 8).toNat (w.extractLsb' 8 8).toNat)
  | 5 => some (.read (w.extractLsb' 16 8).toNat)
  | 6 => some (.select (w.getLsbD 0))
  | 7 => some (.reconfig (w.extractLsb' 8 8).toNat)
  | _ => none

/-- Whether an instruction is one of the eight commands of R140. -/
def isCommand : Instr → Bool
  | .getifc | .getmaxf | .start _ | .stop | .write _ _ | .read _ | .select _ | .reconfig _ => true
  | .txcs _ | .rxcs => false

/-- `ws` with the bits beyond byte `n - 1` set to zero (R194). -/
def droppedBitsZero (ws : List Word) (n : Nat) : List Word :=
  ws.mapIdx fun w v => if 4 * w + 4 ≤ n then v else v &&& (BitVec.allOnes 32 <<< (32 - 8 * (n - 4 * w)))

end Sys2Proof.Machine
end

