-- ==== Sys2Proof/Certificates/Slice0/Obligations.lean ====
section
/-! DEFINITION. The statements about the model, each from the numbered rules of spec/. -/

section Encodings

open Sys2Proof Sys2Proof.Machine

/-- R138, R140, R143, R123, R124: no operand bit of any encoding is dropped. -/
def Obligations.DecodeOfEncode : Prop :=
  ∀ i : Instr, i.wellFormed = true → decode (encode i) = .instr i

/-- R140, R141: a word has at most one meaning, its operands are in range, and it is the encoding of that
meaning. -/
def Obligations.EncodeOfDecode : Prop :=
  ∀ (w : Word) (i : Instr), decode w = .instr i → i.wellFormed = true ∧ encode i = w

/-- Words written out from R140, R143, R123, R124 and the table of 95_test_vectors.md 2.13. -/
def Obligations.WrittenOutWordsDecode : Prop :=
  decode 0x10000000#32 = .instr .getifc ∧
  decode 0x20000000#32 = .instr .getmaxf ∧
  decode 0x30000100#32 = .instr (.start 1) ∧
  decode 0x3000FF00#32 = .instr (.start 255) ∧
  decode 0x40000000#32 = .instr .stop ∧
  decode 0x50000100#32 = .instr (.write 0 1) ∧
  decode 0x50FFFF00#32 = .instr (.write 255 255) ∧
  decode 0x60010000#32 = .instr (.read 1) ∧
  decode 0x70000001#32 = .instr (.select true) ∧
  decode 0x80000500#32 = .instr (.reconfig 5) ∧
  decode 0xCC250000#32 = .instr (.txcs 5) ∧
  decode 0xC4200000#32 = .instr .rxcs

/-- R140: a word selects the row whose `c & mask = match`, and that row's command with its fields; the
rows are disjoint. -/
def Obligations.CommandTableSelectsRow : Prop :=
  (∀ (w : Word) (k : Nat), matchesRow w k →
    ∃ i, commandOf w k = some i ∧ decode w = .instr i) ∧
  (∀ (w : Word) (i : Instr), decode w = .instr i → isCommand i = true → ∃ k, matchesRow w k) ∧
  (∀ (w : Word) (j k : Nat), matchesRow w j → matchesRow w k → j = k)

/-- R141: at IDLE, no handler running (R98, log 24), a word that matches no row of R140, control words
included, ends at once with BadArgument and changes nothing else (CMD holds it, R31). -/
def Obligations.ReservedWordEndsBadArgument : Prop :=
  ∀ (s : State) (w : Word) (rest : List Move), s.Ready →
    s.agenda = .host (.cmd w) :: rest → (∀ k, ¬ matchesRow w k) →
    step s = .next { s with agenda := rest, cmd := w, outcome := .badArgument }

/-- R31: the host's CMD write at IDLE, no handler running (R98, log 24), is decoded and executed by exec, the
word standing in CMD and the host's move taken from the agenda (the model's form of the input, log 2). -/
def Obligations.StepRunsDecodedInstruction : Prop :=
  ∀ (s : State) (w : Word) (rest : List Move) (i : Instr), s.Ready →
    s.agenda = .host (.cmd w) :: rest → decode w = .instr i →
    step s = exec i { s with agenda := rest, cmd := w }

/-- R93, R31, R37: a step that issues no command is one move of one agent, a host write while a command is
in flight is ignored, and at IDLE a SET of R143 gives its operand register the value (what SET TXF reaches
is log 22). A host write at IDLE waits while a handler runs, the handler making its next access (R98; that it
waits is log 24). What a step does with no move left is the model's choice (log 2). -/
def Obligations.StepOtherwiseMakesOneMove : Prop :=
  (∀ (s : State) (m : Move) (rest : List Move), s.agenda = m :: rest → m.isHost = false →
    step s = .next (applyMove m { s with agenda := rest })) ∧
  (∀ (s : State) (h : HostMove) (rest : List Move), s.agenda = .host h :: rest → s.phase ≠ .idle →
    step s = .next { s with agenda := rest }) ∧
  (∀ (s : State) (h : HostMove) (rest : List Move), s.agenda = .host h :: rest → s.phase = .idle →
    s.gim = true → step s = .next (applyMove .irq s)) ∧
  (∀ (s : State) (rest : List Move), s.Ready →
    (∀ id dlc bytes, s.agenda = .host (.setTxf id dlc bytes) :: rest → step s = .next { s with
      agenda := rest
      txf := { id := id, dlc := dlc, data := (bytes ++ s.txf.data.drop bytes.length).take 64 } }) ∧
    (∀ j id mask, s.agenda = .host (.setFlt j id mask) :: rest → step s = .next { s with
      agenda := rest, flt := s.flt.set j { id := id, mask := mask } }) ∧
    ∀ v, s.agenda = .host (.setTmo v) :: rest → step s = .next { s with agenda := rest, tmo := v }) ∧
  (∀ s : State, s.agenda = [] → step s = .next (applyMove (if s.gim then .irq else .fg) s))

/-- The model's own input form (log 4): the step after withFetchWord executes the word's instruction at
IDLE, no handler running, with FG's micro-steps to come. -/
def Obligations.FetchWordStepRunsInstruction : Prop :=
  ∀ (s : State) (w : Nat) (i : Instr), decode (BitVec.ofNat 32 (w % 2 ^ 32)) = .instr i →
    step (s.withFetchWord 32 w) =
      exec i { s with
        phase := .idle, gim := false, irq := none, agenda := fgs 32
        cmd := BitVec.ofNat 32 (w % 2 ^ 32) }

/-- R31, R38, R139: a command issued at IDLE stands at its first micro-step with the operands it uses
latched, and one issued at another time is ignored; none is issued while a handler runs (R98, log 24). Which position that is, is the model's choice: STOP's is
`lpr:` of interface 0, the loop label `inst[i]:` being none (log 23), GETIFC and GETMAXF have one (log 18), and
with no move to come the command is left in flight (log 3). -/
def Obligations.IssueLatchesOperands : Prop :=
  (∀ s : State, s.Ready → s.agenda = [] → 0 < s.cfg.nIf →
    exec .getifc s = .next { s with phase := .getifc } ∧
    exec .getmaxf s = .next { s with phase := .getmaxf } ∧
    (∀ n, exec (.start n) s = .next { s with phase := .start n (s.flt.take n) .chk }) ∧
    exec .stop s = .next { s with phase := .stop (.lpr 0) } ∧
    (∀ i n, ∃ f : Frame, f.id = s.txf.id.setWidth 29 ∧ f.dlc = s.txf.dlc ∧
      f.payload = s.txf.data.take (dlc2len s.txf.dlc) ∧
      exec (.write i n) s = .next { s with phase := .write i n f .chk }) ∧
    (∀ i, exec (.read i) s = .next { s with phase := .read i .chk }) ∧
    (∀ g, exec (.select g) s = .next { s with phase := .select g s.tmo .chk }) ∧
    (∀ n, exec (.reconfig n) s = .next { s with phase := .reconfig n (s.flt.take n) .chk })) ∧
  (∀ (s : State) (i : Instr), s.phase ≠ .idle ∨ s.gim = true → isCommand i = true → exec i s = .next s)

end Encodings

section Machine

open Sys2Proof Sys2Proof.Machine

/-- R62, R440: power-on reset, for every configuration and every choice of the values R62 calls any. -/
def Obligations.PowerOnValues : Prop :=
  ∀ (c : Config) (a : AnyValues),
    let s := State.powerOn c a
    s.cfg = c ∧ s.phase = .idle ∧ s.groupLive = false ∧
    s.outcome.code = 0x00#8 ∧ s.nwritten = 0 ∧ s.rcount = 0 ∧ s.handle = false ∧
    s.txf = a.txf ∧ s.flt = a.flt ∧ s.tmo = a.tmo ∧ s.rxf = a.rxf ∧
    s.gim = false ∧ s.irq = none ∧
    s.clkLo = 0xFFFFFFFF#32 ∧ s.clkHi = 0xFFFFFFFF#32 ∧ s.clkRun = false ∧
    s.ptVal = 0xFFFFFFFF#32 ∧ s.ptRun = false ∧
    s.insts.length = a.insts.length ∧
    ∀ (i : Nat) (b : AnyInst), a.insts[i]? = some b →
      (s.inst i).enabled = false ∧ (s.inst i).imask = 0 ∧ (s.inst i).iflag = 0 ∧
      (s.inst i).mcr = b.mcr ∧ (s.inst i).status = b.status ∧ (s.inst i).timer = b.timer ∧
      (∀ m, (s.inst i).rximr m = b.ram.load (0x20 + m)) ∧
      (∀ m k, (s.inst i).mb m k = b.ram.load (0x80 + 18 * m + k)) ∧
      (s.inst i).lock = none ∧ (s.inst i).fpState = .active ∧ (s.inst i).lastf = [] ∧
      (s.inst i).queue = [] ∧ (s.inst i).discard = 0

/-- The power-on state meets State.Wf, for every legal configuration (R10) and every choice of the
values left open; so does State.reset (log 1, log 5). -/
def Obligations.PowerOnIsWellFormed : Prop :=
  (∀ (c : Config) (a : AnyValues), c.Legal → a.Wf c → (State.powerOn c a).Wf) ∧ State.reset.Wf

/-- R61, R46, R56, R58, R347, R49: every step keeps State.Wf. -/
def Obligations.StepKeepsWellFormed : Prop :=
  ∀ s t : State, s.Wf → step s = .next t → t.Wf

/-- R390, R403: no step and no instruction ends in a fault or a refusal; the outcome is the only error
report. -/
def Obligations.EveryStepAnswersNext : Prop :=
  (∀ s : State, ∃ t, step s = .next t) ∧ (∀ (i : Instr) (s : State), ∃ t, exec i s = .next t)

/-- R84: what RegRead returns, by the word numbers of R40, and the lock release of a TIMER read, its only
side effect. -/
def Obligations.RegisterReadsAndLockRelease : Prop :=
  ∀ (s : State) (i : Nat), s.cfg.Legal → s.insts.length = s.cfg.nIf → i < s.cfg.nIf →
    busRead s i 0x00 = .next ((s.inst i).mcr, s) ∧
    busRead s i 0x01 = .next ((s.inst i).status, s) ∧
    busRead s i 0x02 = .next ((s.inst i).iflag, s) ∧
    busRead s i 0x03 = .next ((s.inst i).imask, s) ∧
    (∀ m, m < s.cfg.nMb → busRead s i (0x20 + m) = .next ((s.inst i).ram.load (0x20 + m), s)) ∧
    ∃ t, busRead s i 0x04 = .next ((0#16 ++ (s.inst i).timer : BitVec 32), t) ∧
      t = { s with insts := t.insts } ∧ (t.inst i) = { s.inst i with lock := none } ∧
      ∀ j, j ≠ i → t.inst j = s.inst j

/-- R42, and the effects R85 gives: what a write of each register of R40 does, and the refusal of a write to
STATUS or TIMER. -/
def Obligations.RegisterWritesAndRefusals : Prop :=
  ∀ (s : State) (i : Nat) (v : Word), s.cfg.Legal → s.insts.length = s.cfg.nIf → i < s.cfg.nIf →
    (∃ v', busWrite s i 0x00 v = .next { s with insts := s.insts.modify i fun x => { x with mcr := v' } } ∧
      ∀ b, b < 32 → v'.getLsbD b =
        if b = 27 ∨ b = 24 ∨ b = 20 then (s.inst i).mcr.getLsbD b else v.getLsbD b) ∧
    (∃ v', busWrite s i 0x02 v = .next { s with insts := s.insts.modify i fun x => { x with iflag := v' } } ∧
      ∀ b, b < 32 → v'.getLsbD b = ((s.inst i).iflag.getLsbD b && !v.getLsbD b)) ∧
    (∃ v', busWrite s i 0x03 v = .next { s with insts := s.insts.modify i fun x => { x with imask := v' } } ∧
      ∀ b, b < 32 → v'.getLsbD b = (decide (b < s.cfg.nMb) && v.getLsbD b)) ∧
    (∀ m, m < s.cfg.nMb → busWrite s i (0x20 + m) v =
      .next { s with insts := s.insts.modify i fun x => { x with ram := x.ram.store (0x20 + m) v } }) ∧
    busWrite s i 0x01 v = .refused .readOnlyWord ∧
    busWrite s i 0x04 v = .refused .readOnlyWord

/-- R81, R86, R87: mailbox word `k` of mailbox `m` stands at word number 0x80 + 18m + k; reading word 0
of a mailbox from 2 on locks it, no other access to a mailbox has a lock effect. That it does so while another
mailbox is locked, a read U20 asks a model to refuse and no rule generates, is the model's reading of R86
(log 21). -/
def Obligations.MailboxWordAccess : Prop :=
  ∀ (s : State) (i m k : Nat) (v : Word), s.cfg.Legal → s.insts.length = s.cfg.nIf → i < s.cfg.nIf →
    m < s.cfg.nMb → k < 18 →
    busRead s i (0x80 + 18 * m + k) =
      .next ((s.inst i).ram.load (0x80 + 18 * m + k),
        if k = 0 ∧ 2 ≤ m then { s with insts := s.insts.modify i fun x => { x with lock := some m } }
        else s) ∧
    busWrite s i (0x80 + 18 * m + k) v =
      .next { s with insts := s.insts.modify i fun x =>
        { x with ram := x.ram.store (0x80 + 18 * m + k) v } }

/-- R90, R40: a word number outside the ranges, or an interface that does not exist, is refused. -/
def Obligations.OutsideTheMapRefused : Prop :=
  ∀ (s : State) (i n : Nat) (v : Word),
    (s.cfg.nIf ≤ i ∨ (4 < n ∧ ¬ (0x20 ≤ n ∧ n < 0x20 + s.cfg.nMb) ∧
      ¬ (0x80 ≤ n ∧ n < 0x80 + 18 * s.cfg.nMb))) →
    busRead s i n = .refused .noSuchWord ∧ busWrite s i n v = .refused .noSuchWord

/-- R87, R85: a stored mailbox word or mask reads back, every other one is left alone, and the memory
keeps its canonical form. -/
def Obligations.MailboxStoreThenLoad : Prop :=
  ∀ (c : Config) (x : Inst) (m k : Nat) (v : Word), c.Legal → x.ram.wf = true → m < c.nMb → k < 18 →
    (x.setMb m k v).mb m k = v ∧ (x.setMb m k v).ram.wf = true ∧
    (∀ m' k', k' < 18 → (m' ≠ m ∨ k' ≠ k) → (x.setMb m k v).mb m' k' = x.mb m' k') ∧
    (∀ m', m' < c.nMb → (x.setMb m k v).rximr m' = x.rximr m') ∧
    (x.setRximr m v).rximr m = v ∧ (x.setRximr m v).ram.wf = true ∧
    (∀ m', m' ≠ m → (x.setRximr m v).rximr m' = x.rximr m') ∧
    (∀ m' k', k' < 18 → (x.setRximr m v).mb m' k' = x.mb m' k')

end Machine

section Values

open Sys2Proof Sys2Proof.Machine

/-- R194: UNPACK undoes PACK, and PACK undoes UNPACK up to the dropped bits of the last word. -/
def Obligations.PackUnpackLaw : Prop :=
  (∀ p : List Byte, p.length ≤ 64 → unpack (pack p) p.length = p) ∧
  (∀ (n : Nat) (ws : List Word), n ≤ 64 → ws.length = nwords n →
    pack (unpack ws n) = droppedBitsZero ws n)

/-- R131, R132, R133: the length table, its inverse, rounding up on the other lengths, no code above 64,
and the number of words. -/
def Obligations.LengthCodesRoundTrip : Prop :=
  (List.range 16).map (fun d => dlc2len (BitVec.ofNat 4 d)) =
    [0, 1, 2, 3, 4, 5, 6, 7, 8, 12, 16, 20, 24, 32, 48, 64] ∧
  (∀ d : BitVec 4, len2dlc (dlc2len d) = some d) ∧
  (∀ n, n ≤ 64 → ∃ d, len2dlc n = some d ∧ n ≤ dlc2len d ∧
    ∀ e : BitVec 4, n ≤ dlc2len e → d.toNat ≤ e.toNat) ∧
  (∀ n, 64 < n → len2dlc n = none) ∧
  (∀ n, 4 * nwords n < n + 4 ∧ n ≤ 4 * nwords n)

/-- R206: what ENCODE's micro-steps leave in a mailbox, read back by DECODE's extraction, is the frame,
with a zero timestamp field. -/
def Obligations.EncodeThenDecodeRoundTrip : Prop :=
  ∀ (s : State) (inst count m : Nat) (f : Frame),
    s.phase = .write inst count f (.idw m) → s.gim = false → inst < s.insts.length →
    (s.inst inst).ram.wf = true → f.Wf →
    let x := (drive (fgs (2 + nwords (dlc2len f.dlc))) s).inst inst
    captureOf (x.mb m 0) (idOf (x.mb m 1)) (x.dataWords m (nwords (dlc2len (csDlc (x.mb m 0))))) =
      { id := f.id, dlc := f.dlc, payload := f.payload, ts16 := 0 }

/-- R224: the tick difference in both modes, a natural in 0 .. 65535; and with it R223, R225: the timestamp
is the clock back-dated by it, modulo 2^64, divided by the tick rate. -/
def Obligations.ReconcileArithmetic : Prop :=
  ∀ (c : Config) (clk : BitVec 64) (cur ts16 : BitVec 16),
    ∃ d : Nat, d ≤ 65535 ∧
      (c.deltaMode = .abs → (d : Int) = |(cur.toNat : Int) - ts16.toNat|) ∧
      (c.deltaMode = .modular → (d : Int) = ((cur.toNat : Int) - ts16.toNat) % 65536) ∧
      (reconcile c clk cur ts16).toNat = (clk.toNat + 2 ^ 64 - d) % 2 ^ 64 / c.ticksPerUs

/-- R228: with a zero difference the timestamp is `T div TICKS_PER_US` exactly. -/
def Obligations.ReconcileWithZeroDelta : Prop :=
  ∀ (c : Config) (clk : BitVec 64) (cur : BitVec 16),
    (reconcile c clk cur cur).toNat = clk.toNat / c.ticksPerUs

end Values

section Environment

open Sys2Proof Sys2Proof.Machine

/-- R363, R222, R364: while the chain runs, CLK64 gains exactly one per tick and every enabled
interface's TIMER that is not in freeze mode gains one with it; a frozen one may (R363). The poll timer
counts down to zero and stays there, and no move of any agent stops it (R408). -/
def Obligations.TimersTick : Prop :=
  (∀ (s : State) (frozen : List Nat), s.clkRun = true → s.insts.length = s.cfg.nIf →
    let t := envMove s (.clkTick frozen)
    clk64 t = clk64 s + 1 ∧ t = { s with clkLo := t.clkLo, clkHi := t.clkHi, insts := t.insts } ∧
    t.insts.length = s.insts.length ∧
    ∀ i, i < s.cfg.nIf → t.inst i =
      if (s.inst i).enabled = true ∧ ((s.inst i).mcr.getLsbD 24 = false ∨ i ∈ frozen) then
        { s.inst i with timer := (s.inst i).timer + 1 }
      else s.inst i) ∧
  (∀ (s : State) (frozen : List Nat), s.clkRun = false → envMove s (.clkTick frozen) = s) ∧
  (∀ s : State, s.ptRun = true → s.ptVal ≠ 0 → envMove s .ptTick = { s with ptVal := s.ptVal - 1 }) ∧
  (∀ s : State, s.ptRun = false ∨ s.ptVal = 0 → envMove s .ptTick = s) ∧
  (∀ (s : State) (m : Move), s.ptRun = true → (applyMove m s).ptRun = true)

/-- R361, R362: what a move of ENV may change, and the only things (the wire log is the model's, R368). -/
def Obligations.EnvironmentChangesOnlyItsFields : Prop :=
  ∀ (s : State) (e : EnvMove), s.Wf →
    let t := envMove s e
    t = { s with clkLo := t.clkLo, clkHi := t.clkHi, ptVal := t.ptVal, insts := t.insts } ∧
    (s.clkRun = false → t.clkLo = s.clkLo ∧ t.clkHi = s.clkHi) ∧
    (s.ptRun = false → t.ptVal = s.ptVal) ∧
    ∀ i,
      t.inst i = { s.inst i with
        mcr := (t.inst i).mcr, status := (t.inst i).status, iflag := (t.inst i).iflag,
        timer := (t.inst i).timer, ram := (t.inst i).ram, wire := (t.inst i).wire } ∧
      ((s.inst i).enabled = false → t.inst i = s.inst i) ∧
      (∀ b, b < 32 → b ≠ 27 → b ≠ 24 → b ≠ 20 → (t.inst i).mcr.getLsbD b = (s.inst i).mcr.getLsbD b) ∧
      (∀ b, (s.inst i).iflag.getLsbD b = true → (t.inst i).iflag.getLsbD b = true) ∧
      (∀ m, m < s.cfg.nMb → (t.inst i).rximr m = (s.inst i).rximr m) ∧
      ∀ m, (s.inst i).lock = some m → ∀ k, k < 18 → (t.inst i).mb m k = (s.inst i).mb m k

/-- R365: when ENV_RX may happen, and the mailbox words and the flag it leaves. That the reserved bits of the
control word are those the move carries is the model's form of U13's any value (log 26). -/
def Obligations.ReceptionMoveEffect : Prop :=
  ∀ (s : State) (i m : Nat) (id : BitVec 29) (d : BitVec 4) (payload : List Byte)
    (brs esi srr overrun : Bool) (other : Word), s.Wf → i < s.cfg.nIf →
    let x := s.inst i
    let cs := x.mb m 0
    let code := (cs.extractLsb' 24 4).toNat
    let t := envMove s (.rx i m id d payload brs esi srr overrun other)
    let can := x.enabled = true ∧ x.mcr.getLsbD 24 = false ∧ x.mcr.getLsbD 27 = false ∧
      x.mcr.getLsbD 20 = false ∧ 2 ≤ m ∧ m < s.cfg.nMb ∧ cs.getLsbD 31 = true ∧ cs.getLsbD 21 = true ∧
      (code = 0x4 ∨ code = 0x2 ∨ code = 0x6) ∧ x.lock ≠ some m ∧
      (∀ b, b < 29 → (x.rximr m).getLsbD b = true → id.getLsbD b = (x.mb m 1).getLsbD b) ∧
      payload.length = dlc2len d
    (¬ can → t = s) ∧
    (can → ∃ ram, t = { s with insts := s.insts.modify i fun y =>
          { y with ram := ram, iflag := y.iflag ||| (1#32 <<< m) } } ∧
      ram.load (mbNo m 1) = id.setWidth 32 ∧
      (∀ w, w < nwords payload.length → ram.load (mbNo m (2 + w)) = packWord payload w) ∧
      (∃ cs', ram.load (mbNo m 0) = cs' ∧ cs'.getLsbD 31 = true ∧ cs'.getLsbD 30 = brs ∧
        cs'.getLsbD 29 = esi ∧ cs'.getLsbD 22 = srr ∧ cs'.getLsbD 21 = true ∧ cs'.getLsbD 20 = false ∧
        cs'.getLsbD 28 = other.getLsbD 28 ∧ cs'.getLsbD 23 = other.getLsbD 23 ∧
        csDlc cs' = d ∧ csTimestamp cs' = x.timer ∧
        (cs'.extractLsb' 24 4).toNat = if code = 0x4 ∨ overrun = false then 0x2 else 0x6) ∧
      ∀ a, (∀ k, k < 2 + nwords payload.length → a ≠ mbNo m k) → ram.load a = x.ram.load a)

/-- R368, R372: when ENV_TX may happen, the frame it appends to the wire log, and what it leaves in the
mailbox (that a low-power acknowledge stops it is R372, that NOTRDY does not is log 13). -/
def Obligations.TransmissionMoveEffect : Prop :=
  ∀ (s : State) (i m : Nat), s.Wf → i < s.cfg.nIf →
    let x := s.inst i
    let cs := x.mb m 0
    let n := dlc2len (csDlc cs)
    let t := envMove s (.tx i m)
    let can := x.enabled = true ∧ x.mcr.getLsbD 24 = false ∧ x.mcr.getLsbD 20 = false ∧ m ≤ 1 ∧
      cs.extractLsb' 24 4 = 0xC#4
    (¬ can → t = s) ∧
    (can → ∃ cs', t = { s with insts := s.insts.modify i fun y =>
          { y with
            ram := y.ram.store (mbNo m 0) cs'
            iflag := y.iflag ||| (1#32 <<< m)
            wire := y.wire ++ [{
              id := (x.mb m 1).setWidth 29
              dlc := csDlc cs
              payload := unpack ((List.range (nwords n)).map fun w => x.mb m (2 + w)) n }] } } ∧
      cs'.extractLsb' 24 4 = 0x8#4 ∧ csTimestamp cs' = x.timer ∧
      ∀ b, 16 ≤ b → b < 32 → (b < 24 ∨ 27 < b) → cs'.getLsbD b = cs.getLsbD b)

/-- R371, R372: the acknowledges of a well-behaved controller, and that each has no effect where its condition
does not hold (log 2). -/
def Obligations.FreezeAndLowPowerAcknowledges : Prop :=
  ∀ (s : State) (i : Nat), i < s.insts.length →
    let x := s.inst i
    let set := fun (mask : Word) => { s with insts := s.insts.modify i fun y => { y with mcr := y.mcr ||| mask } }
    let clear := fun (mask : Word) =>
      { s with insts := s.insts.modify i fun y => { y with mcr := y.mcr &&& ~~~mask } }
    let frozen := x.mcr.getLsbD 28 = true ∧ x.mcr.getLsbD 30 = true
    (x.enabled = true → frozen → envMove s (.freezeAck i) = set 0x09000000#32) ∧
    (x.enabled = true → ¬ frozen → envMove s (.freezeLeave i false) = clear 0x01000000#32) ∧
    (x.enabled = true → ¬ frozen → envMove s (.freezeLeave i true) = clear 0x09000000#32) ∧
    (x.enabled = true → ¬ frozen → x.mcr.getLsbD 24 = false →
      envMove s (.ready i) = clear 0x08000000#32) ∧
    (x.enabled = true → x.mcr.getLsbD 31 = true → envMove s (.lpAck i) = set 0x08100000#32) ∧
    (x.enabled = false ∨ ¬ frozen → envMove s (.freezeAck i) = s) ∧
    (x.enabled = false ∨ frozen → ∀ r, envMove s (.freezeLeave i r) = s) ∧
    (x.enabled = false ∨ frozen ∨ x.mcr.getLsbD 24 = true → envMove s (.ready i) = s) ∧
    (x.enabled = false ∨ x.mcr.getLsbD 31 = false → envMove s (.lpAck i) = s)

end Environment

section Interrupts

open Sys2Proof Sys2Proof.Machine

/-- R397, R398, R400, R403, R94, R98: when a handler starts, what entry and exit do and that they do nothing
else, that nothing of FG and no further handler moves while one runs, and that no step changes FG's state
then: the command port, FG_PHASE, GROUP_LIVE, the enables of the timers, and what FG alone writes of an
interface. -/
def Obligations.HandlerEntryAndExit : Prop :=
  (∀ (s : State) (i : Nat), i < s.cfg.nIf → s.gim = false → (s.inst i).enabled = true →
    (s.inst i).iflag &&& (s.inst i).imask ≠ 0 →
    applyMove (.irqStart i) s = { s with gim := true, irq := some ⟨i, .flg⟩ }) ∧
  (∀ (s : State) (i : Nat), s.gim = true ∨ (s.inst i).enabled = false ∨
    (s.inst i).iflag &&& (s.inst i).imask = 0 → applyMove (.irqStart i) s = s) ∧
  (∀ (s : State) (i : Nat), s.irq = some ⟨i, .exit⟩ →
    applyMove .irq s = { s with gim := false, irq := none }) ∧
  (∀ s : State, s.gim = true → applyMove .fg s = s ∧
    (∀ ok pt, applyMove (.clockBringup ok pt) s = s) ∧
    ∀ r pt, applyMove (.instBringup r pt) s = s) ∧
  (∀ s t : State, s.gim = true → step s = .next t →
    t = { s with
      agenda := t.agenda, gim := t.gim, irq := t.irq, clkLo := t.clkLo, clkHi := t.clkHi, ptVal := t.ptVal
      insts := t.insts } ∧
    ∀ j, (t.inst j).enabled = (s.inst j).enabled ∧ (t.inst j).imask = (s.inst j).imask ∧
      (t.inst j).fpState = (s.inst j).fpState ∧ (t.inst j).lastf = (s.inst j).lastf)

/-- R49: GIM is 1 while a handler runs and 0 otherwise, and changes only at a handler's entry (R398) and
exit (R400); FG never sets it. -/
def Obligations.InterruptMaskChangesOnlyAtEntryAndExit : Prop :=
  ∀ (s : State) (m : Move),
    (s.gim = s.irq.isSome → (applyMove m s).gim = (applyMove m s).irq.isSome) ∧
    ((applyMove m s).gim ≠ s.gim →
      (∃ i, m = .irqStart i ∧ s.gim = false ∧ (s.inst i).pend = true) ∨
      (∃ i, m = .irq ∧ s.gim = true ∧ s.irq = some ⟨i, .exit⟩))

/-- R244, R200, R221, R223, R248, R251: a whole handler run on a queue below capacity serves the
lowest-numbered valid flag, pushes the decoded and timestamped frame, unlocks the mailbox and clears
that flag, and changes nothing else (no move of ENV falls into the run). -/
def Obligations.HandlerPushesDecodedFrame : Prop :=
  ∀ (s : State) (i m : Nat), s.Wf → s.gim = false → i < s.cfg.nIf → (s.inst i).pend = true →
    2 ≤ m → m < 2 + s.cfg.fCap → (s.inst i).iflag.getLsbD m = true →
    (∀ j, 2 ≤ j → j < m → (s.inst i).iflag.getLsbD j = false) →
    (s.inst i).queue.length < s.cfg.qCap →
    let x := s.inst i
    let cs := x.mb m 0
    let n := dlc2len (csDlc cs)
    applyMoves (.irqStart i :: irqs (9 + nwords n)) s =
      { s with insts := s.insts.modify i fun y =>
        { y with
          iflag := y.iflag &&& ~~~(1#32 <<< m)
          lock := none
          queue := y.queue ++ [{
            id := (x.mb m 1).setWidth 29
            dlc := csDlc cs
            payload := unpack ((List.range (nwords n)).map fun w => x.mb m (2 + w)) n
            ts := reconcile s.cfg (~~~s.clkHi ++ ~~~s.clkLo) x.timer (csTimestamp cs) }] } }

/-- R250, R246, R252: on a full queue the handler reads no mailbox, leaves the queue and the lock alone,
counts the frame once, saturating, and clears the flag; with no valid flag set it changes nothing. -/
def Obligations.HandlerPushesNothing : Prop :=
  ∀ (s : State) (i : Nat), s.Wf → s.gim = false → i < s.cfg.nIf → (s.inst i).pend = true →
    (∀ m, 2 ≤ m → m < 2 + s.cfg.fCap → (s.inst i).iflag.getLsbD m = true →
      (∀ j, 2 ≤ j → j < m → (s.inst i).iflag.getLsbD j = false) →
      (s.inst i).queue.length = s.cfg.qCap →
      applyMoves (.irqStart i :: irqs 4) s =
        { s with insts := s.insts.modify i fun y =>
          { y with
            iflag := y.iflag &&& ~~~(1#32 <<< m)
            discard := if y.discard = 0xFFFFFFFF#32 then 0xFFFFFFFF#32 else y.discard + 1 } }) ∧
    ((∀ m, 2 ≤ m → m < 2 + s.cfg.fCap → (s.inst i).iflag.getLsbD m = false) →
      applyMoves (.irqStart i :: irqs 2) s = s)

/-- R407, R82: an access of the handler of an interface changes nothing but that interface's lock, queue,
discard counter and flags, and the handler's own position with GIM. -/
def Obligations.HandlerTouchesOnlyItsOwn : Prop :=
  ∀ s : State,
    let t := applyMove .irq s
    t = { s with gim := t.gim, irq := t.irq, insts := t.insts } ∧
    (∀ j, t.inst j = { s.inst j with
      lock := (t.inst j).lock, queue := (t.inst j).queue, discard := (t.inst j).discard,
      iflag := (t.inst j).iflag }) ∧
    (∀ j, (∀ r, s.irq = some r → r.inst ≠ j) → t.inst j = s.inst j)

/-- R54, R241, R242, R341: a queue grows only by a handler's push at the tail, shrinks only by READ's pop
at the head, and is emptied only by START. -/
def Obligations.QueueChangesOnlyByItsOwners : Prop :=
  ∀ (s : State) (m : Move) (i : Nat),
    let q := (s.inst i).queue
    let q' := ((applyMove m s).inst i).queue
    q' = q ∨
    (∃ mb f, m = .irq ∧ s.irq = some ⟨i, .psh mb f⟩ ∧ q' = q ++ [f]) ∨
    (m = .fg ∧ s.gim = false ∧ s.phase = .read i .pop ∧ q' = q.tail) ∨
    (∃ n fs, m = .fg ∧ s.gim = false ∧ s.phase = .start n fs .rst ∧ q' = [])

/-- R246, R253, R244, R341: the discard counter changes only at the handler's `cnt:`, where it gains exactly one
unless it is saturated, and at START's `rst:`, where it becomes zero. -/
def Obligations.DiscardCountsDropsOnly : Prop :=
  ∀ (s : State) (m : Move) (i : Nat),
    let d := (s.inst i).discard
    let d' := ((applyMove m s).inst i).discard
    (d' = d ∨
      (∃ mb, m = .irq ∧ s.irq = some ⟨i, .cnt mb⟩) ∨
      (∃ n fs, m = .fg ∧ s.gim = false ∧ s.phase = .start n fs .rst)) ∧
    (∀ mb, m = .irq → s.irq = some ⟨i, .cnt mb⟩ → i < s.insts.length →
      d'.toNat = if d.toNat < 2 ^ 32 - 1 then d.toNat + 1 else d.toNat) ∧
    (∀ n fs, m = .fg → s.gim = false → s.phase = .start n fs .rst → i < s.insts.length → d' = 0)

/-- R58, R84, R86: the lock is set only by a handler's control-word read and released only by its TIMER
read. -/
def Obligations.LockSetAndReleasedByHandler : Prop :=
  ∀ (s : State) (m : Move) (i : Nat),
    let l := (s.inst i).lock
    let l' := ((applyMove m s).inst i).lock
    l' = l ∨
    (∃ mb, m = .irq ∧ s.irq = some ⟨i, .csr mb⟩ ∧ 2 ≤ mb ∧ l' = some mb) ∨
    (∃ mb c clk, m = .irq ∧ s.irq = some ⟨i, .tmr mb c clk⟩ ∧ l' = none) ∨
    (∃ mb, m = .irq ∧ s.irq = some ⟨i, .unl mb⟩ ∧ l' = none)

/-- R97, R37, R31: no host write while a command is in flight changes what the command does. -/
def Obligations.HostWritesInFlightIgnored : Prop :=
  ∀ (s t : State) (i : Instr) (ms : List Move), isCommand i = true →
    exec i { s with agenda := ms } = .next t →
    ∃ t', exec i { s with agenda := ms.filter fun m => !m.isHost } = .next t' ∧
      { t with agenda := [] } = { t' with agenda := [] }

end Interrupts

/-! The statements below run a command over the agenda, the model's form of the inputs (log 2, log 3), whose
schedules count FG's micro-steps (log 15, log 18, log 23). -/

section Commands

open Sys2Proof Sys2Proof.Machine

/-- R330: GETIFC answers N_IF with Success, whether or not a group is live, and touches nothing else; that it
takes one micro-step is log 18. -/
def Obligations.GetifcReportsInterfaces : Prop :=
  ∀ (s : State) (rest : List Move), s.cfg.Legal → s.Ready → s.agenda = .fg :: rest →
    ∃ n : BitVec 8, n.toNat = s.cfg.nIf ∧
      exec .getifc s = .next { s with agenda := rest, outcome := .success, rcount := n } ∧
      OutcomeCode.success.code = 0x01#8 ∧ encode .getifc = 0x10000000#32

/-- R331: GETMAXF answers F_CAP with Success, whether or not a group is live, and touches nothing else; that it
takes one micro-step is log 18. -/
def Obligations.GetmaxfReportsFilterCapacity : Prop :=
  ∀ (s : State) (rest : List Move), s.cfg.Legal → s.Ready → s.agenda = .fg :: rest →
    ∃ n : BitVec 8, n.toNat = s.cfg.fCap ∧
      exec .getmaxf s = .next { s with agenda := rest, outcome := .success, rcount := n } ∧
      OutcomeCode.success.code = 0x01#8 ∧ encode .getmaxf = 0x20000000#32

/-- R300: GROUP_LIVE is set only by a successful START and cleared only by a successful STOP; without a live
group WRITE, READ, SELECT and RECONFIG fail at their first micro-step, whatever their operands, and touch
nothing else (WRITE reports no frame written, R302). -/
def Obligations.GroupCommandsNeedLiveGroup : Prop :=
  (∀ (s : State) (m : Move),
    let t := applyMove m s
    t.groupLive ≠ s.groupLive → m = .fg ∧ s.gim = false ∧ t.phase = .idle ∧ t.outcome = .success ∧
      ((∃ n fs, s.phase = .start n fs .live ∧ t.groupLive = true) ∨
        (s.phase = .stop .dead ∧ t.groupLive = false))) ∧
  ∀ (s : State) (rest : List Move), s.Ready → s.groupLive = false → s.agenda = .fg :: rest →
    (∀ i n, exec (.write i n) s = .next { s with agenda := rest, outcome := .failure, nwritten := 0 }) ∧
    (∀ i, exec (.read i) s = .next { s with agenda := rest, outcome := .failure }) ∧
    (∀ g, exec (.select g) s = .next { s with agenda := rest, outcome := .failure }) ∧
    (∀ n, exec (.reconfig n) s = .next { s with agenda := rest, outcome := .failure }) ∧
    OutcomeCode.failure.code = 0xFF#8

/-- R391, R399, R301, R291: an index or a count out of bounds is BadArgument and touches nothing else;
START checks its count whether or not a group is live. -/
def Obligations.OutOfBoundsIsBadArgument : Prop :=
  ∀ (s : State) (rest : List Move), s.Ready → s.agenda = .fg :: rest →
    (∀ i n, s.groupLive = true → s.cfg.nIf ≤ i ∨ n = 0 ∨ s.cfg.txnMax < n →
      exec (.write i n) s = .next { s with agenda := rest, outcome := .badArgument, nwritten := 0 }) ∧
    (∀ i, s.groupLive = true → s.cfg.nIf ≤ i →
      exec (.read i) s = .next { s with agenda := rest, outcome := .badArgument }) ∧
    (∀ n, s.groupLive = true → s.cfg.fCap < n →
      exec (.reconfig n) s = .next { s with agenda := rest, outcome := .badArgument }) ∧
    (∀ n, s.cfg.fCap < n →
      exec (.start n) s = .next { s with agenda := rest, outcome := .badArgument }) ∧
    OutcomeCode.badArgument.code = 0xFD#8

/-- R347: START on a live group fails, touches no hardware and leaves the group and HANDLE; an oversized
count is BadArgument first; and at every return of any command HANDLE = GROUP_LIVE. -/
def Obligations.StartWhileLiveFails : Prop :=
  (∀ (s : State) (rest : List Move) (n : Nat), s.Ready → s.agenda = .fg :: rest → s.groupLive = true →
    exec (.start n) s = .next { s with
      agenda := rest, outcome := if s.cfg.fCap < n then .badArgument else .failure }) ∧
  (∀ (s t : State) (i : Instr), s.Wf → i.wellFormed = true → exec i s = .next t →
    t.handle = t.groupLive)

/-- R312, R313: READ takes the head of the queue into RXF, answers SuccessNothing on an empty one, and
checks the group and the interface first; nothing else changes. -/
def Obligations.ReadOutcomes : Prop :=
  ∀ (s : State) (i : Nat) (rest : List Move), s.Wf → s.Ready → s.agenda = fgs 2 ++ rest →
    (∀ f q, s.groupLive = true → i < s.cfg.nIf → (s.inst i).queue = f :: q →
      exec (.read i) s = .next { s with
        agenda := rest
        outcome := .success
        rxf := {
          id := f.id.setWidth 32
          dlc := f.dlc
          len := BitVec.ofNat 7 (dlc2len f.dlc)
          data := f.payload ++ List.replicate (64 - dlc2len f.dlc) 0
          ts := f.ts }
        insts := s.insts.modify i fun x => { x with queue := q } }) ∧
    (s.groupLive = true → i < s.cfg.nIf → (s.inst i).queue = [] →
      exec (.read i) s = .next { s with agenda := rest, outcome := .successNothing }) ∧
    (s.groupLive = true → s.cfg.nIf ≤ i →
      exec (.read i) s = .next { s with agenda := .fg :: rest, outcome := .badArgument }) ∧
    (s.groupLive = false →
      exec (.read i) s = .next { s with agenda := .fg :: rest, outcome := .failure })

/-- R302, R195, R196, R305, R368: WRITE on a ready interface whose controller sends the frame after the
last data word and before the first sample: the words stored, the frame sent, the flag cleared, Success
with one frame written, and every other word and every other piece of state unchanged. -/
def Obligations.WriteSendsFrame : Prop :=
  ∀ (s : State) (inst count : Nat) (rest : List Move), s.Wf → s.Ready → s.groupLive = true →
    inst < s.cfg.nIf → 1 ≤ count → count ≤ s.cfg.txnMax →
    (s.inst inst).mayTransmit = true → txReady (s.inst inst).status = true →
    let x := s.inst inst
    let m := lptm x.status
    let d := s.txf.dlc
    let p := s.txf.data.take (dlc2len d)
    s.agenda = writeMoves (txFrame s.txf) ++ .env (.tx inst m) :: (fgs 2 ++ rest) →
    ∃ ram, exec (.write inst count) s = .next { s with
        agenda := rest, outcome := .success, nwritten := 1, ptVal := 0xFFFFFFFF#32, ptRun := true
        insts := s.insts.modify inst fun y =>
          { y with
            ram := ram
            iflag := y.iflag &&& ~~~(1#32 <<< m)
            wire := y.wire ++ [{ id := s.txf.id.setWidth 29, dlc := d, payload := p }] } } ∧
      ram.load (mbNo m 1) = (s.txf.id &&& 0x1FFFFFFF#32) ∧
      ram.load (mbNo m 0) = 0xC8200000#32 ||| (d.setWidth 32 <<< 16) ||| x.timer.setWidth 32 ∧
      (∀ w, w < nwords (dlc2len d) → ram.load (mbNo m (2 + w)) = packWord p w) ∧
      ∀ a, (∀ k, k < 2 + nwords (dlc2len d) → a ≠ mbNo m k) → ram.load a = x.ram.load a

/-- R303, R44: TX_READY and the mailbox number come from one STATUS value, whose read has no side effect;
when it is not ready WRITE ends with BufferFull, no frame written and nothing else changed. That `idw:` is the
position after `rdy:`, the call label `enc:` being none, is the model's choice (log 23). -/
def Obligations.WriteWithoutFreeMailbox : Prop :=
  (∀ v : Word, txReady v = (v.getLsbD 13 && v.getLsbD 14 && decide ((v.extractLsb' 16 7).toNat ≤ 1))) ∧
  (∀ (s : State) (inst count : Nat) (f : Frame), s.gim = false → s.phase = .write inst count f .rdy →
    txReady (s.inst inst).status = true →
    applyMove .fg s = { s with
      phase := .write inst count f (.idw ((s.inst inst).status.extractLsb' 16 7).toNat) }) ∧
  ∀ (s : State) (inst count : Nat) (rest : List Move), s.Ready → s.groupLive = true →
    inst < s.cfg.nIf → 1 ≤ count → count ≤ s.cfg.txnMax → s.agenda = fgs 2 ++ rest →
    txReady (s.inst inst).status = false →
    exec (.write inst count) s = .next { s with agenda := rest, outcome := .bufferFull, nwritten := 0 } ∧
    OutcomeCode.bufferFull.code = 0xFE#8

/-- R302, R305, R173, R177: when the completion flag does not come, WRITE fails once more than
POLL_DEFAULT_TICKS poll-timer ticks have passed and not before; the mailbox keeps its transmit request
and the flags are untouched. -/
def Obligations.WriteTimesOut : Prop :=
  ∀ (s : State) (inst count : Nat) (rest : List Move), s.Wf → s.Ready → s.groupLive = true →
    inst < s.cfg.nIf → 1 ≤ count → count ≤ s.cfg.txnMax → txReady (s.inst inst).status = true →
    let x := s.inst inst
    let m := lptm x.status
    let d := s.txf.dlc
    let p := s.txf.data.take (dlc2len d)
    let T := s.cfg.pollDefaultTicks
    x.iflag.getLsbD m = false →
    (s.agenda = writeMoves (txFrame s.txf) ++ fgs 1 ++ ptTicks (T + 1) ++ fgs 1 ++ rest →
      ∃ ram, exec (.write inst count) s = .next { s with
          agenda := rest, outcome := .failure, nwritten := 0
          ptVal := BitVec.ofNat 32 (0xFFFFFFFF - (T + 1)), ptRun := true
          insts := s.insts.modify inst fun y => { y with ram := ram } } ∧
        ram.load (mbNo m 1) = (s.txf.id &&& 0x1FFFFFFF#32) ∧
        ram.load (mbNo m 0) = 0xCC200000#32 ||| (d.setWidth 32 <<< 16) ∧
        (∀ w, w < nwords (dlc2len d) → ram.load (mbNo m (2 + w)) = packWord p w) ∧
        ∀ a, (∀ k, k < 2 + nwords (dlc2len d) → a ≠ mbNo m k) → ram.load a = x.ram.load a) ∧
    (s.agenda = writeMoves (txFrame s.txf) ++ fgs 1 ++ ptTicks T ++ fgs 1 →
      ∃ t, exec (.write inst count) s = .next t ∧
        t.phase = .write inst count (txFrame s.txf) (.cmp m .sample) ∧
        t.ptVal = BitVec.ofNat 32 (0xFFFFFFFF - T))

/-- R306, R452: a completion flag left set makes WRITE succeed at the first sample although nothing was
sent; the flag is cleared, the frame's words and the transmit request stand in the mailbox. -/
def Obligations.WriteSucceedsOnStaleFlag : Prop :=
  ∀ (s : State) (inst count : Nat) (rest : List Move), s.Wf → s.Ready → s.groupLive = true →
    inst < s.cfg.nIf → 1 ≤ count → count ≤ s.cfg.txnMax → txReady (s.inst inst).status = true →
    let x := s.inst inst
    let m := lptm x.status
    let d := s.txf.dlc
    let p := s.txf.data.take (dlc2len d)
    x.iflag.getLsbD m = true →
    s.agenda = writeMoves (txFrame s.txf) ++ fgs 2 ++ rest →
    ∃ ram, exec (.write inst count) s = .next { s with
        agenda := rest, outcome := .success, nwritten := 1, ptVal := 0xFFFFFFFF#32, ptRun := true
        insts := s.insts.modify inst fun y =>
          { y with ram := ram, iflag := y.iflag &&& ~~~(1#32 <<< m) } } ∧
      ram.load (mbNo m 1) = (s.txf.id &&& 0x1FFFFFFF#32) ∧
      ram.load (mbNo m 0) = 0xCC200000#32 ||| (d.setWidth 32 <<< 16) ∧
      (∀ w, w < nwords (dlc2len d) → ram.load (mbNo m (2 + w)) = packWord p w) ∧
      ∀ a, (∀ k, k < 2 + nwords (dlc2len d) → a ≠ mbNo m k) → ram.load a = x.ram.load a

/-- R451, R197: sent right after the control word is written, a frame carries the new id and length and
the words the mailbox held before. -/
def Obligations.EarlyTransmissionSendsOldWords : Prop :=
  ∀ (s : State) (inst count : Nat), s.Wf → s.Ready → s.groupLive = true →
    inst < s.cfg.nIf → 1 ≤ count → count ≤ s.cfg.txnMax →
    (s.inst inst).mayTransmit = true → txReady (s.inst inst).status = true →
    let x := s.inst inst
    let m := lptm x.status
    let n := dlc2len s.txf.dlc
    s.agenda = fgs 4 ++ [.env (.tx inst m)] →
    ∃ t, exec (.write inst count) s = .next t ∧
      (t.inst inst).wire = x.wire ++ [{
        id := s.txf.id.setWidth 29
        dlc := s.txf.dlc
        payload := unpack ((List.range (nwords n)).map fun w => x.mb m (2 + w)) n }] ∧
      t.phase = .write inst count (txFrame s.txf) (if n = 0 then .cmp m .restart else .dw m 0)

/-- R320, R321: SELECT succeeds at the first interface with a queued frame or, unless write availability
is ignored, a transmit-ready STATUS, scanning upwards, the queue before STATUS; it takes no frame and
touches nothing but the poll timer. -/
def Obligations.SelectFindsReadyInterface : Prop :=
  ∀ (s : State) (g : Bool) (k : Nat) (rest : List Move), s.Ready → s.groupLive = true → k < s.cfg.nIf →
    (∀ j, j < k → (s.inst j).queue = [] ∧ (g = false → txReady (s.inst j).status = false)) →
    ((s.inst k).queue ≠ [] → s.agenda = fgs (3 + 2 * k) ++ rest →
      exec (.select g) s = .next { s with
        agenda := rest, outcome := .success, ptVal := 0xFFFFFFFF#32, ptRun := true }) ∧
    ((s.inst k).queue = [] → g = false → txReady (s.inst k).status = true →
      s.agenda = fgs (4 + 2 * k) ++ rest →
      exec (.select g) s = .next { s with
        agenda := rest, outcome := .success, ptVal := 0xFFFFFFFF#32, ptRun := true })

/-- R320, R322: with nothing ready SELECT ends with SuccessTimeout at the first deadline test after more
than TMO ticks, and otherwise scans again. -/
def Obligations.SelectTimesOut : Prop :=
  ∀ (s : State) (g : Bool) (n : Nat) (rest : List Move), s.Ready → s.groupLive = true → 0 < s.cfg.nIf →
    (∀ j, j < s.cfg.nIf → (s.inst j).queue = [] ∧ (g = false → txReady (s.inst j).status = false)) →
    n ≤ 0xFFFFFFFF → s.agenda = fgs (2 + 2 * s.cfg.nIf) ++ ptTicks n ++ fgs 1 ++ rest →
    (s.tmo.toNat < n → exec (.select g) s = .next { s with
      agenda := rest, outcome := .successTimeout
      ptVal := BitVec.ofNat 32 (0xFFFFFFFF - n), ptRun := true }) ∧
    (n ≤ s.tmo.toNat → rest = [] → exec (.select g) s = .next { s with
      agenda := [], phase := .select g s.tmo (.q 0)
      ptVal := BitVec.ofNat 32 (0xFFFFFFFF - n), ptRun := true })

/-- R290, R272, R278, R280, R270: RECONFIG with every acknowledge in time leaves every interface Active
with the filters programmed and recorded, and touches neither flags, masks of interrupt, queues nor
counters. -/
def Obligations.ReconfigRewritesEveryInterface : Prop :=
  ∀ (s : State) (n : Nat) (rest : List Move), s.Wf → s.Ready → s.groupLive = true → n ≤ s.cfg.fCap →
    (∀ i, i < s.cfg.nIf → (s.inst i).enabled = true) → s.agenda = reconfigMoves s.cfg n ++ rest →
    ∃ t, exec (.reconfig n) s = .next t ∧
      t = { s with
        agenda := rest, outcome := .success, ptVal := 0xFFFFFFFF#32, ptRun := true, insts := t.insts } ∧
      t.insts.length = s.insts.length ∧
      ∀ i, i < s.cfg.nIf → Refiltered s.cfg (s.flt.take n) false (s.inst i) (t.inst i)

/-- R285, R291, R270, and R346 in START: a poll of FSEQ on interface `k` that times out (the freeze never
acknowledged, FRZACK never down, NOTRDY never down) ends RECONFIG and START with Failure: the interfaces
below `k` are done, `k` stands as the timeout left it, those above are untouched by FSEQ, and after START
there is no group while the clock chain runs. The schedules are the model's (log 3, log 15, log 18,
log 23). -/
def Obligations.FreezeTimeoutAborts : Prop :=
  ∀ (s : State) (n k : Nat) (p : SilentPoll) (rest : List Move), s.Wf → s.Ready → n ≤ s.cfg.fCap →
    k < s.cfg.nIf →
    let fs := s.flt.take n
    let out := { s with
      agenda := rest, outcome := .failure, ptRun := true
      ptVal := BitVec.ofNat 32 (0xFFFFFFFF - (s.cfg.pollDefaultTicks + 1)) }
    (s.groupLive = true → (∀ i, i < k → (s.inst i).enabled = true) →
      (if p = .freeze then (s.inst k).mcr.getLsbD 24 = false else (s.inst k).enabled = true) →
      s.agenda = reconfigUpTo s.cfg n k ++ abortMoves s.cfg k n p ++ rest →
      ∃ t, exec (.reconfig n) s = .next t ∧ t = { out with insts := t.insts } ∧
        t.insts.length = s.insts.length ∧
        (∀ i, i < k → Refiltered s.cfg fs false (s.inst i) (t.inst i)) ∧
        Aborted s.cfg fs false (s.inst k) (t.inst k) p ∧
        ∀ i, k < i → t.inst i = s.inst i) ∧
    (s.groupLive = false → ∀ (up : Nat → UpRegs) (pt : Option Word),
      (p = .freeze → (up k).mcr.getLsbD 24 = false) →
      s.agenda = startUpTo s.cfg n up pt k ++ .instBringup (.ok (up k)) pt ::
        (abortMoves s.cfg k n p ++ rest) →
      ∃ t, exec (.start n) s = .next t ∧
        t = { out with
          clkLo := 0xFFFFFFFF#32, clkHi := 0xFFFFFFFF#32, clkRun := true, insts := t.insts } ∧
        t.insts.length = s.insts.length ∧
        (∀ i, i < k → Refiltered s.cfg fs true (afterBringup (up i) (s.inst i)) (t.inst i)) ∧
        Aborted s.cfg fs true (afterBringup (up k) (s.inst k)) (t.inst k) p ∧
        ∀ i, k < i → i < s.cfg.nIf → t.inst i = { s.inst i with queue := [], discard := 0 })

/-- R340, R341, R343, R344, R345, R282, R348, R346: START with both collaborators Ok and every acknowledge
in time brings the whole group up from any state of the interfaces, and touches nothing else; a Timeout of
CLOCK_BRINGUP or of INSTANCE_BRINGUP on interface `k` ends it with Failure, no group, and the interfaces
wherever the loop stopped. That a bring-up is one move and what it carries is log 11. -/
def Obligations.StartBringsUpGroup : Prop :=
  ∀ (s : State) (n : Nat) (rest : List Move) (up : Nat → UpRegs) (pt : Option Word), s.Wf → s.Ready →
    s.groupLive = false → n ≤ s.cfg.fCap →
    let fs := s.flt.take n
    let running := { s with
      agenda := rest, clkLo := 0xFFFFFFFF#32, clkHi := 0xFFFFFFFF#32, clkRun := true }
    (s.agenda = startMoves s.cfg n up pt ++ rest →
      ∃ t, exec (.start n) s = .next t ∧
        t = { running with
          outcome := .success, handle := true, groupLive := true, ptVal := 0xFFFFFFFF#32, ptRun := true
          insts := t.insts } ∧
        t.insts.length = s.insts.length ∧
        ∀ i, i < s.cfg.nIf → Refiltered s.cfg fs true (afterBringup (up i) (s.inst i)) (t.inst i)) ∧
    (s.agenda = fgs 2 ++ .clockBringup false pt :: rest →
      exec (.start n) s = .next { s with
        agenda := rest, outcome := .failure, ptVal := pt.getD s.ptVal, ptRun := pt.isSome || s.ptRun
        insts := s.insts.map fun x => { x with queue := [], discard := 0 } }) ∧
    ∀ (k : Nat) (p : PartialBringup), k < s.cfg.nIf →
      s.agenda = startUpTo s.cfg n up pt k ++ .instBringup (.timeout p) pt :: rest →
      ∃ t, exec (.start n) s = .next t ∧
        t = { running with
          outcome := .failure
          ptVal := pt.getD (if k = 0 then s.ptVal else 0xFFFFFFFF#32)
          ptRun := pt.isSome || decide (0 < k) || s.ptRun
          insts := t.insts } ∧
        t.insts.length = s.insts.length ∧
        (∀ i, i < k → Refiltered s.cfg fs true (afterBringup (up i) (s.inst i)) (t.inst i)) ∧
        t.inst k = { s.inst k with
          enabled := p.enabled, mcr := p.mcr, status := p.status, timer := p.timer
          iflag := p.iflag &&& mbMask s.cfg
          imask := p.imask &&& mbMask s.cfg
          ram := ((s.inst k).partlyUp s.cfg p).ram
          queue := []
          discard := 0 } ∧
        ∀ i, k < i → i < s.cfg.nIf → t.inst i = { s.inst i with queue := [], discard := 0 }

/-- R350, R351, R352, R356: STOP with every acknowledge in time gates every interface off, stops and
reloads the clock chain, ends the group, and touches nothing else. -/
def Obligations.StopGatesEveryInterface : Prop :=
  ∀ (s : State) (rest : List Move), s.Wf → s.Ready →
    (∀ i, i < s.cfg.nIf → (s.inst i).enabled = true) → s.agenda = stopMoves s.cfg ++ rest →
    exec .stop s = .next { s with
      agenda := rest, outcome := .success, handle := false, groupLive := false
      clkLo := 0xFFFFFFFF#32, clkHi := 0xFFFFFFFF#32, clkRun := false
      ptVal := 0xFFFFFFFF#32, ptRun := true
      insts := s.insts.map fun x => { x with enabled := false, mcr := x.mcr ||| 0x88100000#32 } }

/-- R355: a low-power acknowledge that never comes ends STOP with Failure at that interface: the ones
before it gated off, it requested and still clocked, the later ones, the clock chain, GROUP_LIVE and
HANDLE untouched. -/
def Obligations.StopAbortsAtSilentInterface : Prop :=
  ∀ (s : State) (k : Nat) (rest : List Move), s.Wf → s.Ready → k < s.cfg.nIf →
    (∀ i, i ≤ k → (s.inst i).enabled = true) → (s.inst k).mcr.getLsbD 20 = false →
    let T := s.cfg.pollDefaultTicks
    s.agenda = (List.range k).flatMap gateMoves ++ fgs 4 ++ ptTicks (T + 1) ++ fgs 1 ++ rest →
    exec .stop s = .next { s with
      agenda := rest, outcome := .failure, ptVal := BitVec.ofNat 32 (0xFFFFFFFF - (T + 1)), ptRun := true
      insts := s.insts.mapIdx fun i x =>
        if i < k then { x with enabled := false, mcr := x.mcr ||| 0x88100000#32 }
        else if i = k then { x with mcr := x.mcr ||| 0x80000000#32 } else x }

/-- R123, R124, R195, R277, R87, R141: the two control words. Where ENCODE stands at `csw:` TXCS is the
word stored, where FSEQ stands at `fc:` RXCS is, and FG's own micro-step there is exactly that; written
to CMD at IDLE each is a reserved word, and while a handler runs neither does anything (R94, R98, log 24). That
the rows of the opcode table act so is log 7. -/
def Obligations.ControlWordWrites : Prop :=
  (∀ (s : State) (inst count m d : Nat) (f : Frame), s.gim = false → d < 16 →
    s.phase = .write inst count f (.csw m) →
    exec (.txcs d) s = .next { s with
      phase := .write inst count f (if dlc2len f.dlc = 0 then .cmp m .restart else .dw m 0)
      insts := s.insts.modify inst fun x =>
        { x with ram := x.ram.store (mbNo m 0) (0xCC200000#32 ||| (BitVec.ofNat 32 d <<< 16)) } } ∧
    exec (.txcs f.dlc.toNat) s = .next (fgMicro s)) ∧
  (∀ (s : State) (i count j : Nat) (fs : List FilterReg), s.gim = false →
    s.phase = .start count fs (.fp i (.fc j)) →
    exec .rxcs s = .next { s with
      phase := .start count fs (.fp i (.fi j))
      insts := s.insts.modify i fun x => { x with ram := x.ram.store (mbNo (j + 2) 0) 0xC4200000#32 } } ∧
    exec .rxcs s = .next (fgMicro s)) ∧
  (∀ (s : State) (i count j : Nat) (fs : List FilterReg), s.gim = false →
    s.phase = .reconfig count fs (.seq i (.fc j)) →
    exec .rxcs s = .next { s with
      phase := .reconfig count fs (.seq i (.fi j))
      insts := s.insts.modify i fun x => { x with ram := x.ram.store (mbNo (j + 2) 0) 0xC4200000#32 } } ∧
    exec .rxcs s = .next (fgMicro s)) ∧
  (∀ (s : State) (d : Nat), s.Ready →
    exec (.txcs d) s = .next { s with outcome := .badArgument } ∧
    exec .rxcs s = .next { s with outcome := .badArgument }) ∧
  (∀ (s : State) (d : Nat), s.gim = true → exec (.txcs d) s = .next s ∧ exec .rxcs s = .next s)

end Commands

section Frames

open Sys2Proof Sys2Proof.Machine

/-- Frame of GETIFC, GETMAXF, READ and SELECT (R330, R331, R312, R320): whatever a foreground run of them
does, only the result registers each names, the queue READ pops, the poll timer SELECT restarts, FG_PHASE
and the inputs taken change; no register of an interface and no word of memory does. -/
def Obligations.QueryCommandsFrame : Prop :=
  ∀ s t : State, (∀ m ∈ s.agenda, m.foreground = true) →
    (exec .getifc s = .next t → t = { s with
      agenda := t.agenda, phase := t.phase, outcome := t.outcome, rcount := t.rcount }) ∧
    (exec .getmaxf s = .next t → t = { s with
      agenda := t.agenda, phase := t.phase, outcome := t.outcome, rcount := t.rcount }) ∧
    (∀ i, exec (.read i) s = .next t →
      t = { s with
        agenda := t.agenda, phase := t.phase, outcome := t.outcome, rxf := t.rxf, insts := t.insts } ∧
      (∀ j, t.inst j = { s.inst j with queue := (t.inst j).queue }) ∧
      ∀ j, j ≠ i → t.inst j = s.inst j) ∧
    (∀ g, exec (.select g) s = .next t → t = { s with
      agenda := t.agenda, phase := t.phase, outcome := t.outcome, ptVal := t.ptVal, ptRun := t.ptRun })

/-- Frame of WRITE (R302, R196, R305, R306): whatever a foreground run of it does, of memory only the
control word, the id word and the frame's data words of the transmit mailbox STATUS reports change, of
the flags only that mailbox's, and nothing else but OUTCOME, NWRITTEN, the poll timer, FG_PHASE and the
inputs taken. -/
def Obligations.WriteFrame : Prop :=
  ∀ (s t : State) (inst count : Nat), s.Wf → (∀ m ∈ s.agenda, m.foreground = true) →
    exec (.write inst count) s = .next t →
    let x := s.inst inst
    let m := lptm x.status
    let n := nwords (dlc2len s.txf.dlc)
    t = { s with
      agenda := t.agenda, phase := t.phase, outcome := t.outcome, nwritten := t.nwritten,
      ptVal := t.ptVal, ptRun := t.ptRun, insts := t.insts } ∧
    (∀ j, j ≠ inst → t.inst j = s.inst j) ∧
    t.inst inst = { x with ram := (t.inst inst).ram, iflag := (t.inst inst).iflag } ∧
    ((t.inst inst).iflag = x.iflag ∨ (t.inst inst).iflag = x.iflag &&& ~~~(1#32 <<< m)) ∧
    (∀ a, (∀ k, k < 2 + n → a ≠ mbNo m k) → (t.inst inst).ram.load a = x.ram.load a) ∧
    (txReady x.status = false → t.inst inst = x)

/-- Frame of STOP (R350, R355, R351): whatever a foreground run of it does, of an interface only the clock
enable and MDIS change, and no word of memory; of the rest only OUTCOME, HANDLE, GROUP_LIVE, the clock
chain, the poll timer, FG_PHASE, the inputs taken and the model's count of free values (log 8). Where the
clock of the interface is off, the MDIS write is stored or lost, LPMACK keeps its value, and the poll's
sample goes on to the gate or to the deadline test, either being possible (R462, U19). -/
def Obligations.StopFrame : Prop :=
  (∀ (s : State) (i : Nat) (v : Word), s.gim = false → (s.inst i).enabled = false →
    s.phase = .stop (.lpr2 i v) →
    ∃ stored : Bool, applyMove .fg s = { s with
      phase := .stop (.lpa i .restart), free := s.free + 1
      insts := if stored then s.insts.modify i fun x =>
          { x with mcr := mcrWritten x.mcr (v ||| 0x80000000#32) }
        else s.insts }) ∧
  (∀ (s : State) (i : Nat), s.gim = false → (s.inst i).enabled = false →
    s.phase = .stop (.lpa i .sample) →
    ∃ seen : Bool, applyMove .fg s = { s with
      phase := .stop (if seen then .gate i else .lpa i .deadline), free := s.free + 1 }) ∧
  ∀ s t : State, (∀ m ∈ s.agenda, m.foreground = true) → exec .stop s = .next t →
    t = { s with
      agenda := t.agenda, phase := t.phase, outcome := t.outcome, handle := t.handle,
      groupLive := t.groupLive, clkLo := t.clkLo, clkHi := t.clkHi, clkRun := t.clkRun,
      ptVal := t.ptVal, ptRun := t.ptRun, insts := t.insts, free := t.free } ∧
    ∀ j, t.inst j = { s.inst j with enabled := (t.inst j).enabled, mcr := (t.inst j).mcr } ∧
      ((t.inst j).enabled = true → (s.inst j).enabled = true) ∧
      ∀ b, b < 32 → b ≠ 31 → (t.inst j).mcr.getLsbD b = (s.inst j).mcr.getLsbD b

/-- Frame of RECONFIG and START (R286, R272, R341, R344): whatever a foreground run of RECONFIG does, of
an interface only the two freeze request bits, RXIMR and mailbox words, FP_STATE and LASTF change; one of
START leaves the lock and the wire log of every interface, and every operand and result register it does
not name, and, where its bring-ups answer Ok, IFLAG, with STATUS and TIMER as they were or as the bring-up
left them (log 11). -/
def Obligations.FilterCommandsFrame : Prop :=
  ∀ (s t : State) (n : Nat), s.Wf → (∀ m ∈ s.agenda, m.foreground = true) →
    (exec (.reconfig n) s = .next t →
      t = { s with
        agenda := t.agenda, phase := t.phase, outcome := t.outcome, ptVal := t.ptVal, ptRun := t.ptRun,
        insts := t.insts } ∧
      ∀ j, t.inst j = { s.inst j with
          mcr := (t.inst j).mcr, ram := (t.inst j).ram, fpState := (t.inst j).fpState,
          lastf := (t.inst j).lastf } ∧
        (∀ b, b < 32 → b ≠ 28 → b ≠ 30 → (t.inst j).mcr.getLsbD b = (s.inst j).mcr.getLsbD b) ∧
        ∀ a, ¬ Stored s.cfg a → (t.inst j).ram.load a = (s.inst j).ram.load a) ∧
    (exec (.start n) s = .next t →
      t = { s with
        agenda := t.agenda, phase := t.phase, outcome := t.outcome, handle := t.handle,
        groupLive := t.groupLive, clkLo := t.clkLo, clkHi := t.clkHi, clkRun := t.clkRun,
        ptVal := t.ptVal, ptRun := t.ptRun, insts := t.insts } ∧
      ∀ j, (t.inst j).lock = (s.inst j).lock ∧ (t.inst j).wire = (s.inst j).wire ∧
        (∀ a, ¬ Stored s.cfg a → (t.inst j).ram.load a = (s.inst j).ram.load a) ∧
        ((∀ r pt, .instBringup r pt ∈ s.agenda → ∃ u, r = .ok u) →
          (t.inst j).iflag = (s.inst j).iflag ∧
          (((t.inst j).status = (s.inst j).status ∧ (t.inst j).timer = (s.inst j).timer) ∨
            ∃ u pt, .instBringup (.ok u) pt ∈ s.agenda ∧ (t.inst j).status = u.status ∧
              (t.inst j).timer = u.timer)))

end Frames
end

