-- ==== Sys2Proof/Laws/Bits.lean ====
section
/-! SUPPORT. Laws of the flag words: masks, write one to clear, RXVALID, the mailbox choice (R245, R248),
the fields of MCR (R41, R42). -/

namespace Sys2Proof.Machine

/-- `x` has no bit outside `m`. -/
theorem within_iff {x m : Word} : x &&& ~~~m = 0 ↔ ∀ i, x.getLsbD i = true → m.getLsbD i = true := by
  constructor
  · intro h i hi
    have h1 := congrArg (fun w : Word => w.getLsbD i) h
    have h2 : i < 32 := BitVec.lt_of_getLsbD hi
    simp [hi, h2] at h1
    exact h1
  · intro h
    apply BitVec.eq_of_getLsbD_eq
    intro i hi
    have := h i
    simp [hi]
    exact this

theorem mbMask_bit (c : Config) (i : Nat) :
    (mbMask c).getLsbD i = (decide (i < 32) && decide (i < c.nMb)) := by
  simp [mbMask, BitVec.getLsbD_ofNat, Nat.testBit_two_pow_sub_one]

theorem mbBit_bit (m i : Nat) : (mbBit m).getLsbD i = (decide (i < 32) && decide (i = m)) := by
  unfold mbBit
  by_cases h : i < 32
  · by_cases h' : i < m
    · simp [h, h']; omega
    · simp [h, h']; omega
  · simp [h]

theorem rxValid_bit (c : Config) (i : Nat) :
    (rxValid c).getLsbD i = (decide (i < 32) && decide (2 ≤ i) && decide (i < 2 + c.fCap)) := by
  simp only [rxValid, BitVec.getLsbD_ofNat, Nat.testBit_shiftLeft, Nat.one_shiftLeft,
    Nat.testBit_two_pow_sub_one, Bool.and_assoc]
  by_cases h : 2 ≤ i
  · have : (i - 2 < c.fCap) = (i < 2 + c.fCap) := propext (by omega)
    simp [h, this]
  · simp [h]

theorem rxValid_within {c : Config} (hc : c.Legal) : rxValid c &&& ~~~mbMask c = 0 := by
  obtain ⟨-, -, h, -⟩ := hc
  rw [within_iff]
  intro i hi
  rw [rxValid_bit] at hi
  rw [mbMask_bit]
  simp at hi ⊢
  omega

theorem mbBit_within {c : Config} {m : Nat} (h : m < c.nMb) : mbBit m &&& ~~~mbMask c = 0 := by
  rw [within_iff]
  intro i hi
  rw [mbBit_bit] at hi
  rw [mbMask_bit]
  simp at hi ⊢
  omega

theorem within_or {x y m : Word} (hx : x &&& ~~~m = 0) (hy : y &&& ~~~m = 0) :
    (x ||| y) &&& ~~~m = 0 := by
  rw [within_iff] at *
  intro i hi
  rw [BitVec.getLsbD_or, Bool.or_eq_true] at hi
  exact hi.elim (hx i) (hy i)

theorem within_and_left {x y m : Word} (hx : x &&& ~~~m = 0) : (x &&& y) &&& ~~~m = 0 := by
  rw [within_iff] at *
  intro i hi
  rw [BitVec.getLsbD_and, Bool.and_eq_true] at hi
  exact hx i hi.1

theorem within_mask (v m : Word) : (v &&& m) &&& ~~~m = 0 := by
  rw [within_iff]
  intro i hi
  rw [BitVec.getLsbD_and, Bool.and_eq_true] at hi
  exact hi.2

/-- The mailbox chosen is a set bit, and no lower bit is set (R248). -/
theorem ctz_spec {x : Word} (h : x ≠ 0) :
    ctz x < 32 ∧ x.getLsbD (ctz x) = true ∧ ∀ j, j < ctz x → x.getLsbD j = false := by
  unfold ctz
  cases hf : (List.range 32).find? fun m => x.getLsbD m with
  | none =>
    exfalso
    apply h
    apply BitVec.eq_of_getLsbD_eq
    intro i hi
    rw [List.find?_eq_none] at hf
    simpa using hf i (by simpa using hi)
  | some m =>
    have h1 := List.find?_some hf
    have h2 := List.mem_of_find?_eq_some hf
    refine ⟨by simpa using h2, h1, fun j hj => ?_⟩
    rw [List.find?_range_eq_some] at hf
    simpa using hf.2.2 j hj

/-- The mailbox a handler serves is a receive mailbox of RXVALID (R245). -/
theorem served_ctz {s : State} {i : Nat} (h : rxFlags s i ≠ 0) : Served s.cfg (ctz (rxFlags s i)) := by
  have h1 := (ctz_spec h).2.1
  rw [rxFlags, BitVec.getLsbD_and, Bool.and_eq_true, rxValid_bit] at h1
  simp only [Bool.and_eq_true, decide_eq_true_eq] at h1
  exact ⟨h1.2.1.2, h1.2.2⟩

/-! ## MCR -/

/-- RegWrite of MCR leaves the acknowledge bits as they are (R42). -/
theorem mcrWritten_ack (old v : Word) : mcrWritten old v &&& ackBits = old &&& ackBits := by
  apply BitVec.eq_of_getLsbD_eq
  intro i hi
  simp only [mcrWritten, BitVec.getLsbD_and, BitVec.getLsbD_or, BitVec.getLsbD_not]
  cases ackBits.getLsbD i <;> simp

/-- RegWrite of MCR gives every other bit the value written (R42). -/
theorem mcrWritten_owned (old v : Word) : mcrWritten old v &&& ~~~ackBits = v &&& ~~~ackBits := by
  apply BitVec.eq_of_getLsbD_eq
  intro i hi
  simp only [mcrWritten, BitVec.getLsbD_and, BitVec.getLsbD_or, BitVec.getLsbD_not]
  cases ackBits.getLsbD i <;> simp

/-! ## STATUS (R43, R370) -/

theorem statusWord_bit (l : BitVec 7) (vps imb : Bool) (other : Word) {b : Nat} (hb : b < 32) :
    (statusWord l vps imb other).getLsbD b =
      if b = 14 then vps else if b = 13 then imb
      else if 16 ≤ b ∧ b < 23 then l.getLsbD (b - 16) else other.getLsbD b := by
  cases vps <;> cases imb <;> simp only [statusWord, setBits] <;> interval_cases b <;>
    simp [vpsBit, imbBit, lptmBits]

theorem statusWord_lptm (l : BitVec 7) (vps imb : Bool) (other : Word) :
    lptm (statusWord l vps imb other) = l.toNat := by
  unfold lptm
  congr 1
  apply BitVec.eq_of_getLsbD_eq
  intro b hb
  rw [BitVec.getLsbD_extractLsb', statusWord_bit _ _ _ _ (by omega)]
  rw [if_neg (by omega), if_neg (by omega), if_pos (by omega), Nat.add_sub_cancel_left]
  simp [hb]

/-- What a well-behaved report says (R370). -/
theorem report_status (c : Config) (x : Inst) (vps : Bool) (other : Word) :
    let v := (x.report c vps other).status
    v.getLsbD 14 = vps ∧ v.getLsbD 13 = (x.lowestFree c).isSome ∧
      ∀ m, x.lowestFree c = some m → m < 128 → lptm v = m := by
  unfold Inst.report
  split
  · next m h =>
    refine ⟨statusWord_bit _ _ _ _ (by decide), by rw [statusWord_bit _ _ _ _ (by decide)]; simp [h], ?_⟩
    intro m' h' hm
    rw [h] at h'
    cases h'
    rw [statusWord_lptm]
    exact Nat.mod_eq_of_lt hm
  · next h =>
    refine ⟨statusWord_bit _ _ _ _ (by decide), by rw [statusWord_bit _ _ _ _ (by decide)]; simp [h], ?_⟩
    simp [h]

end Sys2Proof.Machine
end

