-- ==== Sys2Proof/Laws/Memory.lean ====
section
/-! SUPPORT. The laws of the memory: a store keeps the canonical form, a load after a store, and equal
loads make equal memories. -/

namespace Sys2Proof.Machine

theorem risingFrom_mono {lo lo' : Nat} {m : Memory} (h : lo' ≤ lo)
    (hm : Memory.risingFrom lo m = true) : Memory.risingFrom lo' m = true := by
  cases m with
  | nil => rfl
  | cons p rest =>
    obtain ⟨a, v⟩ := p
    simp only [Memory.risingFrom, Bool.and_eq_true, decide_eq_true_eq] at hm ⊢
    exact ⟨⟨h.trans hm.1.1, hm.1.2⟩, hm.2⟩

theorem cell_rising {lo a : Nat} {v : Word} {rest : Memory} (h : lo ≤ a)
    (hr : Memory.risingFrom (a + 1) rest = true) : Memory.risingFrom lo (Memory.cell a v rest) = true := by
  unfold Memory.cell
  split
  · exact risingFrom_mono (by omega) hr
  · simp_all [Memory.risingFrom]

theorem store_rising {lo a : Nat} {v : Word} {m : Memory} (hm : Memory.risingFrom lo m = true)
    (h : lo ≤ a) : Memory.risingFrom lo (m.store a v) = true := by
  induction m generalizing lo with
  | nil => exact cell_rising h rfl
  | cons p rest ih =>
    obtain ⟨b, w⟩ := p
    have hb : lo ≤ b ∧ (w != unlistedWord) = true ∧ Memory.risingFrom (b + 1) rest = true := by
      simpa [Memory.risingFrom, and_assoc] using hm
    unfold Memory.store
    split
    · refine cell_rising h ?_
      simpa [Memory.risingFrom, hb.2.1, hb.2.2] using ‹a < b›
    · split
      · subst a; exact cell_rising h hb.2.2
      · have := ih hb.2.2 (by omega)
        simp [Memory.risingFrom, hb.1, hb.2.1, this]

/-- Every store keeps the canonical form. -/
theorem store_wf {m : Memory} (hm : m.wf = true) (a : Nat) (v : Word) : (m.store a v).wf = true :=
  store_rising hm (Nat.zero_le a)

theorem load_below {lo a : Nat} {m : Memory} (hm : Memory.risingFrom lo m = true) (h : a < lo) :
    m.load a = unlistedWord := by
  induction m generalizing lo with
  | nil => rfl
  | cons p rest ih =>
    obtain ⟨b, w⟩ := p
    have hb : lo ≤ b ∧ (w != unlistedWord) = true ∧ Memory.risingFrom (b + 1) rest = true := by
      simpa [Memory.risingFrom, and_assoc] using hm
    rw [Memory.load, if_neg (by omega)]
    exact ih hb.2.2 (by omega)

theorem load_cell {a b : Nat} {v : Word} {rest : Memory}
    (hr : Memory.risingFrom (a + 1) rest = true) :
    (Memory.cell a v rest).load b = if b = a then v else rest.load b := by
  unfold Memory.cell
  split
  · split
    · next hv hb => subst hb hv; exact load_below hr (by omega)
    · rfl
  · rfl

theorem load_store_rising {lo a : Nat} {m : Memory} (hm : Memory.risingFrom lo m = true) (h : lo ≤ a)
    (v : Word) (b : Nat) : (m.store a v).load b = if b = a then v else m.load b := by
  induction m generalizing lo with
  | nil => exact load_cell rfl
  | cons p rest ih =>
    obtain ⟨c, w⟩ := p
    have hc : lo ≤ c ∧ (w != unlistedWord) = true ∧ Memory.risingFrom (c + 1) rest = true := by
      simpa [Memory.risingFrom, and_assoc] using hm
    unfold Memory.store
    split
    · next hac =>
      refine load_cell ?_
      simpa [Memory.risingFrom, hc.2.1, hc.2.2] using hac
    · split
      · next _ hac =>
        subst hac
        rw [load_cell hc.2.2]
        by_cases hb : b = a <;> simp [Memory.load, hb]
      · next hlt hne =>
        simp only [Memory.load]
        rw [ih hc.2.2 (by omega)]
        by_cases hb : b = c <;> simp [hb]
        intro hca
        omega

/-- A load after a store: the stored word there, the old word elsewhere. -/
theorem load_store {m : Memory} (hm : m.wf = true) (a b : Nat) (v : Word) :
    (m.store a v).load b = if b = a then v else m.load b :=
  load_store_rising hm (Nat.zero_le a) v b

theorem mem_cell {a : Nat} {v : Word} {rest : Memory} {p : Nat × Word}
    (h : p ∈ Memory.cell a v rest) : p.1 = a ∨ p ∈ rest := by
  unfold Memory.cell at h
  split at h
  · exact .inr h
  · rcases List.mem_cons.1 h with rfl | h
    · exact .inl rfl
    · exact .inr h

/-- A store lists no word number but its own and those listed before. -/
theorem mem_store {m : Memory} {a : Nat} {v : Word} {p : Nat × Word} (h : p ∈ m.store a v) :
    p.1 = a ∨ p ∈ m := by
  induction m with
  | nil => exact (mem_cell h).imp_right (by simp)
  | cons q rest ih =>
    obtain ⟨b, w⟩ := q
    unfold Memory.store at h
    split at h
    · exact mem_cell h
    · split at h
      · exact (mem_cell h).imp_right (List.mem_cons_of_mem _)
      · rcases List.mem_cons.1 h with rfl | h
        · exact .inr (by simp)
        · exact (ih h).imp_right (List.mem_cons_of_mem _)

theorem rising_ext {lo : Nat} {m n : Memory} (hm : Memory.risingFrom lo m = true)
    (hn : Memory.risingFrom lo n = true) (h : ∀ a, m.load a = n.load a) : m = n := by
  induction m generalizing lo n with
  | nil =>
    cases n with
    | nil => rfl
    | cons q rest =>
      obtain ⟨b, w⟩ := q
      have := h b
      simp_all [Memory.load, Memory.risingFrom]
  | cons p rest ih =>
    obtain ⟨a, v⟩ := p
    have ha : lo ≤ a ∧ (v != unlistedWord) = true ∧ Memory.risingFrom (a + 1) rest = true := by
      simpa [Memory.risingFrom, and_assoc] using hm
    cases n with
    | nil =>
      have := h a
      simp_all [Memory.load]
    | cons q rest' =>
      obtain ⟨b, w⟩ := q
      have hb : lo ≤ b ∧ (w != unlistedWord) = true ∧ Memory.risingFrom (b + 1) rest' = true := by
        simpa [Memory.risingFrom, and_assoc] using hn
      have hab : a = b := by
        rcases Nat.lt_trichotomy a b with hlt | heq | hlt
        · have h1 := h a
          rw [Memory.load, if_pos rfl, Memory.load, if_neg (by omega),
            load_below hb.2.2 (by omega)] at h1
          simp [h1] at ha
        · exact heq
        · have h1 := h b
          rw [Memory.load, if_neg (by omega), load_below ha.2.2 (by omega), Memory.load,
            if_pos rfl] at h1
          simp [← h1] at hb
      subst hab
      have hvw : v = w := by simpa [Memory.load] using h a
      subst hvw
      congr 1
      refine ih ha.2.2 hb.2.2 fun x => ?_
      by_cases hx : x = a
      · subst hx; rw [load_below ha.2.2 (by omega), load_below hb.2.2 (by omega)]
      · simpa [Memory.load, hx] using h x

/-- Two canonical memories that read alike are equal. -/
theorem memory_ext {m n : Memory} (hm : m.wf = true) (hn : n.wf = true)
    (h : ∀ a, m.load a = n.load a) : m = n :=
  rising_ext hm hn h

/-! ## Word numbers -/

theorem mbNo_inj {m k m' k' : Nat} (hk : k < 18) (hk' : k' < 18) (h : mbNo m k = mbNo m' k') :
    m = m' ∧ k = k' := by
  unfold mbNo at h
  omega

theorem rximrNo_inj {m m' : Nat} (h : rximrNo m = rximrNo m') : m = m' := by
  unfold rximrNo at h
  omega

theorem rximrNo_ne_mbNo {c : Config} (hc : c.Legal) {m m' k : Nat} (hm : m < c.nMb) :
    rximrNo m ≠ mbNo m' k := by
  obtain ⟨-, -, -, h, -⟩ := hc
  unfold rximrNo mbNo
  omega

theorem stored_mbNo {c : Config} {m k : Nat} (hm : m < c.nMb) (hk : k < 18) : Stored c (mbNo m k) := by
  right
  unfold mbNo
  omega

theorem stored_rximrNo {c : Config} {m : Nat} (hm : m < c.nMb) : Stored c (rximrNo m) := by
  left
  unfold rximrNo
  omega

end Sys2Proof.Machine
end

