-- ==== Sys2Proof/Laws/State.lean ====
section
/-! SUPPORT. The small lemmas of the state record: for each named update, what every field is after it
(one theorem per update, one conjunct per field, each true by rfl), and the laws of one interface's
change. -/

namespace Sys2Proof.Machine

variable (s : State)

/-! ## Updates of the state record -/

@[simp] theorem modInst_fields (i : Nat) (f : Inst → Inst) :
    (s.modInst i f).cfg = s.cfg ∧
    (s.modInst i f).cmd = s.cmd ∧
    (s.modInst i f).txf = s.txf ∧
    (s.modInst i f).flt = s.flt ∧
    (s.modInst i f).tmo = s.tmo ∧
    (s.modInst i f).rxf = s.rxf ∧
    (s.modInst i f).outcome = s.outcome ∧
    (s.modInst i f).nwritten = s.nwritten ∧
    (s.modInst i f).rcount = s.rcount ∧
    (s.modInst i f).handle = s.handle ∧
    (s.modInst i f).phase = s.phase ∧
    (s.modInst i f).groupLive = s.groupLive ∧
    (s.modInst i f).gim = s.gim ∧
    (s.modInst i f).clkLo = s.clkLo ∧
    (s.modInst i f).clkHi = s.clkHi ∧
    (s.modInst i f).clkRun = s.clkRun ∧
    (s.modInst i f).ptVal = s.ptVal ∧
    (s.modInst i f).ptRun = s.ptRun ∧
    (s.modInst i f).insts = s.insts.modify i f ∧
    (s.modInst i f).irq = s.irq ∧
    (s.modInst i f).agenda = s.agenda ∧
    (s.modInst i f).free = s.free :=
  ⟨rfl, rfl, rfl, rfl, rfl, rfl, rfl, rfl, rfl, rfl, rfl, rfl, rfl, rfl, rfl, rfl, rfl, rfl, rfl, rfl, rfl, rfl⟩

@[simp] theorem goto_fields (p : Phase) :
    (goto s p).cfg = s.cfg ∧
    (goto s p).cmd = s.cmd ∧
    (goto s p).txf = s.txf ∧
    (goto s p).flt = s.flt ∧
    (goto s p).tmo = s.tmo ∧
    (goto s p).rxf = s.rxf ∧
    (goto s p).outcome = s.outcome ∧
    (goto s p).nwritten = s.nwritten ∧
    (goto s p).rcount = s.rcount ∧
    (goto s p).handle = s.handle ∧
    (goto s p).phase = p ∧
    (goto s p).groupLive = s.groupLive ∧
    (goto s p).gim = s.gim ∧
    (goto s p).clkLo = s.clkLo ∧
    (goto s p).clkHi = s.clkHi ∧
    (goto s p).clkRun = s.clkRun ∧
    (goto s p).ptVal = s.ptVal ∧
    (goto s p).ptRun = s.ptRun ∧
    (goto s p).insts = s.insts ∧
    (goto s p).irq = s.irq ∧
    (goto s p).agenda = s.agenda ∧
    (goto s p).free = s.free :=
  ⟨rfl, rfl, rfl, rfl, rfl, rfl, rfl, rfl, rfl, rfl, rfl, rfl, rfl, rfl, rfl, rfl, rfl, rfl, rfl, rfl, rfl, rfl⟩

@[simp] theorem ret_fields (r : OutcomeCode) :
    (ret s r).cfg = s.cfg ∧
    (ret s r).cmd = s.cmd ∧
    (ret s r).txf = s.txf ∧
    (ret s r).flt = s.flt ∧
    (ret s r).tmo = s.tmo ∧
    (ret s r).rxf = s.rxf ∧
    (ret s r).outcome = r ∧
    (ret s r).nwritten = s.nwritten ∧
    (ret s r).rcount = s.rcount ∧
    (ret s r).handle = s.handle ∧
    (ret s r).phase = .idle ∧
    (ret s r).groupLive = s.groupLive ∧
    (ret s r).gim = s.gim ∧
    (ret s r).clkLo = s.clkLo ∧
    (ret s r).clkHi = s.clkHi ∧
    (ret s r).clkRun = s.clkRun ∧
    (ret s r).ptVal = s.ptVal ∧
    (ret s r).ptRun = s.ptRun ∧
    (ret s r).insts = s.insts ∧
    (ret s r).irq = s.irq ∧
    (ret s r).agenda = s.agenda ∧
    (ret s r).free = s.free :=
  ⟨rfl, rfl, rfl, rfl, rfl, rfl, rfl, rfl, rfl, rfl, rfl, rfl, rfl, rfl, rfl, rfl, rfl, rfl, rfl, rfl, rfl, rfl⟩

@[simp] theorem retWritten_fields (r : OutcomeCode) (n : BitVec 8) :
    (retWritten s r n).cfg = s.cfg ∧
    (retWritten s r n).cmd = s.cmd ∧
    (retWritten s r n).txf = s.txf ∧
    (retWritten s r n).flt = s.flt ∧
    (retWritten s r n).tmo = s.tmo ∧
    (retWritten s r n).rxf = s.rxf ∧
    (retWritten s r n).outcome = r ∧
    (retWritten s r n).nwritten = n ∧
    (retWritten s r n).rcount = s.rcount ∧
    (retWritten s r n).handle = s.handle ∧
    (retWritten s r n).phase = .idle ∧
    (retWritten s r n).groupLive = s.groupLive ∧
    (retWritten s r n).gim = s.gim ∧
    (retWritten s r n).clkLo = s.clkLo ∧
    (retWritten s r n).clkHi = s.clkHi ∧
    (retWritten s r n).clkRun = s.clkRun ∧
    (retWritten s r n).ptVal = s.ptVal ∧
    (retWritten s r n).ptRun = s.ptRun ∧
    (retWritten s r n).insts = s.insts ∧
    (retWritten s r n).irq = s.irq ∧
    (retWritten s r n).agenda = s.agenda ∧
    (retWritten s r n).free = s.free :=
  ⟨rfl, rfl, rfl, rfl, rfl, rfl, rfl, rfl, rfl, rfl, rfl, rfl, rfl, rfl, rfl, rfl, rfl, rfl, rfl, rfl, rfl, rfl⟩

@[simp] theorem retHandle_fields (r : OutcomeCode) (b : Bool) :
    (retHandle s r b).cfg = s.cfg ∧
    (retHandle s r b).cmd = s.cmd ∧
    (retHandle s r b).txf = s.txf ∧
    (retHandle s r b).flt = s.flt ∧
    (retHandle s r b).tmo = s.tmo ∧
    (retHandle s r b).rxf = s.rxf ∧
    (retHandle s r b).outcome = r ∧
    (retHandle s r b).nwritten = s.nwritten ∧
    (retHandle s r b).rcount = s.rcount ∧
    (retHandle s r b).handle = b ∧
    (retHandle s r b).phase = .idle ∧
    (retHandle s r b).groupLive = s.groupLive ∧
    (retHandle s r b).gim = s.gim ∧
    (retHandle s r b).clkLo = s.clkLo ∧
    (retHandle s r b).clkHi = s.clkHi ∧
    (retHandle s r b).clkRun = s.clkRun ∧
    (retHandle s r b).ptVal = s.ptVal ∧
    (retHandle s r b).ptRun = s.ptRun ∧
    (retHandle s r b).insts = s.insts ∧
    (retHandle s r b).irq = s.irq ∧
    (retHandle s r b).agenda = s.agenda ∧
    (retHandle s r b).free = s.free :=
  ⟨rfl, rfl, rfl, rfl, rfl, rfl, rfl, rfl, rfl, rfl, rfl, rfl, rfl, rfl, rfl, rfl, rfl, rfl, rfl, rfl, rfl, rfl⟩

@[simp] theorem reservedWord_fields  :
    (reservedWord s).cfg = s.cfg ∧
    (reservedWord s).cmd = s.cmd ∧
    (reservedWord s).txf = s.txf ∧
    (reservedWord s).flt = s.flt ∧
    (reservedWord s).tmo = s.tmo ∧
    (reservedWord s).rxf = s.rxf ∧
    (reservedWord s).outcome = .badArgument ∧
    (reservedWord s).nwritten = s.nwritten ∧
    (reservedWord s).rcount = s.rcount ∧
    (reservedWord s).handle = s.handle ∧
    (reservedWord s).phase = s.phase ∧
    (reservedWord s).groupLive = s.groupLive ∧
    (reservedWord s).gim = s.gim ∧
    (reservedWord s).clkLo = s.clkLo ∧
    (reservedWord s).clkHi = s.clkHi ∧
    (reservedWord s).clkRun = s.clkRun ∧
    (reservedWord s).ptVal = s.ptVal ∧
    (reservedWord s).ptRun = s.ptRun ∧
    (reservedWord s).insts = s.insts ∧
    (reservedWord s).irq = s.irq ∧
    (reservedWord s).agenda = s.agenda ∧
    (reservedWord s).free = s.free :=
  ⟨rfl, rfl, rfl, rfl, rfl, rfl, rfl, rfl, rfl, rfl, rfl, rfl, rfl, rfl, rfl, rfl, rfl, rfl, rfl, rfl, rfl, rfl⟩

@[simp] theorem ptRestart_fields  :
    (ptRestart s).cfg = s.cfg ∧
    (ptRestart s).cmd = s.cmd ∧
    (ptRestart s).txf = s.txf ∧
    (ptRestart s).flt = s.flt ∧
    (ptRestart s).tmo = s.tmo ∧
    (ptRestart s).rxf = s.rxf ∧
    (ptRestart s).outcome = s.outcome ∧
    (ptRestart s).nwritten = s.nwritten ∧
    (ptRestart s).rcount = s.rcount ∧
    (ptRestart s).handle = s.handle ∧
    (ptRestart s).phase = s.phase ∧
    (ptRestart s).groupLive = s.groupLive ∧
    (ptRestart s).gim = s.gim ∧
    (ptRestart s).clkLo = s.clkLo ∧
    (ptRestart s).clkHi = s.clkHi ∧
    (ptRestart s).clkRun = s.clkRun ∧
    (ptRestart s).ptVal = 0xFFFFFFFF#32 ∧
    (ptRestart s).ptRun = true ∧
    (ptRestart s).insts = s.insts ∧
    (ptRestart s).irq = s.irq ∧
    (ptRestart s).agenda = s.agenda ∧
    (ptRestart s).free = s.free :=
  ⟨rfl, rfl, rfl, rfl, rfl, rfl, rfl, rfl, rfl, rfl, rfl, rfl, rfl, rfl, rfl, rfl, rfl, rfl, rfl, rfl, rfl, rfl⟩

@[simp] theorem ptPolled_fields (pt : Option Word) :
    (ptPolled s pt).cfg = s.cfg ∧
    (ptPolled s pt).cmd = s.cmd ∧
    (ptPolled s pt).txf = s.txf ∧
    (ptPolled s pt).flt = s.flt ∧
    (ptPolled s pt).tmo = s.tmo ∧
    (ptPolled s pt).rxf = s.rxf ∧
    (ptPolled s pt).outcome = s.outcome ∧
    (ptPolled s pt).nwritten = s.nwritten ∧
    (ptPolled s pt).rcount = s.rcount ∧
    (ptPolled s pt).handle = s.handle ∧
    (ptPolled s pt).phase = s.phase ∧
    (ptPolled s pt).groupLive = s.groupLive ∧
    (ptPolled s pt).gim = s.gim ∧
    (ptPolled s pt).clkLo = s.clkLo ∧
    (ptPolled s pt).clkHi = s.clkHi ∧
    (ptPolled s pt).clkRun = s.clkRun ∧
    (ptPolled s pt).ptVal = pt.getD s.ptVal ∧
    (ptPolled s pt).ptRun = (pt.isSome || s.ptRun) ∧
    (ptPolled s pt).insts = s.insts ∧
    (ptPolled s pt).irq = s.irq ∧
    (ptPolled s pt).agenda = s.agenda ∧
    (ptPolled s pt).free = s.free :=
  ⟨rfl, rfl, rfl, rfl, rfl, rfl, rfl, rfl, rfl, rfl, rfl, rfl, rfl, rfl, rfl, rfl, rfl, rfl, rfl, rfl, rfl, rfl⟩

@[simp] theorem drawn_fields :
    (drawn s).cfg = s.cfg ∧
    (drawn s).cmd = s.cmd ∧
    (drawn s).txf = s.txf ∧
    (drawn s).flt = s.flt ∧
    (drawn s).tmo = s.tmo ∧
    (drawn s).rxf = s.rxf ∧
    (drawn s).outcome = s.outcome ∧
    (drawn s).nwritten = s.nwritten ∧
    (drawn s).rcount = s.rcount ∧
    (drawn s).handle = s.handle ∧
    (drawn s).phase = s.phase ∧
    (drawn s).groupLive = s.groupLive ∧
    (drawn s).gim = s.gim ∧
    (drawn s).clkLo = s.clkLo ∧
    (drawn s).clkHi = s.clkHi ∧
    (drawn s).clkRun = s.clkRun ∧
    (drawn s).ptVal = s.ptVal ∧
    (drawn s).ptRun = s.ptRun ∧
    (drawn s).insts = s.insts ∧
    (drawn s).irq = s.irq ∧
    (drawn s).agenda = s.agenda ∧
    (drawn s).free = s.free + 1 :=
  ⟨rfl, rfl, rfl, rfl, rfl, rfl, rfl, rfl, rfl, rfl, rfl, rfl, rfl, rfl, rfl, rfl, rfl, rfl, rfl, rfl, rfl, rfl⟩

@[simp] theorem loadClock_fields (b : Bool) :
    (loadClock s b).cfg = s.cfg ∧
    (loadClock s b).cmd = s.cmd ∧
    (loadClock s b).txf = s.txf ∧
    (loadClock s b).flt = s.flt ∧
    (loadClock s b).tmo = s.tmo ∧
    (loadClock s b).rxf = s.rxf ∧
    (loadClock s b).outcome = s.outcome ∧
    (loadClock s b).nwritten = s.nwritten ∧
    (loadClock s b).rcount = s.rcount ∧
    (loadClock s b).handle = s.handle ∧
    (loadClock s b).phase = s.phase ∧
    (loadClock s b).groupLive = s.groupLive ∧
    (loadClock s b).gim = s.gim ∧
    (loadClock s b).clkLo = 0xFFFFFFFF#32 ∧
    (loadClock s b).clkHi = 0xFFFFFFFF#32 ∧
    (loadClock s b).clkRun = b ∧
    (loadClock s b).ptVal = s.ptVal ∧
    (loadClock s b).ptRun = s.ptRun ∧
    (loadClock s b).insts = s.insts ∧
    (loadClock s b).irq = s.irq ∧
    (loadClock s b).agenda = s.agenda ∧
    (loadClock s b).free = s.free :=
  ⟨rfl, rfl, rfl, rfl, rfl, rfl, rfl, rfl, rfl, rfl, rfl, rfl, rfl, rfl, rfl, rfl, rfl, rfl, rfl, rfl, rfl, rfl⟩

@[simp] theorem takeMove_fields  :
    (takeMove s).cfg = s.cfg ∧
    (takeMove s).cmd = s.cmd ∧
    (takeMove s).txf = s.txf ∧
    (takeMove s).flt = s.flt ∧
    (takeMove s).tmo = s.tmo ∧
    (takeMove s).rxf = s.rxf ∧
    (takeMove s).outcome = s.outcome ∧
    (takeMove s).nwritten = s.nwritten ∧
    (takeMove s).rcount = s.rcount ∧
    (takeMove s).handle = s.handle ∧
    (takeMove s).phase = s.phase ∧
    (takeMove s).groupLive = s.groupLive ∧
    (takeMove s).gim = s.gim ∧
    (takeMove s).clkLo = s.clkLo ∧
    (takeMove s).clkHi = s.clkHi ∧
    (takeMove s).clkRun = s.clkRun ∧
    (takeMove s).ptVal = s.ptVal ∧
    (takeMove s).ptRun = s.ptRun ∧
    (takeMove s).insts = s.insts ∧
    (takeMove s).irq = s.irq ∧
    (takeMove s).agenda = s.agenda.tail ∧
    (takeMove s).free = s.free :=
  ⟨rfl, rfl, rfl, rfl, rfl, rfl, rfl, rfl, rfl, rfl, rfl, rfl, rfl, rfl, rfl, rfl, rfl, rfl, rfl, rfl, rfl, rfl⟩

@[simp] theorem latchCmd_fields (w : Word) :
    (latchCmd s w).cfg = s.cfg ∧
    (latchCmd s w).cmd = w ∧
    (latchCmd s w).txf = s.txf ∧
    (latchCmd s w).flt = s.flt ∧
    (latchCmd s w).tmo = s.tmo ∧
    (latchCmd s w).rxf = s.rxf ∧
    (latchCmd s w).outcome = s.outcome ∧
    (latchCmd s w).nwritten = s.nwritten ∧
    (latchCmd s w).rcount = s.rcount ∧
    (latchCmd s w).handle = s.handle ∧
    (latchCmd s w).phase = s.phase ∧
    (latchCmd s w).groupLive = s.groupLive ∧
    (latchCmd s w).gim = s.gim ∧
    (latchCmd s w).clkLo = s.clkLo ∧
    (latchCmd s w).clkHi = s.clkHi ∧
    (latchCmd s w).clkRun = s.clkRun ∧
    (latchCmd s w).ptVal = s.ptVal ∧
    (latchCmd s w).ptRun = s.ptRun ∧
    (latchCmd s w).insts = s.insts ∧
    (latchCmd s w).irq = s.irq ∧
    (latchCmd s w).agenda = s.agenda.tail ∧
    (latchCmd s w).free = s.free :=
  ⟨rfl, rfl, rfl, rfl, rfl, rfl, rfl, rfl, rfl, rfl, rfl, rfl, rfl, rfl, rfl, rfl, rfl, rfl, rfl, rfl, rfl, rfl⟩

@[simp] theorem irqAt_fields (i : Nat) (l : IrqLabel) :
    (irqAt s i l).cfg = s.cfg ∧
    (irqAt s i l).cmd = s.cmd ∧
    (irqAt s i l).txf = s.txf ∧
    (irqAt s i l).flt = s.flt ∧
    (irqAt s i l).tmo = s.tmo ∧
    (irqAt s i l).rxf = s.rxf ∧
    (irqAt s i l).outcome = s.outcome ∧
    (irqAt s i l).nwritten = s.nwritten ∧
    (irqAt s i l).rcount = s.rcount ∧
    (irqAt s i l).handle = s.handle ∧
    (irqAt s i l).phase = s.phase ∧
    (irqAt s i l).groupLive = s.groupLive ∧
    (irqAt s i l).gim = s.gim ∧
    (irqAt s i l).clkLo = s.clkLo ∧
    (irqAt s i l).clkHi = s.clkHi ∧
    (irqAt s i l).clkRun = s.clkRun ∧
    (irqAt s i l).ptVal = s.ptVal ∧
    (irqAt s i l).ptRun = s.ptRun ∧
    (irqAt s i l).insts = s.insts ∧
    (irqAt s i l).irq = some ⟨i, l⟩ ∧
    (irqAt s i l).agenda = s.agenda ∧
    (irqAt s i l).free = s.free :=
  ⟨rfl, rfl, rfl, rfl, rfl, rfl, rfl, rfl, rfl, rfl, rfl, rfl, rfl, rfl, rfl, rfl, rfl, rfl, rfl, rfl, rfl, rfl⟩

@[simp] theorem irqEnter_fields (i : Nat) :
    (irqEnter s i).cfg = s.cfg ∧
    (irqEnter s i).cmd = s.cmd ∧
    (irqEnter s i).txf = s.txf ∧
    (irqEnter s i).flt = s.flt ∧
    (irqEnter s i).tmo = s.tmo ∧
    (irqEnter s i).rxf = s.rxf ∧
    (irqEnter s i).outcome = s.outcome ∧
    (irqEnter s i).nwritten = s.nwritten ∧
    (irqEnter s i).rcount = s.rcount ∧
    (irqEnter s i).handle = s.handle ∧
    (irqEnter s i).phase = s.phase ∧
    (irqEnter s i).groupLive = s.groupLive ∧
    (irqEnter s i).gim = true ∧
    (irqEnter s i).clkLo = s.clkLo ∧
    (irqEnter s i).clkHi = s.clkHi ∧
    (irqEnter s i).clkRun = s.clkRun ∧
    (irqEnter s i).ptVal = s.ptVal ∧
    (irqEnter s i).ptRun = s.ptRun ∧
    (irqEnter s i).insts = s.insts ∧
    (irqEnter s i).irq = some ⟨i, .flg⟩ ∧
    (irqEnter s i).agenda = s.agenda ∧
    (irqEnter s i).free = s.free :=
  ⟨rfl, rfl, rfl, rfl, rfl, rfl, rfl, rfl, rfl, rfl, rfl, rfl, rfl, rfl, rfl, rfl, rfl, rfl, rfl, rfl, rfl, rfl⟩

@[simp] theorem irqExit_fields  :
    (irqExit s).cfg = s.cfg ∧
    (irqExit s).cmd = s.cmd ∧
    (irqExit s).txf = s.txf ∧
    (irqExit s).flt = s.flt ∧
    (irqExit s).tmo = s.tmo ∧
    (irqExit s).rxf = s.rxf ∧
    (irqExit s).outcome = s.outcome ∧
    (irqExit s).nwritten = s.nwritten ∧
    (irqExit s).rcount = s.rcount ∧
    (irqExit s).handle = s.handle ∧
    (irqExit s).phase = s.phase ∧
    (irqExit s).groupLive = s.groupLive ∧
    (irqExit s).gim = false ∧
    (irqExit s).clkLo = s.clkLo ∧
    (irqExit s).clkHi = s.clkHi ∧
    (irqExit s).clkRun = s.clkRun ∧
    (irqExit s).ptVal = s.ptVal ∧
    (irqExit s).ptRun = s.ptRun ∧
    (irqExit s).insts = s.insts ∧
    (irqExit s).irq = none ∧
    (irqExit s).agenda = s.agenda ∧
    (irqExit s).free = s.free :=
  ⟨rfl, rfl, rfl, rfl, rfl, rfl, rfl, rfl, rfl, rfl, rfl, rfl, rfl, rfl, rfl, rfl, rfl, rfl, rfl, rfl, rfl, rfl⟩

/-! ## Updates of one interface -/

@[simp] theorem regWrite_fields (i : Nat) (r : WriteReg) (v : Word) :
    (regWrite s i r v).cfg = s.cfg ∧
    (regWrite s i r v).cmd = s.cmd ∧
    (regWrite s i r v).txf = s.txf ∧
    (regWrite s i r v).flt = s.flt ∧
    (regWrite s i r v).tmo = s.tmo ∧
    (regWrite s i r v).rxf = s.rxf ∧
    (regWrite s i r v).outcome = s.outcome ∧
    (regWrite s i r v).nwritten = s.nwritten ∧
    (regWrite s i r v).rcount = s.rcount ∧
    (regWrite s i r v).handle = s.handle ∧
    (regWrite s i r v).phase = s.phase ∧
    (regWrite s i r v).groupLive = s.groupLive ∧
    (regWrite s i r v).gim = s.gim ∧
    (regWrite s i r v).clkLo = s.clkLo ∧
    (regWrite s i r v).clkHi = s.clkHi ∧
    (regWrite s i r v).clkRun = s.clkRun ∧
    (regWrite s i r v).ptVal = s.ptVal ∧
    (regWrite s i r v).ptRun = s.ptRun ∧
    (regWrite s i r v).irq = s.irq ∧
    (regWrite s i r v).agenda = s.agenda ∧
    (regWrite s i r v).free = s.free :=
  ⟨rfl, rfl, rfl, rfl, rfl, rfl, rfl, rfl, rfl, rfl, rfl, rfl, rfl, rfl, rfl, rfl, rfl, rfl, rfl, rfl, rfl⟩

@[simp] theorem mbWrite_fields (i m k : Nat) (v : Word) :
    (mbWrite s i m k v).cfg = s.cfg ∧
    (mbWrite s i m k v).cmd = s.cmd ∧
    (mbWrite s i m k v).txf = s.txf ∧
    (mbWrite s i m k v).flt = s.flt ∧
    (mbWrite s i m k v).tmo = s.tmo ∧
    (mbWrite s i m k v).rxf = s.rxf ∧
    (mbWrite s i m k v).outcome = s.outcome ∧
    (mbWrite s i m k v).nwritten = s.nwritten ∧
    (mbWrite s i m k v).rcount = s.rcount ∧
    (mbWrite s i m k v).handle = s.handle ∧
    (mbWrite s i m k v).phase = s.phase ∧
    (mbWrite s i m k v).groupLive = s.groupLive ∧
    (mbWrite s i m k v).gim = s.gim ∧
    (mbWrite s i m k v).clkLo = s.clkLo ∧
    (mbWrite s i m k v).clkHi = s.clkHi ∧
    (mbWrite s i m k v).clkRun = s.clkRun ∧
    (mbWrite s i m k v).ptVal = s.ptVal ∧
    (mbWrite s i m k v).ptRun = s.ptRun ∧
    (mbWrite s i m k v).irq = s.irq ∧
    (mbWrite s i m k v).agenda = s.agenda ∧
    (mbWrite s i m k v).free = s.free :=
  ⟨rfl, rfl, rfl, rfl, rfl, rfl, rfl, rfl, rfl, rfl, rfl, rfl, rfl, rfl, rfl, rfl, rfl, rfl, rfl, rfl, rfl⟩

@[simp] theorem push_fields (i : Nat) (f : Frame) :
    (push s i f).cfg = s.cfg ∧
    (push s i f).cmd = s.cmd ∧
    (push s i f).txf = s.txf ∧
    (push s i f).flt = s.flt ∧
    (push s i f).tmo = s.tmo ∧
    (push s i f).rxf = s.rxf ∧
    (push s i f).outcome = s.outcome ∧
    (push s i f).nwritten = s.nwritten ∧
    (push s i f).rcount = s.rcount ∧
    (push s i f).handle = s.handle ∧
    (push s i f).phase = s.phase ∧
    (push s i f).groupLive = s.groupLive ∧
    (push s i f).gim = s.gim ∧
    (push s i f).clkLo = s.clkLo ∧
    (push s i f).clkHi = s.clkHi ∧
    (push s i f).clkRun = s.clkRun ∧
    (push s i f).ptVal = s.ptVal ∧
    (push s i f).ptRun = s.ptRun ∧
    (push s i f).irq = s.irq ∧
    (push s i f).agenda = s.agenda ∧
    (push s i f).free = s.free :=
  ⟨rfl, rfl, rfl, rfl, rfl, rfl, rfl, rfl, rfl, rfl, rfl, rfl, rfl, rfl, rfl, rfl, rfl, rfl, rfl, rfl, rfl⟩

@[simp] theorem pop_fields (i : Nat) :
    (pop s i).cfg = s.cfg ∧
    (pop s i).cmd = s.cmd ∧
    (pop s i).txf = s.txf ∧
    (pop s i).flt = s.flt ∧
    (pop s i).tmo = s.tmo ∧
    (pop s i).rxf = s.rxf ∧
    (pop s i).outcome = s.outcome ∧
    (pop s i).nwritten = s.nwritten ∧
    (pop s i).rcount = s.rcount ∧
    (pop s i).handle = s.handle ∧
    (pop s i).phase = s.phase ∧
    (pop s i).groupLive = s.groupLive ∧
    (pop s i).gim = s.gim ∧
    (pop s i).clkLo = s.clkLo ∧
    (pop s i).clkHi = s.clkHi ∧
    (pop s i).clkRun = s.clkRun ∧
    (pop s i).ptVal = s.ptVal ∧
    (pop s i).ptRun = s.ptRun ∧
    (pop s i).irq = s.irq ∧
    (pop s i).agenda = s.agenda ∧
    (pop s i).free = s.free :=
  ⟨rfl, rfl, rfl, rfl, rfl, rfl, rfl, rfl, rfl, rfl, rfl, rfl, rfl, rfl, rfl, rfl, rfl, rfl, rfl, rfl, rfl⟩

@[simp] theorem setFpState_fields (i : Nat) (p : FpState) :
    (setFpState s i p).cfg = s.cfg ∧
    (setFpState s i p).cmd = s.cmd ∧
    (setFpState s i p).txf = s.txf ∧
    (setFpState s i p).flt = s.flt ∧
    (setFpState s i p).tmo = s.tmo ∧
    (setFpState s i p).rxf = s.rxf ∧
    (setFpState s i p).outcome = s.outcome ∧
    (setFpState s i p).nwritten = s.nwritten ∧
    (setFpState s i p).rcount = s.rcount ∧
    (setFpState s i p).handle = s.handle ∧
    (setFpState s i p).phase = s.phase ∧
    (setFpState s i p).groupLive = s.groupLive ∧
    (setFpState s i p).gim = s.gim ∧
    (setFpState s i p).clkLo = s.clkLo ∧
    (setFpState s i p).clkHi = s.clkHi ∧
    (setFpState s i p).clkRun = s.clkRun ∧
    (setFpState s i p).ptVal = s.ptVal ∧
    (setFpState s i p).ptRun = s.ptRun ∧
    (setFpState s i p).irq = s.irq ∧
    (setFpState s i p).agenda = s.agenda ∧
    (setFpState s i p).free = s.free :=
  ⟨rfl, rfl, rfl, rfl, rfl, rfl, rfl, rfl, rfl, rfl, rfl, rfl, rfl, rfl, rfl, rfl, rfl, rfl, rfl, rfl, rfl⟩

@[simp] theorem setLastFilters_fields (i : Nat) (fs : List FilterReg) :
    (setLastFilters s i fs).cfg = s.cfg ∧
    (setLastFilters s i fs).cmd = s.cmd ∧
    (setLastFilters s i fs).txf = s.txf ∧
    (setLastFilters s i fs).flt = s.flt ∧
    (setLastFilters s i fs).tmo = s.tmo ∧
    (setLastFilters s i fs).rxf = s.rxf ∧
    (setLastFilters s i fs).outcome = s.outcome ∧
    (setLastFilters s i fs).nwritten = s.nwritten ∧
    (setLastFilters s i fs).rcount = s.rcount ∧
    (setLastFilters s i fs).handle = s.handle ∧
    (setLastFilters s i fs).phase = s.phase ∧
    (setLastFilters s i fs).groupLive = s.groupLive ∧
    (setLastFilters s i fs).gim = s.gim ∧
    (setLastFilters s i fs).clkLo = s.clkLo ∧
    (setLastFilters s i fs).clkHi = s.clkHi ∧
    (setLastFilters s i fs).clkRun = s.clkRun ∧
    (setLastFilters s i fs).ptVal = s.ptVal ∧
    (setLastFilters s i fs).ptRun = s.ptRun ∧
    (setLastFilters s i fs).irq = s.irq ∧
    (setLastFilters s i fs).agenda = s.agenda ∧
    (setLastFilters s i fs).free = s.free :=
  ⟨rfl, rfl, rfl, rfl, rfl, rfl, rfl, rfl, rfl, rfl, rfl, rfl, rfl, rfl, rfl, rfl, rfl, rfl, rfl, rfl, rfl⟩

@[simp] theorem armMailbox_fields (i j : Nat) (cs : Word) :
    (armMailbox s i j cs).cfg = s.cfg ∧
    (armMailbox s i j cs).cmd = s.cmd ∧
    (armMailbox s i j cs).txf = s.txf ∧
    (armMailbox s i j cs).flt = s.flt ∧
    (armMailbox s i j cs).tmo = s.tmo ∧
    (armMailbox s i j cs).rxf = s.rxf ∧
    (armMailbox s i j cs).outcome = s.outcome ∧
    (armMailbox s i j cs).nwritten = s.nwritten ∧
    (armMailbox s i j cs).rcount = s.rcount ∧
    (armMailbox s i j cs).handle = s.handle ∧
    (armMailbox s i j cs).phase = s.phase ∧
    (armMailbox s i j cs).groupLive = s.groupLive ∧
    (armMailbox s i j cs).gim = s.gim ∧
    (armMailbox s i j cs).clkLo = s.clkLo ∧
    (armMailbox s i j cs).clkHi = s.clkHi ∧
    (armMailbox s i j cs).clkRun = s.clkRun ∧
    (armMailbox s i j cs).ptVal = s.ptVal ∧
    (armMailbox s i j cs).ptRun = s.ptRun ∧
    (armMailbox s i j cs).irq = s.irq ∧
    (armMailbox s i j cs).agenda = s.agenda ∧
    (armMailbox s i j cs).free = s.free :=
  ⟨rfl, rfl, rfl, rfl, rfl, rfl, rfl, rfl, rfl, rfl, rfl, rfl, rfl, rfl, rfl, rfl, rfl, rfl, rfl, rfl, rfl⟩

@[simp] theorem gateOff_fields (i : Nat) :
    (gateOff s i).cfg = s.cfg ∧
    (gateOff s i).cmd = s.cmd ∧
    (gateOff s i).txf = s.txf ∧
    (gateOff s i).flt = s.flt ∧
    (gateOff s i).tmo = s.tmo ∧
    (gateOff s i).rxf = s.rxf ∧
    (gateOff s i).outcome = s.outcome ∧
    (gateOff s i).nwritten = s.nwritten ∧
    (gateOff s i).rcount = s.rcount ∧
    (gateOff s i).handle = s.handle ∧
    (gateOff s i).phase = s.phase ∧
    (gateOff s i).groupLive = s.groupLive ∧
    (gateOff s i).gim = s.gim ∧
    (gateOff s i).clkLo = s.clkLo ∧
    (gateOff s i).clkHi = s.clkHi ∧
    (gateOff s i).clkRun = s.clkRun ∧
    (gateOff s i).ptVal = s.ptVal ∧
    (gateOff s i).ptRun = s.ptRun ∧
    (gateOff s i).irq = s.irq ∧
    (gateOff s i).agenda = s.agenda ∧
    (gateOff s i).free = s.free :=
  ⟨rfl, rfl, rfl, rfl, rfl, rfl, rfl, rfl, rfl, rfl, rfl, rfl, rfl, rfl, rfl, rfl, rfl, rfl, rfl, rfl, rfl⟩

@[simp] theorem countDiscard_fields (i : Nat) :
    (countDiscard s i).cfg = s.cfg ∧
    (countDiscard s i).cmd = s.cmd ∧
    (countDiscard s i).txf = s.txf ∧
    (countDiscard s i).flt = s.flt ∧
    (countDiscard s i).tmo = s.tmo ∧
    (countDiscard s i).rxf = s.rxf ∧
    (countDiscard s i).outcome = s.outcome ∧
    (countDiscard s i).nwritten = s.nwritten ∧
    (countDiscard s i).rcount = s.rcount ∧
    (countDiscard s i).handle = s.handle ∧
    (countDiscard s i).phase = s.phase ∧
    (countDiscard s i).groupLive = s.groupLive ∧
    (countDiscard s i).gim = s.gim ∧
    (countDiscard s i).clkLo = s.clkLo ∧
    (countDiscard s i).clkHi = s.clkHi ∧
    (countDiscard s i).clkRun = s.clkRun ∧
    (countDiscard s i).ptVal = s.ptVal ∧
    (countDiscard s i).ptRun = s.ptRun ∧
    (countDiscard s i).irq = s.irq ∧
    (countDiscard s i).agenda = s.agenda ∧
    (countDiscard s i).free = s.free :=
  ⟨rfl, rfl, rfl, rfl, rfl, rfl, rfl, rfl, rfl, rfl, rfl, rfl, rfl, rfl, rfl, rfl, rfl, rfl, rfl, rfl, rfl⟩

@[simp] theorem onEnabled_fields (i : Nat) (f : Inst → Inst) :
    (onEnabled s i f).cfg = s.cfg ∧
    (onEnabled s i f).cmd = s.cmd ∧
    (onEnabled s i f).txf = s.txf ∧
    (onEnabled s i f).flt = s.flt ∧
    (onEnabled s i f).tmo = s.tmo ∧
    (onEnabled s i f).rxf = s.rxf ∧
    (onEnabled s i f).outcome = s.outcome ∧
    (onEnabled s i f).nwritten = s.nwritten ∧
    (onEnabled s i f).rcount = s.rcount ∧
    (onEnabled s i f).handle = s.handle ∧
    (onEnabled s i f).phase = s.phase ∧
    (onEnabled s i f).groupLive = s.groupLive ∧
    (onEnabled s i f).gim = s.gim ∧
    (onEnabled s i f).clkLo = s.clkLo ∧
    (onEnabled s i f).clkHi = s.clkHi ∧
    (onEnabled s i f).clkRun = s.clkRun ∧
    (onEnabled s i f).ptVal = s.ptVal ∧
    (onEnabled s i f).ptRun = s.ptRun ∧
    (onEnabled s i f).irq = s.irq ∧
    (onEnabled s i f).agenda = s.agenda ∧
    (onEnabled s i f).free = s.free :=
  ⟨rfl, rfl, rfl, rfl, rfl, rfl, rfl, rfl, rfl, rfl, rfl, rfl, rfl, rfl, rfl, rfl, rfl, rfl, rfl, rfl, rfl⟩

@[simp] theorem regRead_fields (i : Nat) (r : ReadReg) :
    (regRead s i r).cfg = s.cfg ∧
    (regRead s i r).cmd = s.cmd ∧
    (regRead s i r).txf = s.txf ∧
    (regRead s i r).flt = s.flt ∧
    (regRead s i r).tmo = s.tmo ∧
    (regRead s i r).rxf = s.rxf ∧
    (regRead s i r).outcome = s.outcome ∧
    (regRead s i r).nwritten = s.nwritten ∧
    (regRead s i r).rcount = s.rcount ∧
    (regRead s i r).handle = s.handle ∧
    (regRead s i r).phase = s.phase ∧
    (regRead s i r).groupLive = s.groupLive ∧
    (regRead s i r).gim = s.gim ∧
    (regRead s i r).clkLo = s.clkLo ∧
    (regRead s i r).clkHi = s.clkHi ∧
    (regRead s i r).clkRun = s.clkRun ∧
    (regRead s i r).ptVal = s.ptVal ∧
    (regRead s i r).ptRun = s.ptRun ∧
    (regRead s i r).irq = s.irq ∧
    (regRead s i r).agenda = s.agenda ∧
    (regRead s i r).free = s.free := by
  cases r <;> exact ⟨rfl, rfl, rfl, rfl, rfl, rfl, rfl, rfl, rfl, rfl, rfl, rfl, rfl, rfl, rfl, rfl, rfl, rfl, rfl, rfl, rfl⟩

@[simp] theorem mbRead_fields (i m k : Nat) :
    (mbRead s i m k).cfg = s.cfg ∧
    (mbRead s i m k).cmd = s.cmd ∧
    (mbRead s i m k).txf = s.txf ∧
    (mbRead s i m k).flt = s.flt ∧
    (mbRead s i m k).tmo = s.tmo ∧
    (mbRead s i m k).rxf = s.rxf ∧
    (mbRead s i m k).outcome = s.outcome ∧
    (mbRead s i m k).nwritten = s.nwritten ∧
    (mbRead s i m k).rcount = s.rcount ∧
    (mbRead s i m k).handle = s.handle ∧
    (mbRead s i m k).phase = s.phase ∧
    (mbRead s i m k).groupLive = s.groupLive ∧
    (mbRead s i m k).gim = s.gim ∧
    (mbRead s i m k).clkLo = s.clkLo ∧
    (mbRead s i m k).clkHi = s.clkHi ∧
    (mbRead s i m k).clkRun = s.clkRun ∧
    (mbRead s i m k).ptVal = s.ptVal ∧
    (mbRead s i m k).ptRun = s.ptRun ∧
    (mbRead s i m k).irq = s.irq ∧
    (mbRead s i m k).agenda = s.agenda ∧
    (mbRead s i m k).free = s.free := by
  unfold mbRead; split <;> exact ⟨rfl, rfl, rfl, rfl, rfl, rfl, rfl, rfl, rfl, rfl, rfl, rfl, rfl, rfl, rfl, rfl, rfl, rfl, rfl, rfl, rfl⟩

/-! ## Reading an interface after an update -/


@[simp] theorem goto_inst (p : Phase) (j : Nat) : (goto s p).inst j = s.inst j := rfl

@[simp] theorem ret_inst (r : OutcomeCode) (j : Nat) : (ret s r).inst j = s.inst j := rfl

@[simp] theorem retWritten_inst (r : OutcomeCode) (n : BitVec 8) (j : Nat) : (retWritten s r n).inst j = s.inst j := rfl

@[simp] theorem retHandle_inst (r : OutcomeCode) (b : Bool) (j : Nat) : (retHandle s r b).inst j = s.inst j := rfl

@[simp] theorem reservedWord_inst  (j : Nat) : (reservedWord s).inst j = s.inst j := rfl

@[simp] theorem ptRestart_inst  (j : Nat) : (ptRestart s).inst j = s.inst j := rfl

@[simp] theorem ptPolled_inst (pt : Option Word) (j : Nat) : (ptPolled s pt).inst j = s.inst j := rfl

@[simp] theorem drawn_inst (j : Nat) : (drawn s).inst j = s.inst j := rfl

@[simp] theorem loadClock_inst (b : Bool) (j : Nat) : (loadClock s b).inst j = s.inst j := rfl

@[simp] theorem takeMove_inst  (j : Nat) : (takeMove s).inst j = s.inst j := rfl

@[simp] theorem latchCmd_inst (w : Word) (j : Nat) : (latchCmd s w).inst j = s.inst j := rfl

@[simp] theorem irqAt_inst (i : Nat) (l : IrqLabel) (j : Nat) : (irqAt s i l).inst j = s.inst j := rfl

@[simp] theorem irqEnter_inst (i : Nat) (j : Nat) : (irqEnter s i).inst j = s.inst j := rfl

@[simp] theorem irqExit_inst  (j : Nat) : (irqExit s).inst j = s.inst j := rfl


theorem inst_modInst_same {i : Nat} (h : i < s.insts.length) (f : Inst → Inst) :
    (s.modInst i f).inst i = f (s.inst i) := by
  simp [State.inst, List.getD_eq_getElem?_getD, h]

theorem inst_modInst_ne {i j : Nat} (h : j ≠ i) (f : Inst → Inst) :
    (s.modInst i f).inst j = s.inst j := by
  simp [State.inst, List.getD_eq_getElem?_getD, h.symm]

theorem modInst_inst {i j : Nat} (h : i < s.insts.length) (f : Inst → Inst) :
    (s.modInst i f).inst j = if j = i then f (s.inst i) else s.inst j := by
  split
  · next h' => rw [h', inst_modInst_same s h]
  · next h' => exact inst_modInst_ne s h' f

@[simp] theorem modInst_insts_length (i : Nat) (f : Inst → Inst) :
    (s.modInst i f).insts.length = s.insts.length := by
  simp

/-- Outside the interfaces nothing is changed. -/
theorem inst_absent {i : Nat} (h : s.insts.length ≤ i) : s.inst i = Inst.absent := by
  simp [State.inst, List.getD_eq_getElem?_getD, h]

theorem inst_mem {i : Nat} (h : i < s.insts.length) : s.inst i ∈ s.insts := by
  simp [State.inst, List.getD_eq_getElem?_getD, h]

/-- Two states with the same interfaces list read alike. -/
theorem inst_congr {s t : State} (h : s.insts = t.insts) (i : Nat) : s.inst i = t.inst i := by
  simp [State.inst, h]

/-! ## Every field of an interface after a mailbox or mask write -/

@[simp] theorem setMb_fields (x : Inst) (m k : Nat) (v : Word) :
    (x.setMb m k v).enabled = x.enabled ∧ (x.setMb m k v).mcr = x.mcr ∧
    (x.setMb m k v).status = x.status ∧ (x.setMb m k v).iflag = x.iflag ∧
    (x.setMb m k v).imask = x.imask ∧ (x.setMb m k v).timer = x.timer ∧
    (x.setMb m k v).lock = x.lock ∧ (x.setMb m k v).ram = x.ram.store (mbNo m k) v ∧
    (x.setMb m k v).fpState = x.fpState ∧ (x.setMb m k v).lastf = x.lastf ∧
    (x.setMb m k v).queue = x.queue ∧ (x.setMb m k v).discard = x.discard ∧
    (x.setMb m k v).wire = x.wire :=
  ⟨rfl, rfl, rfl, rfl, rfl, rfl, rfl, rfl, rfl, rfl, rfl, rfl, rfl⟩

@[simp] theorem setRximr_fields (x : Inst) (m : Nat) (v : Word) :
    (x.setRximr m v).enabled = x.enabled ∧ (x.setRximr m v).mcr = x.mcr ∧
    (x.setRximr m v).status = x.status ∧ (x.setRximr m v).iflag = x.iflag ∧
    (x.setRximr m v).imask = x.imask ∧ (x.setRximr m v).timer = x.timer ∧
    (x.setRximr m v).lock = x.lock ∧ (x.setRximr m v).ram = x.ram.store (rximrNo m) v ∧
    (x.setRximr m v).fpState = x.fpState ∧ (x.setRximr m v).lastf = x.lastf ∧
    (x.setRximr m v).queue = x.queue ∧ (x.setRximr m v).discard = x.discard ∧
    (x.setRximr m v).wire = x.wire :=
  ⟨rfl, rfl, rfl, rfl, rfl, rfl, rfl, rfl, rfl, rfl, rfl, rfl, rfl⟩

end Sys2Proof.Machine
end

