-- ==== Sys2Proof/Laws/InstWf.lean ====
section
/-! SUPPORT. Every change of one interface keeps what holds of an interface (Inst.Wf). -/

namespace Sys2Proof.Machine

variable {c : Config} {x : Inst}

theorem Inst.Wf.store (h : x.Wf c) {a : Nat} (ha : Stored c a) (v : Word) :
    Inst.Wf c { x with ram := x.ram.store a v } where
  canonical := store_wf h.canonical a v
  mapped := fun p hp => (mem_store hp).elim (fun e => e ▸ ha) (h.mapped p)
  iflagShape := h.iflagShape
  imaskShape := h.imaskShape
  queueBound := h.queueBound
  queueFrames := h.queueFrames
  lastfBound := h.lastfBound
  lockRange := h.lockRange

theorem Inst.Wf.setMb (h : x.Wf c) {m k : Nat} (hm : m < c.nMb) (hk : k < 18) (v : Word) :
    (x.setMb m k v).Wf c :=
  h.store (stored_mbNo hm hk) v

theorem Inst.Wf.setRximr (h : x.Wf c) {m : Nat} (hm : m < c.nMb) (v : Word) : (x.setRximr m v).Wf c :=
  h.store (stored_rximrNo hm) v

theorem Inst.Wf.setMbWords (h : x.Wf c) {m : Nat} (hm : m < c.nMb) :
    ∀ {k : Nat} {ws : List Word}, k + ws.length ≤ 18 → (x.setMbWords m k ws).Wf c := by
  intro k ws
  induction ws generalizing x k with
  | nil => intro _; exact h
  | cons w ws ih =>
    intro hk
    rw [List.length_cons] at hk
    exact ih (h.setMb hm (by omega) w) (by omega)

/-- A change that leaves the memory, the queue, LASTF, LOCK alone and keeps the flag registers' shape. -/
theorem Inst.Wf.congr (h : x.Wf c) {y : Inst} (hram : y.ram = x.ram) (hq : y.queue = x.queue)
    (hl : y.lastf = x.lastf) (hk : y.lock = x.lock) (hf : y.iflag &&& ~~~mbMask c = 0)
    (hi : y.imask &&& ~~~mbMask c = 0) : y.Wf c where
  canonical := hram ▸ h.canonical
  mapped := hram ▸ h.mapped
  iflagShape := hf
  imaskShape := hi
  queueBound := hq ▸ h.queueBound
  queueFrames := hq ▸ h.queueFrames
  lastfBound := hl ▸ h.lastfBound
  lockRange := hk ▸ h.lockRange

theorem Inst.Wf.regWritten (h : x.Wf c) {r : WriteReg} (hr : ∀ m, r = .rximr m → m < c.nMb) (v : Word) :
    (x.regWritten c r v).Wf c := by
  cases r with
  | mcr => exact h.congr rfl rfl rfl rfl h.iflagShape h.imaskShape
  | iflag => exact h.congr rfl rfl rfl rfl (within_and_left h.iflagShape) h.imaskShape
  | imask => exact h.congr rfl rfl rfl rfl h.iflagShape (within_mask v _)
  | rximr m => exact h.setRximr (hr m rfl) v

theorem Inst.Wf.setLock (h : x.Wf c) {l : Option Nat} (hl : ∀ m, l = some m → 2 ≤ m ∧ m < c.nMb) :
    Inst.Wf c { x with lock := l } where
  canonical := h.canonical
  mapped := h.mapped
  iflagShape := h.iflagShape
  imaskShape := h.imaskShape
  queueBound := h.queueBound
  queueFrames := h.queueFrames
  lastfBound := h.lastfBound
  lockRange := hl

theorem Inst.Wf.setQueue (h : x.Wf c) {q : List Frame} (hq : q.length ≤ c.qCap)
    (hf : ∀ f ∈ q, f.Wf) (d : Word) : Inst.Wf c { x with queue := q, discard := d } where
  canonical := h.canonical
  mapped := h.mapped
  iflagShape := h.iflagShape
  imaskShape := h.imaskShape
  queueBound := hq
  queueFrames := hf
  lastfBound := h.lastfBound
  lockRange := h.lockRange

theorem Inst.Wf.setLastf (h : x.Wf c) {l : List Filter} (hl : l.length ≤ c.fCap) :
    Inst.Wf c { x with lastf := l } where
  canonical := h.canonical
  mapped := h.mapped
  iflagShape := h.iflagShape
  imaskShape := h.imaskShape
  queueBound := h.queueBound
  queueFrames := h.queueFrames
  lastfBound := hl
  lockRange := h.lockRange

/-! ## Moves of ENV -/

theorem Inst.Wf.pokeWord (h : x.Wf c) (m k : Nat) (v : Word) : (x.pokeWord c m k v).Wf c := by
  unfold Inst.pokeWord
  split
  · next hc => exact h.setMb hc.1 hc.2.1 v
  · exact h

theorem Inst.Wf.raise (h : x.Wf c) (v : Word) : (x.raise c v).Wf c :=
  h.congr rfl rfl rfl rfl (within_or h.iflagShape (within_mask v _)) h.imaskShape

theorem dlc2len_le (d : BitVec 4) : dlc2len d ≤ 64 := by
  revert d
  decide

theorem nwords_dlc_le (d : BitVec 4) : nwords (dlc2len d) ≤ 16 := by
  have := dlc2len_le d
  unfold nwords ceil4
  omega

theorem setMbWords_fields (m : Nat) : ∀ (k : Nat) (ws : List Word) (x : Inst),
    (x.setMbWords m k ws).enabled = x.enabled ∧ (x.setMbWords m k ws).mcr = x.mcr ∧
    (x.setMbWords m k ws).status = x.status ∧ (x.setMbWords m k ws).iflag = x.iflag ∧
    (x.setMbWords m k ws).imask = x.imask ∧ (x.setMbWords m k ws).timer = x.timer ∧
    (x.setMbWords m k ws).lock = x.lock ∧ (x.setMbWords m k ws).fpState = x.fpState ∧
    (x.setMbWords m k ws).lastf = x.lastf ∧ (x.setMbWords m k ws).queue = x.queue ∧
    (x.setMbWords m k ws).discard = x.discard ∧ (x.setMbWords m k ws).wire = x.wire
  | _, [], x => by simp [Inst.setMbWords]
  | k, w :: ws, x => by
    have := setMbWords_fields m (k + 1) ws (x.setMb m k w)
    simpa [Inst.setMbWords] using this

theorem pack_length (p : List Byte) : (pack p).length = nwords p.length := by simp [pack]

theorem Inst.Wf.rx (h : x.Wf c) (m : Nat) (id : BitVec 29) (d : BitVec 4) (payload : List Byte)
    (brs esi srr overrun : Bool) (other : Word) :
    (x.rx c m id d payload brs esi srr overrun other).Wf c := by
  unfold Inst.rx
  split
  · next hc =>
    simp only [Inst.rxEnabled, Bool.and_eq_true, decide_eq_true_eq, beq_iff_eq] at hc
    have hm : m < c.nMb := hc.1.1.1.1.2
    have hlen : (pack payload).length ≤ 16 := by
      rw [pack_length, hc.2]
      exact nwords_dlc_le d
    have h1 : ((x.setMb m 1 (idWord id)).setMbWords m 2 (pack payload)).Wf c :=
      (h.setMb hm (by omega) _).setMbWords hm (by omega)
    have h2 := h1.setMb hm (k := 0) (by omega)
      (rxControlWord brs esi srr (rxCode (csCode (x.mb m 0)) overrun) d x.timer other)
    exact h2.congr rfl rfl rfl rfl (within_or h.iflagShape (mbBit_within hm)) h2.imaskShape
  · exact h

theorem legal_two {c : Config} (hc : c.Legal) : 2 ≤ c.nMb := by
  obtain ⟨-, -, h, -⟩ := hc
  omega

theorem Inst.Wf.tx (hc : c.Legal) (h : x.Wf c) (m : Nat) : (x.tx m).Wf c := by
  unfold Inst.tx
  split
  · next ht =>
    simp only [Inst.txEnabled, Bool.and_eq_true, decide_eq_true_eq, beq_iff_eq] at ht
    have hm : m < c.nMb := by have := legal_two hc; omega
    have h2 := h.setMb hm (k := 0) (by omega) (txDoneWord (x.mb m 0) x.timer)
    exact h2.congr rfl rfl rfl rfl (within_or h.iflagShape (mbBit_within hm)) h2.imaskShape
  · exact h

theorem Inst.Wf.report (h : x.Wf c) (vps : Bool) (other : Word) : (x.report c vps other).Wf c := by
  unfold Inst.report
  split <;> exact h.congr rfl rfl rfl rfl h.iflagShape h.imaskShape

/-- A change of the controller's own registers, flags and memory apart. -/
theorem Inst.Wf.controller (h : x.Wf c) (en : Bool) (mcr status : Word) (t : BitVec 16) (p : FpState) :
    Inst.Wf c { x with enabled := en, mcr := mcr, status := status, timer := t, fpState := p } :=
  h.congr rfl rfl rfl rfl h.iflagShape h.imaskShape

/-! ## The collaborator -/

theorem Inst.Wf.broughtUp (h : x.Wf c) (r : UpRegs) : (x.broughtUp r).Wf c :=
  h.congr rfl rfl rfl rfl h.iflagShape (by simp [Inst.broughtUp])

theorem Inst.Wf.foldl {α : Type} (f : Inst → α → Inst) (hf : ∀ x a, x.Wf c → (f x a).Wf c) :
    ∀ (l : List α) {x : Inst}, x.Wf c → (l.foldl f x).Wf c
  | [], _, h => h
  | a :: l, _, h => Inst.Wf.foldl f hf l (hf _ a h)

theorem Inst.Wf.partlyUp (h : x.Wf c) (p : PartialBringup) : (x.partlyUp c p).Wf c := by
  have h1 : (p.masks.foldl (Inst.partialMask c) x).Wf c := by
    refine Inst.Wf.foldl _ (fun y a hy => ?_) _ h
    unfold Inst.partialMask
    split
    · next hm => exact hy.setRximr hm _
    · exact hy
  have h2 : (p.words.foldl (Inst.partialWord c) (p.masks.foldl (Inst.partialMask c) x)).Wf c := by
    refine Inst.Wf.foldl _ (fun y a hy => ?_) _ h1
    unfold Inst.partialWord
    split
    · next hm => exact hy.setMb hm.1 hm.2 _
    · exact hy
  exact h2.congr rfl rfl rfl rfl (within_mask _ _) (within_mask _ _)

end Sys2Proof.Machine
end

