-- ==== Sys2Proof/Laws/ForegroundWf.lean ====
section
/-! SUPPORT. Every micro-step of the foreground keeps State.Wf: one lemma per command, over one lemma
per kind of update. -/

namespace Sys2Proof.Machine

variable {s : State}

/-! ## Kinds of update -/

theorem State.Wf.instAt (h : s.Wf) {i : Nat} (hi : i < s.cfg.nIf) : (s.inst i).Wf s.cfg :=
  h.instWf _ (inst_mem s (h.instCount.symm ▸ hi))

/-- An interface change that keeps what holds of interfaces and of the handler running there. -/
theorem State.Wf.modInst (h : s.Wf) {i : Nat} {f : Inst → Inst}
    (hf : ∀ x, x.Wf s.cfg → (f x).Wf s.cfg)
    (hr : ∀ r, s.irq = some r → r.inst = i → r.label.Wf s.cfg (f (s.inst i))) :
    (s.modInst i f).Wf where
  legal := h.legal
  instCount := by simpa using h.instCount
  fltCount := h.fltCount
  txfBytes := h.txfBytes
  rxfBytes := h.rxfBytes
  handleLive := h.handleLive
  instWf := by
    intro x hx
    obtain ⟨j, hj, rfl⟩ := List.mem_iff_getElem.1 hx
    simp only [modInst_fields, List.length_modify] at hj
    simp only [modInst_fields, List.getElem_modify]
    split
    · exact hf _ (h.instWf _ (List.getElem_mem hj))
    · exact h.instWf _ (List.getElem_mem hj)
  phaseWf := h.phaseWf
  gimIrq := h.gimIrq
  irqWf := by
    intro r hr'
    have hw := h.irqWf r hr'
    refine ⟨hw.inst, ?_⟩
    have hlen : r.inst < s.insts.length := h.instCount.symm ▸ hw.inst
    by_cases hi : r.inst = i
    · subst hi
      rw [inst_modInst_same s hlen]
      exact hr r hr' rfl
    · rw [inst_modInst_ne s hi]
      exact hw.label

/-- The same while no handler runs. -/
theorem State.Wf.modIdle (h : s.Wf) (hg : s.gim = false) {i : Nat} {f : Inst → Inst}
    (hf : ∀ x, x.Wf s.cfg → (f x).Wf s.cfg) : (s.modInst i f).Wf :=
  h.modInst hf fun r hr => by
    have := h.gimIrq
    simp [hr, hg] at this

theorem State.Wf.goto (h : s.Wf) {p : Phase} (hp : p.Wf s.cfg s.groupLive) : (goto s p).Wf where
  legal := h.legal
  instCount := h.instCount
  fltCount := h.fltCount
  txfBytes := h.txfBytes
  rxfBytes := h.rxfBytes
  handleLive := h.handleLive
  instWf := h.instWf
  phaseWf := hp
  gimIrq := h.gimIrq
  irqWf := fun r hr => ⟨(h.irqWf r hr).inst, (h.irqWf r hr).label⟩

theorem State.Wf.ret (h : s.Wf) (r : OutcomeCode) : (ret s r).Wf where
  legal := h.legal
  instCount := h.instCount
  fltCount := h.fltCount
  txfBytes := h.txfBytes
  rxfBytes := h.rxfBytes
  handleLive := h.handleLive
  instWf := h.instWf
  phaseWf := trivial
  gimIrq := h.gimIrq
  irqWf := fun r hr => ⟨(h.irqWf r hr).inst, (h.irqWf r hr).label⟩

/-- HANDLE and GROUP_LIVE written together. -/
theorem State.Wf.retGroup (h : s.Wf) (r : OutcomeCode) (b : Bool) :
    State.Wf { retHandle s r b with groupLive := b } where
  legal := h.legal
  instCount := h.instCount
  fltCount := h.fltCount
  txfBytes := h.txfBytes
  rxfBytes := h.rxfBytes
  handleLive := rfl
  instWf := h.instWf
  phaseWf := trivial
  gimIrq := h.gimIrq
  irqWf := fun r hr => ⟨(h.irqWf r hr).inst, (h.irqWf r hr).label⟩

/-- A Failure of START: HANDLE <- 0 while GROUP_LIVE is 0. -/
theorem State.Wf.retHandle (h : s.Wf) (r : OutcomeCode) (hl : s.groupLive = false) :
    (retHandle s r false).Wf := by
  have h' := h.retGroup r false
  exact ⟨h'.legal, h'.instCount, h'.fltCount, h'.txfBytes, h'.rxfBytes, hl.symm, h'.instWf, h'.phaseWf,
    h'.gimIrq, fun r hr => ⟨(h.irqWf r hr).inst, (h.irqWf r hr).label⟩⟩

theorem State.Wf.retWritten (h : s.Wf) (r : OutcomeCode) (n : BitVec 8) : (retWritten s r n).Wf :=
  let h' := h.ret r
  ⟨h'.legal, h'.instCount, h'.fltCount, h'.txfBytes, h'.rxfBytes, h'.handleLive, h'.instWf, h'.phaseWf,
    h'.gimIrq, fun r hr => ⟨(h.irqWf r hr).inst, (h.irqWf r hr).label⟩⟩

/-- Fields no invariant speaks of: the timers, the results, the agenda, the free-value counter. -/
theorem State.Wf.others (h : s.Wf) (cmd tmo : Word) (oc : OutcomeCode) (nw rc : BitVec 8)
    (lo hi : Word) (run : Bool) (pv : Word) (pr : Bool) (ag : List Move) (fr : Nat) :
    State.Wf { s with
      cmd := cmd, tmo := tmo, outcome := oc, nwritten := nw, rcount := rc, clkLo := lo, clkHi := hi,
      clkRun := run, ptVal := pv, ptRun := pr, agenda := ag, free := fr } :=
  ⟨h.legal, h.instCount, h.fltCount, h.txfBytes, h.rxfBytes, h.handleLive, h.instWf, h.phaseWf,
    h.gimIrq, fun r hr => ⟨(h.irqWf r hr).inst, (h.irqWf r hr).label⟩⟩

theorem State.Wf.ptRestart (h : s.Wf) : (ptRestart s).Wf := h.others ..

theorem State.Wf.loadClock (h : s.Wf) (b : Bool) : (loadClock s b).Wf := h.others ..

theorem State.Wf.waitState (h : s.Wf) (l : WaitLabel) : (waitState s l).Wf := by
  cases l
  · exact h.ptRestart
  · exact h
  · exact h

@[simp] theorem waitState_cfg (s : State) (l : WaitLabel) : (waitState s l).cfg = s.cfg := by
  cases l <;> rfl

@[simp] theorem waitState_groupLive (s : State) (l : WaitLabel) :
    (waitState s l).groupLive = s.groupLive := by
  cases l <;> rfl

theorem State.Wf.regWrite (h : s.Wf) (hg : s.gim = false) (i : Nat) {r : WriteReg}
    (hr : ∀ m, r = .rximr m → m < s.cfg.nMb) (v : Word) : (regWrite s i r v).Wf :=
  h.modIdle hg fun _ hx => hx.regWritten hr v

theorem State.Wf.mbWrite (h : s.Wf) (hg : s.gim = false) (i : Nat) {m k : Nat} (hm : m < s.cfg.nMb)
    (hk : k < 18) (v : Word) : (mbWrite s i m k v).Wf :=
  h.modIdle hg fun _ hx => hx.setMb hm hk v

theorem State.Wf.setFpState (h : s.Wf) (i : Nat) (p : FpState) : (setFpState s i p).Wf := by
  refine h.modInst (fun x hx => hx.congr rfl rfl rfl rfl hx.iflagShape hx.imaskShape) ?_
  rintro r hr rfl
  have := (h.irqWf r hr).label
  revert this
  cases r.label <;> exact id

/-! ## FSEQ -/

theorem fseqState_cfg (s : State) (i : Nat) (fs : List FilterReg) (hook : Bool) (l : FseqLabel) :
    (fseqState s i fs hook l).cfg = s.cfg := by
  unfold fseqState
  split <;> (try split) <;> simp

theorem fseqState_groupLive (s : State) (i : Nat) (fs : List FilterReg) (hook : Bool) (l : FseqLabel) :
    (fseqState s i fs hook l).groupLive = s.groupLive := by
  unfold fseqState
  split <;> (try split) <;> simp

theorem legal_filters {c : Config} (hc : c.Legal) {n j : Nat} (hn : n ≤ c.fCap) (hj : j < n) :
    j + 2 < c.nMb := by
  obtain ⟨-, -, h, -⟩ := hc
  omega

theorem fseqState_wf (h : s.Wf) (hg : s.gim = false) (i : Nat) {fs : List FilterReg} (hook : Bool)
    (hn : fs.length ≤ s.cfg.fCap) {l : FseqLabel} (hl : l.Wf s.cfg fs.length) :
    (fseqState s i fs hook l).Wf := by
  have hrw : ∀ (v : Word), (regWrite s i .mcr v).Wf := fun v => h.regWrite hg i (by simp) v
  cases l with
  | frz => exact h
  | frz2 v => exact (hrw _).setFpState i _
  | ack1 w =>
    simp only [fseqState]
    split
    · exact h.setFpState i _
    · exact h.waitState w
  | zmb a => exact h.mbWrite hg i (by simp only [FseqLabel.Wf] at hl; omega) (by omega) 0
  | zim m => exact h.regWrite hg i (fun m' e => by cases e; exact hl) 0
  | fm j => exact h.regWrite hg i (fun m' e => by cases e; exact legal_filters h.legal hn hl) _
  | fc j => exact h.mbWrite hg i (legal_filters h.legal hn hl) (by omega) _
  | fi j => exact h.mbWrite hg i (legal_filters h.legal hn hl) (by omega) _
  | lst => exact h.modIdle hg fun x hx => hx.setLastf (by simpa using hn)
  | hk =>
    simp only [fseqState]
    split
    · exact h.regWrite hg i (by simp) _
    · exact h
  | unf => exact h
  | unf2 v => exact (hrw _).setFpState i _
  | ack2 w => exact h.waitState w
  | rdy w =>
    simp only [fseqState]
    split
    · exact h.setFpState i _
    · exact h.waitState w

/-- Where FSEQ goes next stays inside the ranges. -/
theorem fseqProgress_wf (hc : s.cfg.Legal) (i : Nat) {fs : List FilterReg} {l l' : FseqLabel}
    (hl : l.Wf s.cfg fs.length) (hp : fseqProgress s i fs l = .more l') : l'.Wf s.cfg fs.length := by
  have h2 := legal_two hc
  cases l with
  | ack1 w =>
    simp only [fseqProgress] at hp
    split at hp <;> cases hp
    · trivial
    · simp only [FseqLabel.Wf]; omega
  | ack2 w => simp only [fseqProgress] at hp; split at hp <;> cases hp <;> trivial
  | rdy w => simp only [fseqProgress] at hp; split at hp <;> cases hp; trivial
  | zmb a => cases hp; split <;> simp only [FseqLabel.Wf] <;> omega
  | zim m =>
    cases hp
    split
    · assumption
    · unfold afterMasks
      split
      · assumption
      · trivial
  | fi j =>
    cases hp
    split
    · assumption
    · trivial
  | fm j => cases hp; exact hl
  | fc j => cases hp; exact hl
  | frz => cases hp; trivial
  | frz2 v => cases hp; trivial
  | lst => cases hp; trivial
  | hk => cases hp; trivial
  | unf => cases hp; trivial
  | unf2 v => cases hp; trivial

/-! ## The commands -/

theorem reconfigStep_wf (h : s.Wf) (hg : s.gim = false) {count : Nat} {fs : List FilterReg}
    {l : ReconfigLabel} (hp : (Phase.reconfig count fs l).Wf s.cfg s.groupLive) :
    (reconfigStep s count fs l).Wf := by
  cases l with
  | chk =>
    simp only [reconfigStep]
    split
    · exact h.ret _
    · split
      · exact h.ret _
      · split
        · next h0 => exact h.goto ⟨hp.1, h0, trivial⟩
        · exact h.ret _
  | seq i fl =>
    obtain ⟨hn, hi, hl⟩ := hp
    have hs := fseqState_wf h hg i false hn hl
    have hcfg := fseqState_cfg s i fs false fl
    simp only [reconfigStep]
    split
    · next hpr =>
      refine hs.goto ⟨hcfg ▸ hn, hcfg ▸ hi, ?_⟩
      rw [hcfg]
      exact fseqProgress_wf h.legal i hl hpr
    · exact hs.ret _
    · split
      · next h1 => exact hs.goto ⟨hcfg ▸ hn, hcfg ▸ h1, trivial⟩
      · exact hs.ret _

theorem startLoop_wf (s : State) {t : State} (hcfg : t.cfg = s.cfg) (hlive : t.groupLive = false)
    (i count : Nat) {fs : List FilterReg} (hn : fs.length ≤ s.cfg.fCap) :
    (Phase.start count fs (startLoop s i)).Wf t.cfg t.groupLive := by
  unfold startLoop
  split
  · next h => exact ⟨hcfg ▸ hn, hlive, hcfg ▸ h⟩
  · exact ⟨hcfg ▸ hn, hlive⟩

theorem restarted_wf (h : s.Wf) (hg : s.gim = false) :
    State.Wf { s with insts := s.insts.map Inst.restarted } where
  legal := h.legal
  instCount := by simpa using h.instCount
  fltCount := h.fltCount
  txfBytes := h.txfBytes
  rxfBytes := h.rxfBytes
  handleLive := h.handleLive
  instWf := by
    intro x hx
    obtain ⟨y, hy, rfl⟩ := List.mem_map.1 hx
    exact (h.instWf y hy).setQueue (Nat.zero_le _) (by simp) 0
  phaseWf := h.phaseWf
  gimIrq := h.gimIrq
  irqWf := by
    intro r hr
    have := h.gimIrq
    simp_all

theorem startStep_wf (h : s.Wf) (hg : s.gim = false) {count : Nat} {fs : List FilterReg}
    {l : StartLabel} (hp : (Phase.start count fs l).Wf s.cfg s.groupLive) :
    (startStep s count fs l).Wf := by
  cases l with
  | chk =>
    simp only [startStep]
    split
    · exact h.ret _
    · split
      · exact h.ret _
      · next hl => exact h.goto ⟨hp.1, by simpa using hl⟩
  | rst => exact (restarted_wf h hg).goto ⟨hp.1, hp.2⟩
  | clk => exact h
  | tmr => exact (h.loadClock true).goto (startLoop_wf s rfl hp.2 0 count hp.1)
  | up i => exact h
  | fp i fl =>
    obtain ⟨hn, hlive, hi, hl⟩ := hp
    have hs := fseqState_wf h hg i true hn hl
    have hcfg := fseqState_cfg s i fs true fl
    have hlv : (fseqState s i fs true fl).groupLive = false :=
      (fseqState_groupLive s i fs true fl).trans hlive
    simp only [startStep]
    split
    · next hpr =>
      refine hs.goto ⟨hcfg ▸ hn, hlv, hcfg ▸ hi, ?_⟩
      rw [hcfg]
      exact fseqProgress_wf h.legal i hl hpr
    · exact hs.retHandle _ hlv
    · exact hs.goto (startLoop_wf s hcfg hlv (i + 1) count hn)
  | live => exact h.retGroup _ true

theorem ptPolled_wf (h : s.Wf) (pt : Option Word) : (ptPolled s pt).Wf := h.others ..

theorem clockBringup_wf (h : s.Wf) (ok : Bool) (pt : Option Word) : (clockBringup s ok pt).Wf := by
  unfold clockBringup
  split
  · next count fs hph =>
    have hp := h.phaseWf
    rw [hph] at hp
    have h' := ptPolled_wf h pt
    split
    · exact h
    · split
      · exact h'.goto ⟨hp.1, hp.2⟩
      · exact h'.retHandle _ (by simpa using hp.2)
  · exact h

theorem instBringup_wf (h : s.Wf) (r : Bringup) (pt : Option Word) : (instBringup s r pt).Wf := by
  unfold instBringup
  split
  · next count fs i hph =>
    have hp := h.phaseWf
    rw [hph] at hp
    have h' := ptPolled_wf h pt
    split
    · exact h
    · next hg =>
      have hg' : (ptPolled s pt).gim = false := by simpa using hg
      split
      · next u =>
        exact (h'.modIdle hg' fun x hx => hx.broughtUp u).goto
          ⟨by simpa using hp.1, by simpa using hp.2.1, by simpa using hp.2.2, trivial⟩
      · next p =>
        exact (h'.modIdle hg' fun x hx => hx.partlyUp p).retHandle _
          (by simpa using hp.2.1)
  · exact h

theorem mcrWriteGated_wf (h : s.Wf) (hg : s.gim = false) (i : Nat) (v : Word) :
    (mcrWriteGated s i v).Wf := by
  have hw := h.regWrite hg i (r := .mcr) (by simp) v
  unfold mcrWriteGated
  split
  · exact hw
  · split
    · exact hw.others ..
    · exact h.others ..

@[simp] theorem mcrWriteGated_cfg (s : State) (i : Nat) (v : Word) :
    (mcrWriteGated s i v).cfg = s.cfg := by
  unfold mcrWriteGated
  split
  · simp
  · split <;> simp

theorem lpaState_wf (h : s.Wf) (i : Nat) (w : WaitLabel) : (lpaState s i w).Wf := by
  cases w with
  | restart => exact h.waitState .restart
  | sample =>
    simp only [lpaState]
    split
    · exact h
    · exact h.others ..
  | deadline => exact h

@[simp] theorem lpaState_cfg (s : State) (i : Nat) (w : WaitLabel) : (lpaState s i w).cfg = s.cfg := by
  cases w <;> simp only [lpaState] <;> first | rfl | (split <;> rfl)

theorem stopLoop_wf (s : State) (i : Nat) (live : Bool) :
    (Phase.stop (stopLoop s i)).Wf s.cfg live := by
  unfold stopLoop
  split
  · assumption
  · trivial

theorem stopStep_wf (h : s.Wf) (hg : s.gim = false) {l : StopLabel}
    (hp : (Phase.stop l).Wf s.cfg s.groupLive) : (stopStep s l).Wf := by
  cases l with
  | lpr i => exact h.goto hp
  | lpr2 i v => exact (mcrWriteGated_wf h hg i _).goto (by simpa [Phase.Wf] using hp)
  | lpa i w =>
    have hs := lpaState_wf h i w
    have hc := lpaState_cfg s i w
    simp only [stopStep]
    split
    · exact hs.goto (by simpa [Phase.Wf, hc] using hp)
    · exact hs.goto (by simpa [Phase.Wf, hc] using hp)
    · exact hs.ret _
  | gate i =>
    exact (h.modIdle hg fun x hx => hx.controller false x.mcr x.status x.timer x.fpState).goto
      (stopLoop_wf s (i + 1) _)
  | tmr => exact (h.loadClock false).goto trivial
  | dead => exact h.retGroup _ false

theorem writeStep_wf (h : s.Wf) (hg : s.gim = false) {inst count : Nat} {f : Frame} {l : WriteLabel}
    (hp : (Phase.write inst count f l).Wf s.cfg s.groupLive) : (writeStep s inst count f l).Wf := by
  have h2 := legal_two h.legal
  obtain ⟨hf, hl⟩ := hp
  have hnw := nwords_dlc_le f.dlc
  cases l with
  | chk =>
    simp only [writeStep]
    split
    · exact h.retWritten _ _
    · split
      · exact h.retWritten _ _
      · next hb => exact h.goto ⟨hf, by simp only [WriteLabel.Wf]; omega⟩
  | rdy =>
    simp only [writeStep]
    split
    · next hr =>
      refine h.goto ⟨hf, hl, ?_⟩
      simp only [txReady, Bool.and_eq_true, decide_eq_true_eq] at hr
      exact hr.2
    · exact h.retWritten _ _
  | idw m => exact (h.mbWrite hg inst (by have := hl.2; omega) (by omega) _).goto ⟨hf, hl⟩
  | csw m =>
    refine (h.mbWrite hg inst (by have := hl.2; omega) (by omega) _).goto ⟨hf, ?_⟩
    unfold afterControl
    split
    · next h0 => exact ⟨hl.1, hl.2, h0⟩
    · exact hl
  | dw m w =>
    obtain ⟨hi, hm, hw⟩ := hl
    refine (h.mbWrite hg inst (by omega) (by omega) _).goto ⟨hf, ?_⟩
    split
    · next h0 => exact ⟨hi, hm, h0⟩
    · exact ⟨hi, hm⟩
  | cmp m wl =>
    simp only [writeStep]
    split
    · exact (h.waitState wl).goto ⟨hf, by simpa [WriteLabel.Wf] using hl⟩
    · exact (h.waitState wl).goto ⟨hf, by simpa [WriteLabel.Wf] using hl⟩
    · exact (h.waitState wl).retWritten _ _
  | clr m => exact (h.regWrite hg inst (by simp) _).retWritten _ _

theorem rxResult_bytes (f : Frame) : (rxResult f).data.length = 64 := by
  simp [rxResult]

theorem readStep_wf (h : s.Wf) (hg : s.gim = false) {inst : Nat} {l : ReadLabel}
    (_ : (Phase.read inst l).Wf s.cfg s.groupLive) : (readStep s inst l).Wf := by
  cases l with
  | chk =>
    simp only [readStep]
    split
    · exact h.ret _
    · split
      · exact h.ret _
      · next hb => exact h.goto (by simp only [Phase.Wf]; omega)
  | pop =>
    simp only [readStep]
    split
    · exact h.ret _
    · next f hf =>
      have hw : (ret (pop s inst) .success).Wf :=
        (h.modIdle hg fun x hx => hx.setQueue (by have := hx.queueBound; simp; omega)
          (fun f hf => hx.queueFrames f (List.mem_of_mem_tail hf)) x.discard).ret _
      exact ⟨hw.legal, hw.instCount, hw.fltCount, hw.txfBytes, rxResult_bytes f, hw.handleLive, hw.instWf,
        hw.phaseWf, hw.gimIrq, fun r hr => ⟨(hw.irqWf r hr).inst, (hw.irqWf r hr).label⟩⟩

theorem scanStart_wf (s : State) (ignw : Bool) (tmo : Word) (live : Bool) :
    (Phase.select ignw tmo (scanStart s)).Wf s.cfg live := by
  unfold scanStart
  split
  · assumption
  · trivial

theorem selectStep_wf (h : s.Wf) {ignw : Bool} {tmo : Word} {l : SelectLabel}
    (hp : (Phase.select ignw tmo l).Wf s.cfg s.groupLive) : (selectStep s ignw tmo l).Wf := by
  cases l with
  | chk =>
    simp only [selectStep]
    split
    · exact h.ret _
    · exact h.goto trivial
  | restart => exact h.ptRestart.goto (scanStart_wf s ignw tmo _)
  | q i =>
    simp only [selectStep]
    split
    · exact h.ret _
    · exact h.goto hp
  | t i =>
    simp only [selectStep]
    split
    · exact h.ret _
    · refine h.goto ?_
      split
      · assumption
      · trivial
  | deadline =>
    simp only [selectStep]
    split
    · exact h.ret _
    · exact h.goto (scanStart_wf s ignw tmo _)

/-- Every micro-step of the foreground keeps State.Wf. -/
theorem fgMicro_wf (h : s.Wf) : (fgMicro s).Wf := by
  unfold fgMicro
  split
  · exact h
  · next hg =>
    have hg' : s.gim = false := by simpa using hg
    have hp := h.phaseWf
    split <;> next hph => first
      | exact h
      | exact (h.ret .success).others ..
      | rw [hph] at hp
        first
          | exact startStep_wf h hg' hp
          | exact stopStep_wf h hg' hp
          | exact writeStep_wf h hg' hp
          | exact readStep_wf h hg' hp
          | exact selectStep_wf h hp
          | exact reconfigStep_wf h hg' hp

end Sys2Proof.Machine
end

