-- ==== Sys2Proof/Laws/AgentsWf.lean ====
section
/-! SUPPORT. Every access of the handler, every move of ENV and of the host keeps State.Wf, and so does
a whole command run over any agenda. -/

namespace Sys2Proof.Machine

variable {s : State}

/-! ## The handler -/

/-- The handler of interface `i` moved on to a label whose condition holds. -/
theorem State.Wf.irqAt (h : s.Wf) {i : Nat} {l : IrqLabel} (hg : s.gim = true) (hi : i < s.cfg.nIf)
    (hl : l.Wf s.cfg (s.inst i)) : (irqAt s i l).Wf where
  legal := h.legal
  instCount := h.instCount
  fltCount := h.fltCount
  txfBytes := h.txfBytes
  rxfBytes := h.rxfBytes
  handleLive := h.handleLive
  instWf := h.instWf
  phaseWf := h.phaseWf
  gimIrq := hg
  irqWf := by
    intro r hr
    cases hr
    exact ⟨hi, hl⟩

/-- The handler of interface `i` changes its interface and moves on. -/
theorem State.Wf.irqMod (h : s.Wf) {i : Nat} {f : Inst → Inst} {l : IrqLabel} (hg : s.gim = true)
    (hi : i < s.cfg.nIf) (hf : (f (s.inst i)).Wf s.cfg) (hl : l.Wf s.cfg (f (s.inst i))) :
    (Machine.irqAt (s.modInst i f) i l).Wf where
  legal := h.legal
  instCount := by simpa using h.instCount
  fltCount := h.fltCount
  txfBytes := h.txfBytes
  rxfBytes := h.rxfBytes
  handleLive := h.handleLive
  instWf := by
    intro x hx
    have hlen : i < s.insts.length := h.instCount.symm ▸ hi
    obtain ⟨j, hj, rfl⟩ := List.mem_iff_getElem.1 hx
    simp only [irqAt_fields, modInst_fields, List.length_modify] at hj
    simp only [irqAt_fields, modInst_fields, List.getElem_modify]
    split
    · next hij =>
      subst hij
      simpa [State.inst, List.getD_eq_getElem?_getD, hlen] using hf
    · exact h.instWf _ (List.getElem_mem hj)
  phaseWf := h.phaseWf
  gimIrq := hg
  irqWf := by
    intro r hr
    cases hr
    refine ⟨hi, ?_⟩
    have hlen : i < s.insts.length := h.instCount.symm ▸ hi
    simpa [inst_modInst_same s hlen] using hl

theorem unpack_length (ws : List Word) (n : Nat) : (unpack ws n).length = n := by simp [unpack]

theorem afterWords_wf {c : Config} {x : Inst} {m : Nat} (cs : Word) (id : BitVec 29) (ws : List Word)
    (hm : Served c m) (hq : x.queue.length < c.qCap) (hl : x.lock = some m) :
    (afterWords m cs id ws).Wf c x := by
  unfold afterWords
  split
  · next h => exact ⟨hm, hq, hl, h⟩
  · exact ⟨hm, hq, hl, unpack_length _ _⟩

theorem served_lock {c : Config} (hc : c.Legal) {m : Nat} (hm : Served c m) :
    ∀ k, some m = some k → 2 ≤ k ∧ k < c.nMb := by
  obtain ⟨-, -, h, -⟩ := hc
  rintro k hk
  cases hk
  exact ⟨hm.1, by omega⟩

theorem rxirqStep_wf (h : s.Wf) {i : Nat} {l : IrqLabel} (hr : s.irq = some ⟨i, l⟩) :
    (rxirqStep s i l).Wf := by
  have hg : s.gim = true := by have := h.gimIrq; simp_all
  have hi : i < s.cfg.nIf := (h.irqWf _ hr).inst
  have hl : l.Wf s.cfg (s.inst i) := (h.irqWf _ hr).label
  have hx : (s.inst i).Wf s.cfg := h.instAt hi
  cases l with
  | flg =>
    refine h.irqAt hg hi ?_
    unfold afterFlags
    split
    · trivial
    · next hf =>
      split
      · next hq => exact ⟨served_ctz hf, hq⟩
      · exact served_ctz hf
  | csr m =>
    obtain ⟨hm, hq⟩ := hl
    have hlock := hx.setLock (served_lock h.legal hm)
    simp only [rxirqStep, mbRead]
    rw [if_pos ⟨trivial, hm.1⟩]
    refine h.irqMod hg hi hlock ?_
    split <;> simp only [IrqLabel.Wf]
    · exact ⟨hm, trivial⟩
    · exact ⟨hm, hq, trivial⟩
  | idr m cs =>
    obtain ⟨hm, hq, hk⟩ := hl
    simp only [rxirqStep, mbRead]
    rw [if_neg (by simp)]
    exact h.irqAt hg hi (afterWords_wf cs _ [] hm hq hk)
  | dr m cs id ws =>
    obtain ⟨hm, hq, hk, -⟩ := hl
    simp only [rxirqStep, mbRead]
    rw [if_neg (by simp)]
    exact h.irqAt hg hi (afterWords_wf cs id _ hm hq hk)
  | hi m c => exact h.irqAt hg hi hl
  | lo m c hw => exact h.irqAt hg hi hl
  | tmr m c clk =>
    obtain ⟨hm, hq, -, hp⟩ := hl
    exact h.irqMod hg hi (hx.setLock (by simp)) ⟨hm, hq, hp⟩
  | psh m f =>
    obtain ⟨hm, hq, hf⟩ := hl
    refine h.irqMod hg hi (hx.setQueue (by simpa using hq) ?_ (s.inst i).discard) hm
    intro g hgm
    rcases List.mem_append.1 hgm with hgm | hgm
    · exact hx.queueFrames g hgm
    · rw [List.mem_singleton.1 hgm]; exact hf
  | unl m => exact h.irqMod hg hi (hx.setLock (by simp)) hl.1
  | cnt m => exact h.irqMod hg hi (hx.setQueue hx.queueBound hx.queueFrames _) hl
  | clr m => exact h.irqMod hg hi (hx.regWritten (r := .iflag) (by simp) _) trivial
  | exit =>
    exact ⟨h.legal, h.instCount, h.fltCount, h.txfBytes, h.rxfBytes, h.handleLive, h.instWf, h.phaseWf,
      rfl, fun r hr => by simp [rxirqStep] at hr⟩

theorem irqStep_wf (h : s.Wf) : (irqStep s).Wf := by
  unfold irqStep
  split
  · exact h
  · next r hr => exact rxirqStep_wf h hr

theorem irqStart_wf (h : s.Wf) (i : Nat) : (irqStart s i).Wf := by
  unfold irqStart
  split
  · next hm =>
    simp only [irqMayStart, Bool.and_eq_true, decide_eq_true_eq] at hm
    refine ⟨h.legal, h.instCount, h.fltCount, h.txfBytes, h.rxfBytes, h.handleLive, h.instWf, h.phaseWf,
      rfl, fun r hr => ?_⟩
    cases hr
    exact ⟨hm.1.1, trivial⟩
  · exact h

/-! ## ENV -/

/-- A change of an interface that leaves its queue and its lock alone does not disturb a handler. -/
theorem IrqLabel.Wf.congr {c : Config} {x y : Inst} {l : IrqLabel} (h : l.Wf c x)
    (hq : y.queue = x.queue) (hk : y.lock = x.lock) : l.Wf c y := by
  cases l <;> simp only [IrqLabel.Wf, hq, hk] at h ⊢ <;> exact h

theorem State.Wf.onEnabled (h : s.Wf) (i : Nat) {f : Inst → Inst}
    (hf : ∀ x, x.Wf s.cfg → (f x).Wf s.cfg) (hq : ∀ x, (f x).queue = x.queue)
    (hk : ∀ x, (f x).lock = x.lock) : (onEnabled s i f).Wf := by
  refine h.modInst (fun x hx => ?_) (fun r hr _ => ?_)
  · split
    · exact hf x hx
    · exact hx
  · have hw := (h.irqWf r hr).label
    subst i
    split
    · exact hw.congr (hq _) (hk _)
    · exact hw

theorem rx_queue_lock (c : Config) (x : Inst) (m : Nat) (id : BitVec 29) (d : BitVec 4)
    (payload : List Byte) (brs esi srr overrun : Bool) (other : Word) :
    (x.rx c m id d payload brs esi srr overrun other).queue = x.queue ∧
    (x.rx c m id d payload brs esi srr overrun other).lock = x.lock := by
  unfold Inst.rx
  split
  · have h := setMbWords_fields m 2 (pack payload) (x.setMb m 1 (idWord id))
    simp [Inst.received, h]
  · simp

theorem clkTick_wf (h : s.Wf) (frozen : List Nat) : (clkTick s frozen).Wf := by
  unfold clkTick
  split
  · have key : ∀ (i : Nat) (x : Inst), (Inst.timerTick frozen i x).queue = x.queue ∧
        (Inst.timerTick frozen i x).lock = x.lock ∧ (x.Wf s.cfg → (Inst.timerTick frozen i x).Wf s.cfg) := by
      intro i x
      unfold Inst.timerTick
      split
      · exact ⟨rfl, rfl, fun hx => hx.controller x.enabled x.mcr x.status (x.timer + 1) x.fpState⟩
      · exact ⟨rfl, rfl, id⟩
    refine ⟨h.legal, by simpa using h.instCount, h.fltCount, h.txfBytes, h.rxfBytes, h.handleLive, ?_,
      h.phaseWf, h.gimIrq, fun r hr => ?_⟩
    · intro x hx
      obtain ⟨i, hi, rfl⟩ := List.mem_mapIdx.1 hx
      exact (key i _).2.2 (h.instWf _ (List.getElem_mem hi))
    · have hw := h.irqWf r hr
      refine ⟨hw.inst, ?_⟩
      have hlen : r.inst < s.insts.length := h.instCount.symm ▸ hw.inst
      have hl := hw.label
      simp only [State.inst, List.getD_eq_getElem?_getD, List.getElem?_mapIdx,
        List.getElem?_eq_getElem hlen, Option.map_some, Option.getD_some] at hl ⊢
      exact hl.congr (key _ _).1 (key _ _).2.1
  · exact h

/-- Every move of ENV keeps State.Wf. -/
theorem envMove_wf (h : s.Wf) (e : EnvMove) : (envMove s e).Wf := by
  cases e with
  | ack i a b c =>
    exact h.onEnabled i (fun x hx => hx.controller x.enabled _ x.status x.timer x.fpState)
      (fun _ => rfl) (fun _ => rfl)
  | status i v =>
    exact h.onEnabled i (fun x hx => hx.controller x.enabled x.mcr v x.timer x.fpState)
      (fun _ => rfl) (fun _ => rfl)
  | raise i v => exact h.onEnabled i (fun x hx => hx.raise v) (fun _ => rfl) (fun _ => rfl)
  | timer i v =>
    exact h.onEnabled i (fun x hx => hx.controller x.enabled x.mcr x.status v x.fpState)
      (fun _ => rfl) (fun _ => rfl)
  | word i m k v =>
    refine h.onEnabled i (fun x hx => hx.pokeWord m k v) (fun x => ?_) (fun x => ?_) <;>
      · unfold Inst.pokeWord; split <;> simp
  | clock lo hi =>
    simp only [envMove]
    split
    · exact h.others ..
    · exact h
  | poll v =>
    simp only [envMove]
    split
    · exact h.others ..
    · exact h
  | clkTick frozen => exact clkTick_wf h frozen
  | ptTick =>
    simp only [envMove, ptTick]
    split
    · exact h.others ..
    · exact h
  | rx i m id d payload brs esi srr overrun other =>
    exact h.onEnabled i (fun x hx => hx.rx m id d payload brs esi srr overrun other)
      (fun x => (rx_queue_lock ..).1) (fun x => (rx_queue_lock ..).2)
  | tx i m =>
    refine h.onEnabled i (fun x hx => hx.tx h.legal m) (fun x => ?_) (fun x => ?_) <;>
      · unfold Inst.tx; split <;> simp [Inst.sent]
  | freezeAck i =>
    refine h.onEnabled i (fun x hx => ?_) (fun x => ?_) (fun x => ?_)
    · unfold Inst.freezeAck
      split
      · exact hx.controller x.enabled _ x.status x.timer x.fpState
      · exact hx
    all_goals unfold Inst.freezeAck; split <;> rfl
  | freezeLeave i ready =>
    refine h.onEnabled i (fun x hx => ?_) (fun x => ?_) (fun x => ?_)
    · unfold Inst.freezeLeave
      split
      · exact hx
      · exact hx.controller x.enabled _ x.status x.timer x.fpState
    all_goals unfold Inst.freezeLeave; split <;> rfl
  | ready i =>
    refine h.onEnabled i (fun x hx => ?_) (fun x => ?_) (fun x => ?_)
    · unfold Inst.becomeReady
      split
      · exact hx
      · exact hx.controller x.enabled _ x.status x.timer x.fpState
    all_goals unfold Inst.becomeReady; split <;> rfl
  | lpAck i =>
    refine h.onEnabled i (fun x hx => ?_) (fun x => ?_) (fun x => ?_)
    · unfold Inst.lpAck
      split
      · exact hx.controller x.enabled _ x.status x.timer x.fpState
      · exact hx
    all_goals unfold Inst.lpAck; split <;> rfl
  | report i vps other =>
    refine h.onEnabled i (fun x hx => hx.report vps other) (fun x => ?_) (fun x => ?_) <;>
      · unfold Inst.report; split <;> rfl

/-! ## The host, and all moves -/

theorem setTxfData_length {old bytes : List Byte} (h : old.length = 64) :
    (setTxfData old bytes).length = 64 := by
  simp [setTxfData, h]
  omega

theorem hostMove_wf (h : s.Wf) (m : HostMove) : (hostMove s m).Wf := by
  unfold hostMove
  split
  · split
    · exact h
    · exact ⟨h.legal, h.instCount, h.fltCount, setTxfData_length h.txfBytes, h.rxfBytes, h.handleLive,
        h.instWf, h.phaseWf, h.gimIrq, fun r hr => ⟨(h.irqWf r hr).inst, (h.irqWf r hr).label⟩⟩
    · exact ⟨h.legal, h.instCount, by simpa using h.fltCount, h.txfBytes, h.rxfBytes, h.handleLive,
        h.instWf, h.phaseWf, h.gimIrq, fun r hr => ⟨(h.irqWf r hr).inst, (h.irqWf r hr).label⟩⟩
    · exact h.others ..
  · exact h

/-- Every move of every agent keeps State.Wf. -/
theorem applyMove_wf (h : s.Wf) (m : Move) : (applyMove m s).Wf := by
  cases m with
  | fg => exact fgMicro_wf h
  | irqStart i => exact irqStart_wf h i
  | irq => exact irqStep_wf h
  | clockBringup ok pt => exact clockBringup_wf h ok pt
  | instBringup r pt => exact instBringup_wf h r pt
  | env e => exact envMove_wf h e
  | host m => exact hostMove_wf h m

/-- A command run over any moves keeps State.Wf. -/
theorem drive_wf : ∀ (ms : List Move) {s : State}, s.Wf → (drive ms s).Wf
  | [], _, h => h.others ..
  | m :: ms, s, h => by
    unfold drive
    split
    · exact h.others ..
    · exact drive_wf ms (applyMove_wf h m)

end Sys2Proof.Machine
end

