-- ==== Sys2Proof/Laws/Run.lean ====
section
/-! SUPPORT. Running a command: one move at a time (drive), and the FilterProgrammer's sequence as a
whole (R272), from which the completion statements of START and RECONFIG follow. -/

namespace Sys2Proof.Machine

/-! ## One move of drive -/

theorem drive_cons {m : Move} {ms : List Move} {s : State} (h : s.phase ≠ .idle) :
    drive (m :: ms) s = drive ms (applyMove m s) := by
  simp [drive, h]

theorem drive_idle {s : State} (h : s.phase = .idle) (ms : List Move) :
    drive ms s = { s with agenda := ms } := by
  cases ms <;> simp [drive, h]

theorem drive_fg {ms : List Move} {s : State} (h : s.phase ≠ .idle) :
    drive (.fg :: ms) s = drive ms (fgMicro s) := drive_cons h

theorem drive_env {e : EnvMove} {ms : List Move} {s : State} (h : s.phase ≠ .idle) :
    drive (.env e :: ms) s = drive ms (envMove s e) := drive_cons h

theorem fgs_succ (n : Nat) : fgs (n + 1) = .fg :: fgs n := rfl

theorem fgs_add (a b : Nat) : fgs (a + b) = fgs a ++ fgs b := List.replicate_add a b _

theorem issue_ready {s : State} (h : s.Ready) (p : Phase) :
    issue s p = drive s.agenda (goto s p) := by
  simp [issue, h]

/-- `n` poll-timer ticks while a command is in flight and the timer has not run out (R364). -/
theorem ptTicks_run {rest : List Move} : ∀ (n : Nat) {s : State}, s.phase ≠ .idle → s.ptRun = true →
    n ≤ s.ptVal.toNat →
    drive (ptTicks n ++ rest) s = drive rest { s with ptVal := s.ptVal - BitVec.ofNat 32 n }
  | 0, s, _, _, _ => by
    show drive rest s = _
    congr
    simp
  | n + 1, s, hp, hr, hn => by
    have hlt := s.ptVal.isLt
    have hne : s.ptVal ≠ 0 := by
      intro h
      simp [h] at hn
    have e : ptTicks (n + 1) ++ rest = .env .ptTick :: (ptTicks n ++ rest) := rfl
    have ht : envMove s .ptTick = { s with ptVal := s.ptVal - 1#32 } := by
      simp only [envMove, ptTick]
      rw [if_pos ⟨hr, hne⟩]
      rfl
    have h1 : (1#32).toNat = 1 := rfl
    rw [e, drive_env hp, ht, ptTicks_run n (s := { s with ptVal := s.ptVal - 1#32 }) hp hr]
    · congr 2
      apply BitVec.eq_of_toNat_eq
      simp only [BitVec.toNat_sub, h1, BitVec.toNat_ofNat n, BitVec.toNat_ofNat (n + 1)]
      omega
    · simp only [BitVec.toNat_sub, h1]
      omega

/-! ## Changes of one interface -/

theorem modInst_modInst (s : State) (i : Nat) (f g : Inst → Inst) :
    (s.modInst i f).modInst i g = s.modInst i (fun x => g (f x)) := by
  simp only [State.modInst, List.modify_modify_eq]
  rfl

theorem modInst_congr (s : State) {i : Nat} {f g : Inst → Inst} (h : f (s.inst i) = g (s.inst i)) :
    s.modInst i f = s.modInst i g := by
  simp only [State.modInst]
  congr 1
  apply List.ext_getElem
  · simp
  · intro j h1 h2
    simp only [List.getElem_modify]
    split
    · next hij =>
      subst hij
      simp only [List.length_modify] at h1
      simpa [State.inst, List.getD_eq_getElem?_getD, h1] using h
    · rfl

theorem modInst_id (s : State) (i : Nat) : s.modInst i (fun x => x) = s := by
  simp only [State.modInst]
  have : s.insts.modify i (fun x => x) = s.insts := List.modify_id i s.insts
  rw [this]

/-! ## WAIT -/

theorem waitProgress_deadline (s : State) (i : Nat) (r : PollReg) (mask : Word) (target : Bool) (T : Nat) :
    waitProgress s i r mask target T .deadline = if T < elapsed s then .failure else .more .sample := by
  simp only [waitProgress, pollProgress, decide_eq_true_eq]

theorem waitProgress_sample (s : State) (i : Nat) (r : PollReg) (mask : Word) (target : Bool) (T : Nat) :
    waitProgress s i r mask target T .sample =
      if holds (sampleVal s i r) mask target then .success else .more .deadline := rfl

/-! ## FSEQ inside a command -/

/-- A command that runs FSEQ: each micro-step of FSEQ is one of FG, at the phase `wrap` gives it. -/
structure FseqCtx (wrap : FseqLabel → Phase) (i : Nat) (fs : List FilterReg) (hook : Bool) : Prop where
  busy : ∀ l, wrap l ≠ .idle
  more : ∀ {s : State} {l l' : FseqLabel}, s.gim = false → s.phase = wrap l →
    fseqProgress s i fs l = .more l' → fgMicro s = goto (fseqState s i fs hook l) (wrap l')

theorem startCtx (count : Nat) (fs : List FilterReg) (i : Nat) :
    FseqCtx (fun l => .start count fs (.fp i l)) i fs true where
  busy := by simp
  more := by
    intro s l l' hg hp hl
    simp [fgMicro, hg, hp, startStep, hl]

theorem reconfigCtx (count : Nat) (fs : List FilterReg) (i : Nat) :
    FseqCtx (fun l => .reconfig count fs (.seq i l)) i fs false where
  busy := by simp
  more := by
    intro s l l' hg hp hl
    simp [fgMicro, hg, hp, reconfigStep, hl]

section Fseq

variable {wrap : FseqLabel → Phase} {i : Nat} {fs : List FilterReg} {hook : Bool}
  (C : FseqCtx wrap i fs hook) {s : State} {rest : List Move}

include C

theorem FseqCtx.run (hg : s.gim = false) {l l' : FseqLabel} (f : Inst → Inst)
    (hl : fseqProgress (goto (s.modInst i f) (wrap l)) i fs l = .more l') :
    drive (.fg :: rest) (goto (s.modInst i f) (wrap l)) =
      drive rest (goto (fseqState (goto (s.modInst i f) (wrap l)) i fs hook l) (wrap l')) := by
  rw [drive_fg (C.busy l)]
  congr 1
  exact C.more hg rfl hl

end Fseq

/-! ### The Frozen rewrite -/

/-- `k` mailbox words zeroed from flat index `a` on (R275). -/
def Inst.zeroWords : Nat → Nat → Inst → Inst
  | _, 0, x => x
  | a, k + 1, x => Inst.zeroWords (a + 1) k (x.setMb (a / 18) (a % 18) 0)

/-- `k` masks zeroed from mailbox `m` on (R276). -/
def Inst.zeroMasks : Nat → Nat → Inst → Inst
  | _, 0, x => x
  | m, k + 1, x => Inst.zeroMasks (m + 1) k (x.setRximr m 0)

/-- The three writes of filter `j` (R277). -/
def Inst.programOne (fs : List FilterReg) (j : Nat) (x : Inst) : Inst :=
  ((x.setRximr (j + 2) (cut29 (filterAt fs j).mask)).setMb (j + 2) 0 rxcsWord).setMb (j + 2) 1
    (cut29 (filterAt fs j).id)

/-- `k` filters programmed from filter `j` on (R277). -/
def Inst.programFilters (fs : List FilterReg) : Nat → Nat → Inst → Inst
  | _, 0, x => x
  | j, k + 1, x => Inst.programFilters fs (j + 1) k (x.programOne fs j)

section Rewrite

variable {wrap : FseqLabel → Phase} {i : Nat} {fs : List FilterReg} {hook : Bool}
  (C : FseqCtx wrap i fs hook) {s : State} {rest : List Move}

include C

theorem FseqCtx.zmb_run (hg : s.gim = false) : ∀ (k a : Nat) (f : Inst → Inst),
    a + (k + 1) = 18 * s.cfg.nMb →
    drive (fgs (k + 1) ++ rest) (goto (s.modInst i f) (wrap (.zmb a))) =
      drive rest (goto (s.modInst i (fun x => Inst.zeroWords a (k + 1) (f x))) (wrap (.zim 0)))
  | 0, a, f, h => by
    rw [fgs_succ, List.cons_append, C.run hg (l' := .zim 0) f (by simp [fseqProgress]; omega)]
    show drive rest (goto (((s.modInst i f)).modInst i _) _) = _
    rw [modInst_modInst]
    rfl
  | k + 1, a, f, h => by
    rw [fgs_succ, List.cons_append, C.run hg (l' := .zmb (a + 1)) f (by simp [fseqProgress]; omega)]
    show drive _ (goto (((s.modInst i f)).modInst i _) _) = _
    rw [modInst_modInst, FseqCtx.zmb_run hg k (a + 1) _ (by omega)]
    rfl

theorem FseqCtx.zim_run (hg : s.gim = false) : ∀ (k m : Nat) (f : Inst → Inst),
    m + (k + 1) = s.cfg.nMb →
    drive (fgs (k + 1) ++ rest) (goto (s.modInst i f) (wrap (.zim m))) =
      drive rest (goto (s.modInst i (fun x => Inst.zeroMasks m (k + 1) (f x))) (wrap (afterMasks fs)))
  | 0, m, f, h => by
    rw [fgs_succ, List.cons_append, C.run hg (l' := afterMasks fs) f (by simp [fseqProgress]; omega)]
    show drive rest (goto (((s.modInst i f)).modInst i _) _) = _
    rw [modInst_modInst]
    rfl
  | k + 1, m, f, h => by
    rw [fgs_succ, List.cons_append, C.run hg (l' := .zim (m + 1)) f (by simp [fseqProgress]; omega)]
    show drive _ (goto (((s.modInst i f)).modInst i _) _) = _
    rw [modInst_modInst, FseqCtx.zim_run hg k (m + 1) _ (by omega)]
    rfl

theorem FseqCtx.filter_run (hg : s.gim = false) : ∀ (k j : Nat) (f : Inst → Inst),
    j + (k + 1) = fs.length →
    drive (fgs (3 * (k + 1)) ++ rest) (goto (s.modInst i f) (wrap (.fm j))) =
      drive rest (goto (s.modInst i (fun x => Inst.programFilters fs j (k + 1) (f x))) (wrap .lst)) := by
  have one : ∀ (j : Nat) (f : Inst → Inst) (l' : FseqLabel) (rest : List Move),
      (if j + 1 < fs.length then FseqLabel.fm (j + 1) else .lst) = l' →
      drive (.fg :: .fg :: .fg :: rest) (goto (s.modInst i f) (wrap (.fm j))) =
        drive rest (goto (s.modInst i (fun x => Inst.programOne fs j (f x))) (wrap l')) := by
    intro j f l' rest h
    rw [C.run hg (l' := .fc j) f rfl]
    show drive _ (goto (((s.modInst i f)).modInst i _) _) = _
    rw [modInst_modInst, C.run hg (l' := .fi j) _ rfl]
    show drive _ (goto (((s.modInst i _)).modInst i _) _) = _
    rw [modInst_modInst, C.run hg (l' := l') _ (by simp [fseqProgress, h])]
    show drive _ (goto (((s.modInst i _)).modInst i _) _) = _
    rw [modInst_modInst]
    rfl
  intro k
  induction k with
  | zero =>
    intro j f h
    exact one j f .lst rest (by simp; omega)
  | succ k ih =>
    intro j f h
    have : fgs (3 * (k + 1 + 1)) ++ rest = .fg :: .fg :: .fg :: (fgs (3 * (k + 1)) ++ rest) := by
      have : 3 * (k + 1 + 1) = 3 * (k + 1) + 1 + 1 + 1 := by omega
      rw [this]; rfl
    rw [this, one j f (.fm (j + 1)) _ (by simp; omega), ih (j + 1) _ (by omega)]
    rfl

/-- From `zim` to `lst:`, filters or none. -/
theorem FseqCtx.filters_run (hg : s.gim = false) (f : Inst → Inst) :
    drive (fgs (3 * fs.length) ++ rest) (goto (s.modInst i f) (wrap (afterMasks fs))) =
      drive rest (goto (s.modInst i (fun x => Inst.programFilters fs 0 fs.length (f x))) (wrap .lst)) := by
  unfold afterMasks
  split
  · next h =>
    obtain ⟨k, hk⟩ : ∃ k, fs.length = k + 1 := ⟨fs.length - 1, by omega⟩
    rw [hk]
    exact C.filter_run hg k 0 f (by omega)
  · next h =>
    have : fs.length = 0 := by omega
    rw [this]
    rfl

end Rewrite

/-! ### The rewrite changes only the memory -/

/-- `Inst.zeroWords` on the memory. -/
def Memory.zeroWords : Nat → Nat → Memory → Memory
  | _, 0, m => m
  | a, k + 1, m => Memory.zeroWords (a + 1) k (m.store (mbNo (a / 18) (a % 18)) 0)

/-- `Inst.zeroMasks` on the memory. -/
def Memory.zeroMasks : Nat → Nat → Memory → Memory
  | _, 0, m => m
  | a, k + 1, m => Memory.zeroMasks (a + 1) k (m.store (rximrNo a) 0)

/-- `Inst.programOne` on the memory. -/
def Memory.programOne (fs : List FilterReg) (j : Nat) (m : Memory) : Memory :=
  ((m.store (rximrNo (j + 2)) (cut29 (filterAt fs j).mask)).store (mbNo (j + 2) 0) rxcsWord).store
    (mbNo (j + 2) 1) (cut29 (filterAt fs j).id)

/-- `Inst.programFilters` on the memory. -/
def Memory.programFilters (fs : List FilterReg) : Nat → Nat → Memory → Memory
  | _, 0, m => m
  | j, k + 1, m => Memory.programFilters fs (j + 1) k (m.programOne fs j)

theorem zeroWords_eq : ∀ (k a : Nat) (x : Inst),
    Inst.zeroWords a k x = { x with ram := Memory.zeroWords a k x.ram }
  | 0, _, _ => rfl
  | k + 1, a, _ => zeroWords_eq k (a + 1) _

theorem zeroMasks_eq : ∀ (k a : Nat) (x : Inst),
    Inst.zeroMasks a k x = { x with ram := Memory.zeroMasks a k x.ram }
  | 0, _, _ => rfl
  | k + 1, a, _ => zeroMasks_eq k (a + 1) _

theorem programFilters_eq (fs : List FilterReg) : ∀ (k j : Nat) (x : Inst),
    Inst.programFilters fs j k x = { x with ram := Memory.programFilters fs j k x.ram }
  | 0, _, _ => rfl
  | k + 1, j, _ => programFilters_eq fs k (j + 1) _

/-- The memory after the Frozen rewrite (R275 to R277). -/
def Memory.rewritten (c : Config) (fs : List FilterReg) (m : Memory) : Memory :=
  Memory.programFilters fs 0 fs.length (Memory.zeroMasks 0 c.nMb (Memory.zeroWords 0 (18 * c.nMb) m))

/-- MCR in freeze mode, the request made and acknowledged (R273, R371). -/
def frozenMcr (v : Word) : Word := mcrWritten v (v ||| freezeBits) ||| (frzackBit ||| notrdyBit)

/-- MCR after the unfreeze request (R283). -/
def unfrozenMcr (v : Word) : Word := mcrWritten (frozenMcr v) (frozenMcr v &&& ~~~freezeBits)

/-- IMASK after the hook (R282). -/
def hookedMask (c : Config) (hook : Bool) (v : Word) : Word := if hook then rxValid c &&& mbMask c else v

/-- An interface at `ack2:`, rewritten, the unfreeze requested and not yet acknowledged. -/
def Inst.awaitingUnfreeze (c : Config) (fs : List FilterReg) (hook : Bool) (x : Inst) : Inst :=
  { x with
    mcr := unfrozenMcr x.mcr
    imask := hookedMask c hook x.imask
    ram := Memory.rewritten c fs x.ram
    fpState := .unfreezing
    lastf := fs.map cutFilter }

/-- An interface after a whole FSEQ (R270, R278). -/
def Inst.refiltered (c : Config) (fs : List FilterReg) (hook : Bool) (x : Inst) : Inst :=
  { Inst.awaitingUnfreeze c fs hook x with
    mcr := unfrozenMcr x.mcr &&& ~~~(frzackBit ||| notrdyBit)
    fpState := .active }

theorem regVal_modInst {s : State} {i : Nat} (hi : i < s.insts.length) (f : Inst → Inst) (p : Phase)
    (r : ReadReg) : regVal (goto (s.modInst i f) p) i r = (f (s.inst i)).reg r := by
  simp [regVal, inst_modInst_same s hi]

/-! ### FSEQ as a whole -/

theorem freezeBits_requested (old v : Word) (x : Inst) (h : x.mcr = mcrWritten old (v ||| freezeBits)) :
    x.freezeRequested = true := by
  have e1 : mcrWritten old (v ||| freezeBits) &&& haltBit = haltBit := by
    ext b hb
    simp only [mcrWritten, BitVec.getElem_and, BitVec.getElem_or, BitVec.getElem_not]
    have : b < 32 := hb
    interval_cases b <;> simp [ackBits, freezeBits, haltBit, frzBit, notrdyBit, frzackBit, lpmackBit]
  have e2 : mcrWritten old (v ||| freezeBits) &&& frzBit = frzBit := by
    ext b hb
    simp only [mcrWritten, BitVec.getElem_and, BitVec.getElem_or, BitVec.getElem_not]
    have : b < 32 := hb
    interval_cases b <;> simp [ackBits, freezeBits, haltBit, frzBit, notrdyBit, frzackBit, lpmackBit]
  simp only [Inst.freezeRequested, anySet, h, e1, e2]
  decide

theorem anySet_or_left (v a b : Word) (h : a != 0 := by decide) : anySet (v ||| (a ||| b)) a = true := by
  have : (v ||| (a ||| b)) &&& a = a := by
    ext i hi
    simp only [BitVec.getElem_and, BitVec.getElem_or]
    cases v[i] <;> cases a[i] <;> simp
  simpa [anySet, this] using h

section Whole

variable {wrap : FseqLabel → Phase} {i : Nat} {fs : List FilterReg} {hook : Bool}
  (C : FseqCtx wrap i fs hook) {s : State} {rest : List Move}

include C

/-- FSEQ to `ack2:` with the freeze acknowledged in time (R272, R273, R275 to R283). -/
theorem FseqCtx.rewrite_run (hg : s.gim = false) (hi : i < s.insts.length) (f : Inst → Inst)
    (hen : (f (s.inst i)).enabled = true) (hmb : 0 < s.cfg.nMb) :
    drive (rewriteMoves s.cfg i fs.length ++ rest) (goto (s.modInst i f) (wrap .frz)) =
      drive rest (goto ((ptRestart s).modInst i fun x => (f x).awaitingUnfreeze s.cfg fs hook)
        (wrap (.ack2 .sample))) := by
  have hx : ∀ g : Inst → Inst, ∀ p, (goto (s.modInst i g) p).inst i = g (s.inst i) := fun g p => by
    simp [inst_modInst_same s hi]
  set x := f (s.inst i) with hxdef
  -- frz, frz2, restart
  have e : rewriteMoves s.cfg i fs.length ++ rest =
      .fg :: .fg :: .fg :: .env (.freezeAck i) :: .fg ::
        (fgs (18 * s.cfg.nMb) ++ (fgs s.cfg.nMb ++ (fgs (3 * fs.length) ++
          (.fg :: .fg :: .fg :: .fg :: .fg :: rest)))) := by
    have : 6 + 19 * s.cfg.nMb + 3 * fs.length =
        1 + (18 * s.cfg.nMb + (s.cfg.nMb + (3 * fs.length + 5))) := by omega
    simp only [rewriteMoves, this, fgs_add]
    simp [fgs]
  rw [e, C.run hg (l' := .frz2 x.mcr) f (by simp [fseqProgress, regVal_modInst hi, Inst.reg, hxdef])]
  show drive _ (goto (s.modInst i f) _) = _
  rw [C.run hg (l' := .ack1 .restart) f rfl]
  show drive _ (goto ((((s.modInst i f).modInst i _)).modInst i _) _) = _
  rw [modInst_modInst, modInst_modInst]
  rw [C.run hg (l' := .ack1 .sample) _ rfl]
  show drive _ (goto (((ptRestart s).modInst i _)) _) = _
  -- the acknowledge
  rw [drive_env (C.busy _)]
  show drive _ (goto (((ptRestart s).modInst i _).modInst i _) (wrap (.ack1 .sample))) = _
  rw [modInst_modInst]
  have hs : (ptRestart s).inst i = s.inst i := rfl
  have hi' : i < (ptRestart s).insts.length := hi
  rw [modInst_congr (ptRestart s) (g := fun y =>
    { f y with mcr := frozenMcr x.mcr, fpState := .freezing })]
  swap
  · have hr : ({ f (s.inst i) with
          mcr := mcrWritten (f (s.inst i)).mcr (x.mcr ||| freezeBits), fpState := .freezing } : Inst).freezeRequested
        = true := freezeBits_requested x.mcr x.mcr _ rfl
    simp only [hs, Inst.regWritten, Inst.freezeAck, hr]
    rw [← hxdef, hen]
    simp [frozenMcr]
  have hack : anySet (frozenMcr x.mcr) frzackBit = true := anySet_or_left _ _ _
  have hmcr : ∀ (q : State) (hq : i < q.insts.length) (g : Inst → Inst) (p : Phase),
      regVal (goto (q.modInst i g) p) i .mcr = (g (q.inst i)).mcr := fun q hq g p => by
    rw [regVal_modInst hq]; rfl
  have hp1 : waitProgress (goto ((ptRestart s).modInst i (fun y =>
      { f y with mcr := frozenMcr x.mcr, fpState := .freezing })) (wrap (.ack1 .sample))) i .mcr frzackBit true
      s.cfg.pollDefaultTicks .sample = .success := by
    simp only [waitProgress, pollProgress, sampleVal, hmcr (ptRestart s) hi', holds, hack]
    rfl
  rw [C.run (s := ptRestart s) hg (l' := .zmb 0)]
  swap
  · simp only [fseqProgress]
    show (match waitProgress _ i .mcr frzackBit true s.cfg.pollDefaultTicks .sample with
      | .more w' => _ | .success => _ | .failure => _) = _
    rw [hp1]
  have hst : fseqState (goto ((ptRestart s).modInst i (fun y =>
      { f y with mcr := frozenMcr x.mcr, fpState := .freezing })) (wrap (.ack1 .sample))) i fs hook (.ack1 .sample) =
      setFpState (goto ((ptRestart s).modInst i (fun y =>
      { f y with mcr := frozenMcr x.mcr, fpState := .freezing })) (wrap (.ack1 .sample))) i .frozen := by
    simp only [fseqState]
    show (match waitProgress _ i .mcr frzackBit true s.cfg.pollDefaultTicks .sample with
      | .success => _ | _ => _) = _
    rw [hp1]
  rw [hst]
  show drive _ (goto (((ptRestart s).modInst i _).modInst i _) _) = _
  rw [modInst_modInst]
  -- the rewrite
  obtain ⟨k, hk⟩ : ∃ k, 18 * s.cfg.nMb = k + 1 := ⟨18 * s.cfg.nMb - 1, by omega⟩
  obtain ⟨k', hk'⟩ : ∃ k, s.cfg.nMb = k + 1 := ⟨s.cfg.nMb - 1, by omega⟩
  have hz := fun rest f => C.zmb_run (s := ptRestart s) (rest := rest) hg k 0 f
    (by rw [Nat.zero_add]; exact hk.symm)
  have hm := fun rest f => C.zim_run (s := ptRestart s) (rest := rest) hg k' 0 f
    (by rw [Nat.zero_add]; exact hk'.symm)
  rw [← hk] at hz
  rw [← hk'] at hm
  rw [hz, hm, C.filters_run (s := ptRestart s) hg]
  -- lst, hk, unf, unf2, restart
  rw [C.run (s := ptRestart s) hg (l' := .hk) _ rfl]
  show drive _ (goto (((ptRestart s).modInst i _).modInst i _) _) = _
  rw [modInst_modInst, C.run (s := ptRestart s) hg (l' := .unf) _ rfl]
  have hhk : ∀ g : Inst → Inst, fseqState (goto ((ptRestart s).modInst i g) (wrap .hk)) i fs hook .hk =
      goto ((ptRestart s).modInst i fun y => { g y with imask := hookedMask s.cfg hook (g y).imask }) (wrap .hk) := by
    intro g
    cases hook with
    | false => rfl
    | true =>
      show goto (((ptRestart s).modInst i g).modInst i _) _ = _
      rw [modInst_modInst]
      rfl
  rw [hhk]
  show drive _ (goto ((ptRestart s).modInst i _) _) = _
  rw [C.run (s := ptRestart s) hg (l' := .unf2 (frozenMcr x.mcr))]
  swap
  · simp only [fseqProgress, hmcr (ptRestart s) hi', programFilters_eq, zeroMasks_eq, zeroWords_eq]
  show drive _ (goto ((ptRestart s).modInst i _) _) = _
  rw [C.run (s := ptRestart s) hg (l' := .ack2 .restart) _ rfl]
  show drive _ (goto (((((ptRestart s).modInst i _)).modInst i _).modInst i _) _) = _
  rw [modInst_modInst, modInst_modInst, C.run (s := ptRestart s) hg (l' := .ack2 .sample) _ rfl]
  show drive _ (goto (((ptRestart s).modInst i _)) _) = _
  congr 2
  apply modInst_congr
  simp only [programFilters_eq, zeroMasks_eq, zeroWords_eq, Inst.regWritten, Inst.awaitingUnfreeze, hs]
  rfl

/-- The end of FSEQ from `ack2:`, the unfreeze acknowledged in time (R283): the last micro-step, which
`finish` closes, makes the interface Active. -/
theorem FseqCtx.unfreeze_run (hg : s.gim = false) (hi : i < s.insts.length) (f : Inst → Inst)
    (hen : (f (s.inst i)).enabled = true) {finish : State → State}
    (hdone : ∀ {t : State} {l : FseqLabel}, t.gim = false → t.phase = wrap l →
      fseqProgress t i fs l = .success → fgMicro t = finish (fseqState t i fs hook l)) :
    drive (.env (.freezeLeave i true) :: fgs 3 ++ rest)
      (goto ((ptRestart s).modInst i fun x => (f x).awaitingUnfreeze s.cfg fs hook)
        (wrap (.ack2 .sample))) =
      drive rest (finish (goto ((ptRestart s).modInst i fun x => (f x).refiltered s.cfg fs hook)
        (wrap (.rdy .sample)))) := by
  have hs : (ptRestart s).inst i = s.inst i := rfl
  have hi' : i < (ptRestart s).insts.length := hi
  set x := f (s.inst i) with hxdef
  have hreq : (x.awaitingUnfreeze s.cfg fs hook).freezeRequested = false := by
    have : unfrozenMcr x.mcr &&& haltBit = 0 := by
      ext b hb
      simp only [unfrozenMcr, mcrWritten, BitVec.getElem_and, BitVec.getElem_or, BitVec.getElem_not]
      have : b < 32 := hb
      interval_cases b <;> simp [ackBits, freezeBits, haltBit, frzBit, notrdyBit, frzackBit, lpmackBit]
    simp [Inst.freezeRequested, anySet, Inst.awaitingUnfreeze, this]
  have e : (.env (.freezeLeave i true) :: fgs 3 ++ rest : List Move) =
    .env (.freezeLeave i true) :: .fg :: .fg :: .fg :: rest := rfl
  have hmcr : ∀ (q : State) (hq : i < q.insts.length) (g : Inst → Inst) (p : Phase),
      regVal (goto (q.modInst i g) p) i .mcr = (g (q.inst i)).mcr := fun q hq g p => by
    rw [regVal_modInst hq]; rfl
  rw [e, drive_env (C.busy _)]
  show drive _ (goto (((ptRestart s).modInst i _).modInst i _) (wrap (.ack2 .sample))) = _
  rw [modInst_modInst, modInst_congr (ptRestart s) (g := fun y =>
    { (f y).awaitingUnfreeze s.cfg fs hook with
      mcr := unfrozenMcr x.mcr &&& ~~~(frzackBit ||| notrdyBit) })]
  swap
  · simp only [hs, Inst.freezeLeave, ← hxdef, hreq]
    simp [Inst.awaitingUnfreeze, hen]
  have hclear : ∀ m : Word, (m = frzackBit ∨ m = notrdyBit) →
      anySet (unfrozenMcr x.mcr &&& ~~~(frzackBit ||| notrdyBit)) m = false := by
    intro m hm
    have : unfrozenMcr x.mcr &&& ~~~(frzackBit ||| notrdyBit) &&& m = 0 := by
      rcases hm with rfl | rfl <;>
        · ext b hb
          simp only [BitVec.getElem_and, BitVec.getElem_or, BitVec.getElem_not]
          have : b < 32 := hb
          interval_cases b <;> simp [notrdyBit, frzackBit]
    simp [anySet, this]
  have hp : ∀ (p : Phase) (m : Word), (m = frzackBit ∨ m = notrdyBit) →
      waitProgress (goto ((ptRestart s).modInst i (fun y =>
      { (f y).awaitingUnfreeze s.cfg fs hook with
        mcr := unfrozenMcr x.mcr &&& ~~~(frzackBit ||| notrdyBit) })) p) i .mcr m false
      s.cfg.pollDefaultTicks .sample = .success := by
    intro p m hm
    simp only [waitProgress, pollProgress, sampleVal, hmcr (ptRestart s) hi', holds, hclear m hm]
    rfl
  rw [C.run (s := ptRestart s) hg (l' := .rdy .restart)]
  swap
  · simp only [fseqProgress]
    show (match waitProgress _ i .mcr frzackBit false s.cfg.pollDefaultTicks .sample with
      | .more w' => _ | .success => _ | .failure => _) = _
    rw [hp _ _ (.inl rfl)]
  show drive _ (goto ((ptRestart s).modInst i _) (wrap (.rdy .restart))) = _
  rw [C.run (s := ptRestart s) hg (l' := .rdy .sample) _ rfl]
  show drive _ (goto ((ptRestart s).modInst i _) (wrap (.rdy .sample))) = _
  rw [drive_fg (C.busy _)]
  refine (congrArg (drive rest) (hdone (l := .rdy .sample) ?_ rfl ?_)).trans ?_
  · exact hg
  · simp only [fseqProgress]
    show (match waitProgress _ i .mcr notrdyBit false s.cfg.pollDefaultTicks .sample with
      | .more w' => _ | .success => _ | .failure => _) = _
    rw [hp _ _ (.inr rfl)]
  have hst : ∀ q : State, q = goto ((ptRestart s).modInst i (fun y =>
      { (f y).awaitingUnfreeze s.cfg fs hook with
        mcr := unfrozenMcr x.mcr &&& ~~~(frzackBit ||| notrdyBit) })) (wrap (.rdy .sample)) →
      fseqState q i fs hook (.rdy .sample) = setFpState q i .active := by
    rintro q rfl
    simp only [fseqState]
    show (match waitProgress _ i .mcr notrdyBit false s.cfg.pollDefaultTicks .sample with
      | .success => _ | _ => _) = _
    rw [hp _ _ (.inr rfl)]
  rw [hst _ rfl]
  show drive _ (finish (goto (((ptRestart s).modInst i _).modInst i _) (wrap (.rdy .sample)))) = _
  rw [modInst_modInst]
  congr 3
  apply modInst_congr
  rfl

/-- FSEQ as a whole, both acknowledges in time (R272). -/
theorem FseqCtx.whole_run (hg : s.gim = false) (hi : i < s.insts.length) (f : Inst → Inst)
    (hen : (f (s.inst i)).enabled = true) (hmb : 0 < s.cfg.nMb) {finish : State → State}
    (hdone : ∀ {t : State} {l : FseqLabel}, t.gim = false → t.phase = wrap l →
      fseqProgress t i fs l = .success → fgMicro t = finish (fseqState t i fs hook l)) :
    drive (fseqMoves s.cfg i fs.length ++ rest) (goto (s.modInst i f) (wrap .frz)) =
      drive rest (finish (goto ((ptRestart s).modInst i fun x => (f x).refiltered s.cfg fs hook)
        (wrap (.rdy .sample)))) := by
  rw [fseqMoves, List.append_assoc, C.rewrite_run hg hi f hen hmb]
  exact C.unfreeze_run hg hi f hen hdone

end Whole

end Sys2Proof.Machine
end

