-- ==== Sys2Proof/Laws/Rewrite.lean ====
section
/-! SUPPORT. What the Frozen rewrite leaves in an interface's memory (R275 to R278). -/

namespace Sys2Proof.Machine

theorem mbNo_flat (a : Nat) : mbNo (a / 18) (a % 18) = 0x80 + a := by
  have := Nat.div_add_mod a 18
  unfold mbNo
  omega

theorem zeroWords_wf : ∀ (k a : Nat) {m : Memory}, m.wf = true → (Memory.zeroWords a k m).wf = true
  | 0, _, _, h => h
  | k + 1, a, _, h => zeroWords_wf k (a + 1) (store_wf h _ _)

theorem zeroMasks_wf : ∀ (k a : Nat) {m : Memory}, m.wf = true → (Memory.zeroMasks a k m).wf = true
  | 0, _, _, h => h
  | k + 1, a, _, h => zeroMasks_wf k (a + 1) (store_wf h _ _)

theorem programOne_wf (fs : List FilterReg) (j : Nat) {m : Memory} (h : m.wf = true) :
    (m.programOne fs j).wf = true := store_wf (store_wf (store_wf h _ _) _ _) _ _

theorem programFilters_wf (fs : List FilterReg) : ∀ (k j : Nat) {m : Memory}, m.wf = true →
    (Memory.programFilters fs j k m).wf = true
  | 0, _, _, h => h
  | k + 1, j, _, h => programFilters_wf fs k (j + 1) (programOne_wf fs j h)

theorem rewritten_wf (c : Config) (fs : List FilterReg) {m : Memory} (h : m.wf = true) :
    (Memory.rewritten c fs m).wf = true :=
  programFilters_wf fs _ _ (zeroMasks_wf _ _ (zeroWords_wf _ _ h))

theorem zeroWords_load : ∀ (k a : Nat) {m : Memory}, m.wf = true → ∀ b,
    (Memory.zeroWords a k m).load b = if 0x80 + a ≤ b ∧ b < 0x80 + a + k then 0 else m.load b
  | 0, a, m, _, b => by
    rw [if_neg (by omega)]
    rfl
  | k + 1, a, m, h, b => by
    rw [Memory.zeroWords, zeroWords_load k (a + 1) (store_wf h _ _) b, load_store h, mbNo_flat]
    split
    · rw [if_pos (by omega)]
    · split
      · rw [if_pos (by omega)]
      · rw [if_neg (by omega)]

theorem zeroMasks_load : ∀ (k a : Nat) {m : Memory}, m.wf = true → ∀ b,
    (Memory.zeroMasks a k m).load b = if 0x20 + a ≤ b ∧ b < 0x20 + a + k then 0 else m.load b
  | 0, a, m, _, b => by
    rw [if_neg (by omega)]
    rfl
  | k + 1, a, m, h, b => by
    rw [Memory.zeroMasks, zeroMasks_load k (a + 1) (store_wf h _ _) b, load_store h, rximrNo]
    split
    · rw [if_pos (by omega)]
    · split
      · rw [if_pos (by omega)]
      · rw [if_neg (by omega)]

theorem programOne_load (fs : List FilterReg) (j : Nat) {m : Memory} (h : m.wf = true) (b : Nat) :
    (m.programOne fs j).load b =
      if b = mbNo (j + 2) 1 then cut29 (filterAt fs j).id
      else if b = mbNo (j + 2) 0 then rxcsWord
      else if b = rximrNo (j + 2) then cut29 (filterAt fs j).mask else m.load b := by
  rw [Memory.programOne, load_store (store_wf (store_wf h _ _) _ _), load_store (store_wf h _ _),
    load_store h]

theorem programFilters_other (fs : List FilterReg) : ∀ (k j : Nat) {m : Memory}, m.wf = true → ∀ b,
    (∀ j', j ≤ j' → j' < j + k → b ≠ mbNo (j' + 2) 1 ∧ b ≠ mbNo (j' + 2) 0 ∧ b ≠ rximrNo (j' + 2)) →
    (Memory.programFilters fs j k m).load b = m.load b
  | 0, _, _, _, _, _ => rfl
  | k + 1, j, m, h, b, hb => by
    obtain ⟨h1, h2, h3⟩ := hb j (Nat.le_refl _) (by omega)
    rw [Memory.programFilters, programFilters_other fs k (j + 1) (programOne_wf fs j h) b
      (fun j' h1 h2 => hb j' (by omega) (by omega)), programOne_load fs j h, if_neg h1, if_neg h2, if_neg h3]

theorem programFilters_load (fs : List FilterReg) : ∀ (k j : Nat) {m : Memory}, m.wf = true → ∀ j',
    j ≤ j' → j' < j + k → j + k ≤ 30 →
    (Memory.programFilters fs j k m).load (rximrNo (j' + 2)) = cut29 (filterAt fs j').mask ∧
    (Memory.programFilters fs j k m).load (mbNo (j' + 2) 0) = rxcsWord ∧
    (Memory.programFilters fs j k m).load (mbNo (j' + 2) 1) = cut29 (filterAt fs j').id
  | 0, _, _, _, _, _, _, _ => by omega
  | k + 1, j, m, h, j', h1, h2, h3 => by
    rcases Nat.lt_or_ge j j' with hj | hj
    · exact programFilters_load fs k (j + 1) (programOne_wf fs j h) j' (by omega) (by omega) (by omega)
    · obtain rfl : j = j' := by omega
      simp only [Memory.programFilters]
      have other := fun b hb => programFilters_other fs k (j + 1) (programOne_wf fs j h) b hb
      refine ⟨?_, ?_, ?_⟩
      · rw [other, programOne_load fs j h, if_neg (by simp [mbNo, rximrNo]; omega),
          if_neg (by simp [mbNo, rximrNo]; omega), if_pos rfl]
        intro j' hj1 hj2
        simp only [mbNo, rximrNo]
        omega
      · rw [other, programOne_load fs j h, if_neg (by simp [mbNo]), if_pos rfl]
        intro j' hj1 hj2
        simp only [mbNo, rximrNo]
        omega
      · rw [other, programOne_load fs j h, if_pos rfl]
        intro j' hj1 hj2
        simp only [mbNo, rximrNo]
        omega

/-- R278: what the instance holds after the last filter. -/
theorem programmed_rewritten {c : Config} (hc : c.Legal) {fs : List FilterReg} (hn : fs.length ≤ c.fCap)
    {x : Inst} {m : Memory} (hm : m.wf = true) (hx : x.ram = Memory.rewritten c fs m) :
    Programmed c fs x := by
  obtain ⟨-, -, h2, h32, h30, -⟩ := hc
  intro a ha
  have hz := zeroMasks_wf c.nMb 0 (zeroWords_wf (18 * c.nMb) 0 hm)
  have zero : ∀ b, (0x20 ≤ b ∧ b < 0x20 + c.nMb ∨ 0x80 ≤ b ∧ b < 0x80 + 18 * c.nMb) →
      (Memory.zeroMasks 0 c.nMb (Memory.zeroWords 0 (18 * c.nMb) m)).load b = 0 := by
    intro b hb
    rw [zeroMasks_load _ _ (zeroWords_wf _ _ hm), zeroWords_load _ _ hm]
    split
    · rfl
    · split
      · rfl
      · omega
  have other : ∀ b, (∀ j', j' < fs.length → b ≠ mbNo (j' + 2) 1 ∧ b ≠ mbNo (j' + 2) 0 ∧ b ≠ rximrNo (j' + 2)) →
      (0x20 ≤ b ∧ b < 0x20 + c.nMb ∨ 0x80 ≤ b ∧ b < 0x80 + 18 * c.nMb) →
      (Memory.rewritten c fs m).load b = 0 := by
    intro b hb hr
    rw [Memory.rewritten, programFilters_other fs _ _ hz b (fun j' _ h => hb j' (by omega)), zero b hr]
  have hit := fun j' h => programFilters_load fs fs.length 0 hz j' (Nat.zero_le _) h (by omega)
  simp only [Inst.rximr, Inst.mb, hx]
  refine ⟨?_, ?_, ?_, ?_⟩
  · split
    · next h =>
      have := (hit (a - 2) (by omega)).1
      rwa [show a - 2 + 2 = a by omega] at this
    · apply other
      · intro j' hj'
        simp only [mbNo, rximrNo]
        omega
      · simp only [rximrNo]
        omega
  · split
    · next h =>
      have := (hit (a - 2) (by omega)).2.1
      rwa [show a - 2 + 2 = a by omega] at this
    · apply other
      · intro j' hj'
        simp only [mbNo, rximrNo]
        omega
      · simp only [mbNo]
        omega
  · split
    · next h =>
      have := (hit (a - 2) (by omega)).2.2
      rwa [show a - 2 + 2 = a by omega] at this
    · apply other
      · intro j' hj'
        simp only [mbNo, rximrNo]
        omega
      · simp only [mbNo]
        omega
  · intro k hk1 hk2
    apply other
    · intro j' hj'
      simp only [mbNo, rximrNo]
      omega
    · simp only [mbNo]
      omega

end Sys2Proof.Machine
end

