-- ==== Sys2Proof/Laws/Codec.lean ====
section
/-! SUPPORT. PACK and UNPACK bit by bit (R192, R193), and ENCODE inside WRITE as a whole (R195). -/

namespace Sys2Proof.Machine

/-- Bit `b` of a packed word is a bit of the payload byte R89 places there. -/
theorem packWord_bit (p : List Byte) (w b : Nat) (hb : b < 32) :
    (packWord p w).getLsbD b = (p.getD (4 * w + (3 - b / 8)) 0).getLsbD (b % 8) := by
  show BitVec.getLsbD (w := (8 + 8) + (8 + 8)) ((p.getD (4 * w) 0 ++ p.getD (4 * w + 1) 0) ++
    (p.getD (4 * w + 2) 0 ++ p.getD (4 * w + 3) 0)) b = _
  simp only [BitVec.getLsbD_append]
  interval_cases b <;> rfl

/-- Bit `b` of an unpacked byte is a bit of the word it stands in (R193). -/
theorem unpackByte_bit (ws : List Word) (k b : Nat) (hb : b < 8) :
    (unpackByte ws k).getLsbD b = (ws.getD (k / 4) 0).getLsbD (24 - 8 * (k % 4) + b) := by
  simp [unpackByte, hb]

theorem nwords_of_lt {k n : Nat} (h : k < n) : k / 4 < nwords n := by
  unfold nwords ceil4
  omega

/-- `LEN2DLC` is the inverse of `DLC2LEN` on the table lengths (R132), so ENCODE's DLC is the frame's. -/
theorem len2dlc_dlc2len : ∀ d : BitVec 4, len2dlc (dlc2len d) = some d := by decide

@[simp] theorem encodeDlc_eq (f : Frame) : encodeDlc f = f.dlc := by
  simp [encodeDlc, len2dlc_dlc2len]

/-- Data words `w .. w + k - 1` of payload `p` stored in mailbox `m` (R195 `dw[w]:`). -/
def Memory.storeWords (p : List Byte) (m : Nat) : Nat → Nat → Memory → Memory
  | _, 0, r => r
  | w, k + 1, r => Memory.storeWords p m (w + 1) k (r.store (mbNo m (2 + w)) (packWord p w))

/-- The memory ENCODE leaves (R195). -/
def Memory.encoded (f : Frame) (m : Nat) (r : Memory) : Memory :=
  Memory.storeWords f.payload m 0 (nwords (dlc2len f.dlc))
    ((r.store (mbNo m 1) (idWord f.id)).store (mbNo m 0) (txcsWord f.dlc))

theorem storeWords_wf (p : List Byte) (m : Nat) : ∀ (k w : Nat) {r : Memory}, r.wf = true →
    (Memory.storeWords p m w k r).wf = true
  | 0, _, _, h => h
  | k + 1, w, _, h => storeWords_wf p m k (w + 1) (store_wf h _ _)

theorem encoded_wf (f : Frame) (m : Nat) {r : Memory} (h : r.wf = true) :
    (Memory.encoded f m r).wf = true := storeWords_wf _ _ _ _ (store_wf (store_wf h _ _) _ _)

theorem storeWords_other (p : List Byte) (m : Nat) : ∀ (k w : Nat) {r : Memory}, r.wf = true → ∀ a,
    (∀ j, w ≤ j → j < w + k → a ≠ mbNo m (2 + j)) → (Memory.storeWords p m w k r).load a = r.load a
  | 0, _, _, _, _, _ => rfl
  | k + 1, w, r, h, a, ha => by
    rw [Memory.storeWords, storeWords_other p m k (w + 1) (store_wf h _ _) a
      (fun j h1 h2 => ha j (by omega) (by omega)), load_store h, if_neg (ha w (Nat.le_refl _) (by omega))]

theorem storeWords_load (p : List Byte) (m : Nat) : ∀ (k w : Nat) {r : Memory}, r.wf = true → ∀ j,
    w ≤ j → j < w + k → (Memory.storeWords p m w k r).load (mbNo m (2 + j)) = packWord p j
  | 0, _, _, _, _, _, _ => by omega
  | k + 1, w, r, h, j, h1, h2 => by
    rcases Nat.lt_or_ge w j with hj | hj
    · exact storeWords_load p m k (w + 1) (store_wf h _ _) j (by omega) (by omega)
    · obtain rfl : w = j := by omega
      rw [Memory.storeWords, storeWords_other p m k (w + 1) (store_wf h _ _), load_store h, if_pos rfl]
      intro j h1 _
      simp only [mbNo]
      omega

/-- What ENCODE leaves, word by word (R195, R196). -/
theorem encoded_load (f : Frame) (m : Nat) {r : Memory} (h : r.wf = true) :
    (Memory.encoded f m r).load (mbNo m 1) = idWord f.id ∧
    (Memory.encoded f m r).load (mbNo m 0) = txcsWord f.dlc ∧
    (∀ w, w < nwords (dlc2len f.dlc) →
      (Memory.encoded f m r).load (mbNo m (2 + w)) = packWord f.payload w) ∧
    ∀ a, (∀ k, k < 2 + nwords (dlc2len f.dlc) → a ≠ mbNo m k) →
      (Memory.encoded f m r).load a = r.load a := by
  have h1 := store_wf h (mbNo m 1) (idWord f.id)
  have h2 := store_wf h1 (mbNo m 0) (txcsWord f.dlc)
  refine ⟨?_, ?_, ?_, ?_⟩
  · rw [Memory.encoded, storeWords_other _ _ _ _ h2, load_store h1, if_neg (by simp [mbNo]), load_store h,
      if_pos rfl]
    intro j _ _
    simp only [mbNo]
    omega
  · rw [Memory.encoded, storeWords_other _ _ _ _ h2, load_store h1, if_pos rfl]
    intro j _ _
    simp only [mbNo]
    omega
  · intro w hw
    exact storeWords_load _ _ _ _ h2 w (Nat.zero_le _) (by omega)
  · intro a ha
    rw [Memory.encoded, storeWords_other _ _ _ _ h2, load_store h1, if_neg (ha 0 (by omega)), load_store h,
      if_neg (ha 1 (by omega))]
    intro j _ hj
    exact ha (2 + j) (by omega)

section Write

variable {s : State} {inst count m : Nat} {f : Frame} {rest : List Move}

theorem write_run (hg : s.gim = false) (g : Inst → Inst) (l : WriteLabel) :
    drive (.fg :: rest) (goto (s.modInst inst g) (.write inst count f l)) =
      drive rest (writeStep (goto (s.modInst inst g) (.write inst count f l)) inst count f l) := by
  rw [drive_fg (by simp)]
  congr 1
  simp [fgMicro, hg]

theorem dataWords_run (hg : s.gim = false) : ∀ (k w : Nat) (g : Inst → Inst),
    w + (k + 1) = nwords (dlc2len f.dlc) →
    drive (fgs (k + 1) ++ rest) (goto (s.modInst inst g) (.write inst count f (.dw m w))) =
      drive rest (goto (s.modInst inst fun x =>
          { g x with ram := Memory.storeWords f.payload m w (k + 1) (g x).ram })
        (.write inst count f (.cmp m .restart)))
  | 0, w, g, h => by
    rw [fgs_succ, List.cons_append, write_run hg]
    have : ¬ (w + 1 < nwords (dlc2len f.dlc)) := by omega
    simp only [writeStep, this, if_false]
    show drive rest (goto ((s.modInst inst g).modInst inst _) _) = _
    rw [modInst_modInst]
    rfl
  | k + 1, w, g, h => by
    rw [fgs_succ, List.cons_append, write_run hg]
    have : w + 1 < nwords (dlc2len f.dlc) := by omega
    simp only [writeStep, this, if_true]
    show drive _ (goto ((s.modInst inst g).modInst inst _) _) = _
    rw [modInst_modInst, dataWords_run hg k (w + 1) _ (by omega)]
    rfl

/-- ENCODE inside WRITE, all its micro-steps (R195, R196). -/
theorem encode_run (hg : s.gim = false) (g : Inst → Inst) :
    drive (fgs (2 + nwords (dlc2len f.dlc)) ++ rest)
        (goto (s.modInst inst g) (.write inst count f (.idw m))) =
      drive rest (goto (s.modInst inst fun x => { g x with ram := Memory.encoded f m (g x).ram })
        (.write inst count f (.cmp m .restart))) := by
  have e : fgs (2 + nwords (dlc2len f.dlc)) ++ rest =
      .fg :: .fg :: (fgs (nwords (dlc2len f.dlc)) ++ rest) := by
    rw [fgs_add]
    rfl
  rw [e, write_run hg]
  show drive _ (goto ((s.modInst inst g).modInst inst _) _) = _
  rw [modInst_modInst, write_run hg]
  simp only [writeStep, controlStore, encodeDlc_eq]
  show drive _ (goto ((s.modInst inst _).modInst inst _) (.write inst count f (afterControl f m))) = _
  rw [modInst_modInst]
  unfold afterControl
  split
  · next h =>
    obtain ⟨k, hk⟩ : ∃ k, nwords (dlc2len f.dlc) = k + 1 := ⟨nwords (dlc2len f.dlc) - 1, by omega⟩
    have := dataWords_run (s := s) (inst := inst) (count := count) (m := m) (f := f) (rest := rest) hg k 0
      (fun x => ((g x).setMb m 1 (idWord f.id)).setMb m 0 (txcsWord f.dlc)) (by omega)
    rw [← hk] at this
    rw [this]
    rfl
  · next h =>
    have : nwords (dlc2len f.dlc) = 0 := by omega
    simp only [this, Memory.encoded, Memory.storeWords]
    rfl

end Write

end Sys2Proof.Machine
end

