-- ==== Sys2Proof/Laws/PerInstr.lean ====
section
/-! SUPPORT. One law per instruction: the OP field of its encoding (R138, R140, R123, R124). -/

namespace Sys2Proof.Laws

/-- OP, bits 31:28, of each row of the opcode table (R140, R123, R124). -/
def opOf : Instr → Nat
  | .getifc => 0x1
  | .getmaxf => 0x2
  | .start _ => 0x3
  | .stop => 0x4
  | .write _ _ => 0x5
  | .read _ => 0x6
  | .select _ => 0x7
  | .reconfig _ => 0x8
  | .txcs _ => 0xC
  | .rxcs => 0xC

/-- Bits 31:28 of a command word whose lower fields fit below bit 28 are its OP. -/
theorem op_commandWord {op inst count ignw : Nat} (ho : op < 16) (hi : inst < 256) (hc : count < 256)
    (hg : ignw < 256) : field (commandWord op inst count ignw) 31 28 = op := by
  simp only [field, commandWord, BitVec.toNat_ofNat]
  omega

/-- The encoding of a well-formed instruction carries its OP in bits 31:28, whatever its operands. -/
def Opcode.Statement (i : Instr) : Prop := i.wellFormed = true → field (encode i) 31 28 = opOf i

theorem Opcode.getifc : Opcode.Statement .getifc := fun _ => by decide

theorem Opcode.getmaxf : Opcode.Statement .getmaxf := fun _ => by decide

theorem Opcode.start (count : Nat) : Opcode.Statement (.start count) := fun h =>
  op_commandWord (by decide) (by decide) (by simpa [Instr.wellFormed] using h) (by decide)

theorem Opcode.stop : Opcode.Statement .stop := fun _ => by decide

theorem Opcode.write (inst count : Nat) : Opcode.Statement (.write inst count) := fun h => by
  simp only [Instr.wellFormed, Bool.and_eq_true, decide_eq_true_eq] at h
  exact op_commandWord (by decide) h.1 h.2 (by decide)

theorem Opcode.read (inst : Nat) : Opcode.Statement (.read inst) := fun h =>
  op_commandWord (by decide) (by simpa [Instr.wellFormed] using h) (by decide) (by decide)

theorem Opcode.select (ignw : Bool) : Opcode.Statement (.select ignw) := fun _ => by
  cases ignw <;> decide

theorem Opcode.reconfig (count : Nat) : Opcode.Statement (.reconfig count) := fun h =>
  op_commandWord (by decide) (by decide) (by simpa [Instr.wellFormed] using h) (by decide)

theorem Opcode.txcs (dlc : Nat) : Opcode.Statement (.txcs dlc) := fun h => by
  simp only [Instr.wellFormed, decide_eq_true_eq] at h
  simp only [field, encode, opOf, BitVec.toNat_ofNat]
  omega

theorem Opcode.rxcs : Opcode.Statement .rxcs := fun _ => by decide

end Sys2Proof.Laws
end

