-- ==== Sys2Proof/Laws/Timeout.lean ====
section
/-! SUPPORT. A poll of FSEQ that times out (R173, R285): what its micro-steps do, and the run from its first
sample to the deadline test that ends it. -/

namespace Sys2Proof.Machine

/-- Where FSEQ stands in the poll. -/
def SilentPoll.label : SilentPoll → WaitLabel → FseqLabel
  | .freeze => .ack1
  | .unfreeze => .ack2
  | .ready => .rdy

/-- The bit the poll tests. -/
def SilentPoll.mask : SilentPoll → Word
  | .freeze | .unfreeze => frzackBit
  | .ready => notrdyBit

/-- The value the poll waits for. -/
def SilentPoll.target : SilentPoll → Bool
  | .freeze => true
  | .unfreeze | .ready => false

/-- What the poll's own WAIT answers at `w`. -/
abbrev SilentPoll.progress (p : SilentPoll) (s : State) (i : Nat) (w : WaitLabel) : Progress WaitLabel :=
  waitProgress s i .mcr p.mask p.target s.cfg.pollDefaultTicks w

theorem SilentPoll.fseqProgress_more (p : SilentPoll) {s : State} {i : Nat} {w w' : WaitLabel}
    (fs : List FilterReg) (h : p.progress s i w = .more w') :
    fseqProgress s i fs (p.label w) = .more (p.label w') := by
  cases p <;> simp only [progress, label, mask, target, fseqProgress] at h ⊢ <;> simp [h]

theorem SilentPoll.fseqProgress_failure (p : SilentPoll) {s : State} {i : Nat} {w : WaitLabel}
    (fs : List FilterReg) (h : p.progress s i w = .failure) :
    fseqProgress s i fs (p.label w) = .failure := by
  cases p <;> simp only [progress, label, mask, target, fseqProgress] at h ⊢ <;> simp [h]

theorem SilentPoll.fseqState_wait (p : SilentPoll) {s : State} {i : Nat} {w : WaitLabel}
    (fs : List FilterReg) (hook : Bool) (h : p.progress s i w ≠ .success) :
    fseqState s i fs hook (p.label w) = waitState s w := by
  cases p <;> simp only [progress, label, mask, target, fseqState] at h ⊢

theorem SilentPoll.progress_sample (p : SilentPoll) {s : State} {i : Nat}
    (h : holds (s.inst i).mcr p.mask p.target = false) : p.progress s i .sample = .more .deadline := by
  simp [progress, waitProgress_sample, sampleVal, regVal, Inst.reg, h]

theorem SilentPoll.progress_deadline (p : SilentPoll) {s : State} (i : Nat)
    (h : s.cfg.pollDefaultTicks < elapsed s) : p.progress s i .deadline = .failure := by
  rw [progress, waitProgress_deadline, if_pos h]

/-- The deadline test past the timeout: FSEQ answers Failure and changes nothing. -/
theorem SilentPoll.deadline_fails (p : SilentPoll) {q : State} (i : Nat) (fs : List FilterReg) (hook : Bool)
    (hv : q.ptVal = BitVec.ofNat 32 (0xFFFFFFFF - (q.cfg.pollDefaultTicks + 1)))
    (hT : q.cfg.pollDefaultTicks ≤ 0xFFFFFFFE) :
    fseqProgress q i fs (p.label .deadline) = .failure ∧ fseqState q i fs hook (p.label .deadline) = q := by
  have hl : q.cfg.pollDefaultTicks < elapsed q := by
    show _ < 0xFFFFFFFF - q.ptVal.toNat
    rw [hv, BitVec.toNat_ofNat]
    omega
  have hp := p.progress_deadline i hl
  exact ⟨p.fseqProgress_failure fs hp, p.fseqState_wait fs hook (by rw [hp]; simp)⟩

section
variable {wrap : FseqLabel → Phase} {i : Nat} {fs : List FilterReg} {hook : Bool}
  (C : FseqCtx wrap i fs hook) {s : State} {rest : List Move}

include C

/-- A sample that does not see the value awaited goes on to the deadline test and changes nothing. -/
theorem FseqCtx.sample_run (hg : s.gim = false) (p : SilentPoll)
    (h : holds (s.inst i).mcr p.mask p.target = false) :
    fgMicro (goto s (wrap (p.label .sample))) = goto s (wrap (p.label .deadline)) := by
  have hp : p.progress (goto s (wrap (p.label .sample))) i .sample = .more .deadline :=
    p.progress_sample (s := goto s (wrap (p.label .sample))) h
  rw [C.more (s := goto s (wrap (p.label .sample))) hg rfl (p.fseqProgress_more fs hp),
    p.fseqState_wait fs hook (by rw [hp]; simp)]
  rfl

/-- From the first sample of a poll that never sees the value awaited to the micro-step that ends it. -/
theorem FseqCtx.timeout_run (hr : s.ptRun = true) (hg : s.gim = false) (hv : s.ptVal = 0xFFFFFFFF#32)
    (hT : s.cfg.pollDefaultTicks ≤ 0xFFFFFFFE) (p : SilentPoll)
    (h : holds (s.inst i).mcr p.mask p.target = false) :
    drive (fgs 1 ++ timeoutMoves s.cfg ++ rest) (goto s (wrap (p.label .sample))) =
      drive (.fg :: rest) (goto { s with
        ptVal := BitVec.ofNat 32 (0xFFFFFFFF - (s.cfg.pollDefaultTicks + 1)) } (wrap (p.label .deadline))) := by
  have e : fgs 1 ++ timeoutMoves s.cfg ++ rest =
      .fg :: (ptTicks (s.cfg.pollDefaultTicks + 1) ++ (.fg :: rest)) := by simp [timeoutMoves, fgs]
  have hv' : s.ptVal - BitVec.ofNat 32 (s.cfg.pollDefaultTicks + 1) =
      BitVec.ofNat 32 (0xFFFFFFFF - (s.cfg.pollDefaultTicks + 1)) := by
    rw [hv]
    exact BitVec.ofNat_sub_ofNat_of_le _ _ (by omega) (by omega)
  rw [e, drive_fg (C.busy _), C.sample_run hg p h,
    ptTicks_run (s := goto s (wrap (p.label .deadline))) _ (C.busy _) hr]
  · show drive _ (goto { s with ptVal := s.ptVal - BitVec.ofNat 32 (s.cfg.pollDefaultTicks + 1) } _) = _
    rw [hv']
    rfl
  · show _ ≤ s.ptVal.toNat
    rw [hv, BitVec.toNat_ofNat]
    omega

end

end Sys2Proof.Machine
end

