-- ==== Sys2Proof/Laws/Write.lean ====
section
/-! SUPPORT. WRITE as a whole (R302): to its completion poll, and the poll's three ends (R173, R305). -/

namespace Sys2Proof.Machine

/-- A polled mask with one bit is that bit (R174). -/
theorem anySet_mbBit {v : Word} {m : Nat} (hm : m < 32) : anySet v (mbBit m) = v.getLsbD m := by
  unfold anySet
  cases h : v.getLsbD m with
  | true =>
    simp only [bne_iff_ne, ne_eq]
    intro hz
    have := congrArg (fun w => BitVec.getLsbD w m) hz
    simp only [BitVec.getLsbD_and, h, mbBit_bit] at this
    simp [hm] at this
  | false =>
    have : v &&& mbBit m = 0 := by
      apply BitVec.eq_of_getLsbD_eq
      intro i hi
      simp only [BitVec.getLsbD_and, mbBit_bit]
      by_cases hh : i = m
      · subst hh
        simp [h]
      · simp [hh]
    simp [this]

theorem lptm_le {v : Word} (h : txReady v = true) : lptm v ≤ 1 := by
  simp [txReady] at h
  omega

/-- The id word of the latched frame is TXF_ID cut to 29 bits (R302, R306). -/
theorem idWord_txFrame (t : TxOperand) : idWord (txFrame t).id = t.id &&& 0x1FFFFFFF#32 := by
  show idWord (idOf t.id) = _
  simp only [idWord, idOf]
  apply BitVec.eq_of_getLsbD_eq
  intro i hi
  interval_cases i <;> simp

theorem txFrame_wf {s : State} (h : s.Wf) : (txFrame s.txf).Wf := by
  have := dlc2len_le s.txf.dlc
  simp [Frame.Wf, txFrame, h.txfBytes]
  omega

section

variable {s : State} {inst count m : Nat} {f : Frame} {rest : List Move}

/-- The completion poll's sample sees the flag: it is cleared, Success (R302 `clr:`). -/
theorem sample_set_run (hg : s.gim = false) (hi : inst < s.insts.length) (g : Inst → Inst) (hm : m < 32)
    (hf : (g (s.inst inst)).iflag.getLsbD m = true) :
    drive (fgs 2 ++ rest) (goto (s.modInst inst g) (.write inst count f (.cmp m .sample))) =
      drive rest (retWritten (s.modInst inst fun x =>
        { g x with iflag := (g x).iflag &&& ~~~(1#32 <<< m) }) .success 1) := by
  have hw : ∀ T, waitProgress (goto (s.modInst inst g) (.write inst count f (.cmp m .sample))) inst .iflag
      (mbBit m) true T .sample = .success := by
    intro T
    simp only [waitProgress, pollProgress, sampleVal, regVal_modInst hi, Inst.reg, holds, anySet_mbBit hm, hf]
    rfl
  rw [show fgs 2 ++ rest = .fg :: .fg :: rest from rfl, write_run hg]
  simp only [writeStep, hw]
  show drive _ (goto (s.modInst inst g) (.write inst count f (.clr m))) = _
  rw [write_run hg]
  show drive rest (retWritten ((s.modInst inst g).modInst inst _) .success 1) = _
  rw [modInst_modInst]
  rfl

/-- The sample misses the flag (R173). -/
theorem sample_clear_run (hg : s.gim = false) (hi : inst < s.insts.length) (g : Inst → Inst) (hm : m < 32)
    (hf : (g (s.inst inst)).iflag.getLsbD m = false) :
    drive (.fg :: rest) (goto (s.modInst inst g) (.write inst count f (.cmp m .sample))) =
      drive rest (goto (s.modInst inst g) (.write inst count f (.cmp m .deadline))) := by
  have hw : ∀ T, waitProgress (goto (s.modInst inst g) (.write inst count f (.cmp m .sample))) inst .iflag
      (mbBit m) true T .sample = .more .deadline := by
    intro T
    simp only [waitProgress, pollProgress, sampleVal, regVal_modInst hi, Inst.reg, holds, anySet_mbBit hm, hf]
    rfl
  rw [write_run hg]
  simp only [writeStep, hw]
  rfl

/-- The deadline test (R173): strictly more than the bound. -/
theorem deadline_run (hg : s.gim = false) (g : Inst → Inst) :
    drive (.fg :: rest) (goto (s.modInst inst g) (.write inst count f (.cmp m .deadline))) =
      if s.cfg.pollDefaultTicks < elapsed s then
        drive rest (retWritten (s.modInst inst g) .failure 0)
      else drive rest (goto (s.modInst inst g) (.write inst count f (.cmp m .sample))) := by
  rw [write_run hg]
  simp only [writeStep, waitProgress_deadline]
  show drive rest (match (if s.cfg.pollDefaultTicks < elapsed s then Progress.failure else .more WaitLabel.sample) with
    | .more wl' => _ | .success => _ | .failure => _) = _
  by_cases h : s.cfg.pollDefaultTicks < elapsed s <;> simp only [h, if_true, if_false] <;> rfl

/-- WRITE on a ready interface, up to the first sample of its completion poll (R302, R195). -/
theorem write_to_sample (hr : s.Ready) (hl : s.groupLive = true) (hi : inst < s.cfg.nIf) (h1 : 1 ≤ count)
    (h2 : count ≤ s.cfg.txnMax) (ht : txReady (s.inst inst).status = true)
    (ha : s.agenda = writeMoves (txFrame s.txf) ++ rest) :
    exec (.write inst count) s = .next (drive rest (goto ((ptRestart s).modInst inst fun x =>
        { x with ram := Memory.encoded (txFrame s.txf) (lptm (s.inst inst).status) x.ram })
      (.write inst count (txFrame s.txf) (.cmp (lptm (s.inst inst).status) .sample)))) := by
  obtain ⟨hp, hg⟩ := id hr
  simp only [exec, execWrite, issue_ready hr, ha]
  congr 1
  set f := txFrame s.txf
  have e : writeMoves f ++ rest = .fg :: .fg :: (fgs (2 + nwords (dlc2len f.dlc)) ++ (.fg :: rest)) := by
    have : 5 + nwords (dlc2len f.dlc) = 1 + 1 + (2 + nwords (dlc2len f.dlc)) + 1 := by omega
    unfold writeMoves
    rw [this, fgs_add (1 + 1 + _) 1, fgs_add (1 + 1)]
    simp [fgs]
  have hs : s = s.modInst inst (fun x => x) := (modInst_id _ _).symm
  rw [e, hs, write_run (s := s) hg (fun x => x), ← hs]
  have : writeStep (goto s (.write inst count f .chk)) inst count f .chk =
      goto s (.write inst count f .rdy) := by
    simp [writeStep, hl]
    rw [if_neg (by omega)]
    rfl
  rw [this]
  conv_lhs => rw [hs, write_run (s := s) hg (fun x => x), ← hs]
  have : writeStep (goto s (.write inst count f .rdy)) inst count f .rdy =
      goto s (.write inst count f (.idw (lptm (s.inst inst).status))) := by
    have : regVal (goto s (.write inst count f .rdy)) inst .status = (s.inst inst).status := rfl
    simp only [writeStep, this, ht]
    rfl
  rw [this]
  conv_lhs => rw [hs, encode_run (s := s) hg (fun x => x)]
  rw [write_run (s := s) hg]
  simp only [modInst_id]
  rfl

end

end Sys2Proof.Machine
end

