-- ==== Sys2Proof/Tests/Slice0.lean ====
section
/-! SUPPORT. Tests whose expected results are the vectors of spec/95_test_vectors.md (named in the
comments), the smoke test of WellFormed, and a witness for each statement with hypotheses. -/

namespace Sys2Proof.Machine.Tests

/-! ## WellFormed: an ill-formed term for each check, and the ends of each range -/

theorem test_wellformed_ends : (Instr.start 255).wellFormed = true ∧ (Instr.write 255 255).wellFormed = true ∧
    (Instr.read 255).wellFormed = true ∧ (Instr.reconfig 255).wellFormed = true ∧
    (Instr.txcs 15).wellFormed = true := by decide

theorem test_illformed_start : (Instr.start 256).wellFormed = false := by decide

theorem test_illformed_write_inst : (Instr.write 256 1).wellFormed = false := by decide

theorem test_illformed_write_count : (Instr.write 0 256).wellFormed = false := by decide

theorem test_illformed_read : (Instr.read 256).wellFormed = false := by decide

theorem test_illformed_reconfig : (Instr.reconfig 256).wellFormed = false := by decide

theorem test_illformed_txcs : (Instr.txcs 16).wellFormed = false := by decide

/-! ## Decoding: words of 2.13 and 2.3, each written out from the fields of R138, R123, R124 -/

theorem test_decode_getifc : decode 0x10000000#32 = .instr .getifc := by decide

theorem test_decode_getmaxf : decode 0x20000000#32 = .instr .getmaxf := by decide

theorem test_decode_start : decode 0x3000FF00#32 = .instr (.start 255) := by decide

theorem test_decode_stop : decode 0x40000000#32 = .instr .stop := by decide

theorem test_decode_write : decode 0x50020100#32 = .instr (.write 2 1) := by decide

theorem test_decode_read : decode 0x60010000#32 = .instr (.read 1) := by decide

theorem test_decode_select : decode 0x70000001#32 = .instr (.select true) ∧
    decode 0x70000000#32 = .instr (.select false) := by decide

theorem test_decode_reconfig : decode 0x80000600#32 = .instr (.reconfig 6) := by decide

/-- 2.3: the control word of DLC 15 is `0xCC2F_0000`. -/
theorem test_decode_txcs : decode 0xCC2F0000#32 = .instr (.txcs 15) ∧
    decodeTableWord 32 0xCC200000 = some (.txcs 0) := by decide

/-- F1: `0xC420_0000`. -/
theorem test_decode_rxcs : decode 0xC4200000#32 = .instr .rxcs ∧ decode 0xC4210000#32 = .reserved .reservedOp := by
  decide

/-- 2.13, the reserved words. -/
theorem test_decode_reserved_op : [0x00000000#32, 0x90000000#32, 0xF0000000#32].map decode =
    List.replicate 3 (.reserved .reservedOp) := by decide

/-- 2.13, the reserved words. -/
theorem test_decode_reserved_field : [0x10000001#32, 0x30010100#32, 0x40000100#32, 0x51000100#32].map decode =
    List.replicate 4 (.reserved .reservedField) := by decide

/-- 2.13, the reserved words. -/
theorem test_decode_reserved_unused :
    [0x60000001#32, 0x60010100#32, 0x70000002#32, 0x70000003#32].map decode =
      List.replicate 4 (.reserved .reservedField) := by decide

/-! ## Values: 2.1, 2.2, 2.4, 2.5 -/

/-- 2.1: `LEN2DLC` at the ends of each range. -/
theorem test_len2dlc : [0, 8, 9, 12, 13, 16, 17, 20, 21, 24, 25, 32, 33, 48, 49, 64].map len2dlc =
    [0, 8, 9, 9, 10, 10, 11, 11, 12, 12, 13, 13, 14, 14, 15, 15].map (fun n => some (BitVec.ofNat 4 n)) ∧
    len2dlc 65 = none := by decide

/-- K6. -/
theorem test_pack : pack [0x11, 0x22, 0x33, 0x44, 0x55] = [0x11223344#32, 0x55000000#32] := by decide

/-- K11. -/
theorem test_unpack : unpack [0x11223344#32, 0x55AABBCC#32] 5 = [0x11, 0x22, 0x33, 0x44, 0x55] := by decide

/-- D7: flags, CODE, PRIO and the reserved bit are ignored. -/
theorem test_decode_fields : csDlc 0xE6FF0001#32 = 15 ∧ csTimestamp 0xE6FF0001#32 = 0x0001 ∧
    idOf 0xE0000123#32 = 0x123 := by decide

/-- T3, T7. -/
theorem test_reconcile : reconcile cfgEx (clockValue 0xFFFFFFFF#32 0xFFF3CA5F#32) 0x39C8#16 0x3900#16 = 9999 ∧
    reconcile cfgEx (clockValue 0xFFFFFFFF#32 0xFFFFFF9B#32) 0x0200#16 0x0000#16 = 230584300921369390 := by
  decide

/-- T5, T6. -/
theorem test_reconcile_modes :
    reconcile cfgEx (clockValue 0xFFFFFFFE#32 0xFFFFFFEF#32) 0x0005#16 0xFFF0#16 = 53686272 ∧
    reconcile { cfgEx with deltaMode := .modular } (clockValue 0xFFFFFFFE#32 0xFFFFFFEF#32) 0x0005#16 0xFFF0#16 =
      53687091 := by decide

/-! ## States -/

/-- A small configuration: one transmit pair, one filter, one interface. -/
def small : Config where
  nIf := 1
  nMb := 3
  fCap := 1
  qCap := 2
  ticksPerUs := 80
  pollDefaultTicks := 3
  txnMax := 1
  deltaMode := .abs

/-- D3's words in mailbox 2 and stale words in mailboxes 0 and 2; ready to transmit from mailbox 0. -/
def box : Inst :=
  { Inst.powerOn AnyInst.zero with
    enabled := true
    status := 0x00006000#32
    imask := 0x4
    timer := 0x1234
    ram := [(0x83, 0xDEADBEEF#32), (0xA4, 0xC2251234#32), (0xA5, 0x1ABCDE01#32), (0xA6, 0x11223344#32),
      (0xA7, 0x55AABBCC#32)] }

/-- RD1's frame. -/
def frameA : Frame := { id := 0x123, dlc := 2, payload := [0xAA, 0xBB], ts := 10000 }

/-- A live group of the interfaces `xs` in the small configuration, with E2's frame in TXF and a filter
with every bit set, the clock as in T1. -/
def group (xs : List Inst) (agenda : List Move) : State :=
  { State.powerOn { small with nIf := xs.length } (AnyValues.zero small) with
    groupLive := true
    handle := true
    txf := { id := 0x00000001#32, dlc := 1, data := 0xAB :: List.replicate 63 0x77 }
    flt := [{ id := 0xFFFFFFFF#32, mask := 0xFFFFFFFF#32 }]
    clkHi := 0xFFFFFFFF#32
    clkLo := 0xFFF3CAFF#32
    clkRun := true
    insts := xs
    agenda := agenda }

/-- A live group of one interface. -/
def live (x : Inst) (agenda : List Move) : State := group [x] agenda

/-- A bring-up whose MCR has no acknowledge bit. -/
def upFresh (_ : Nat) : UpRegs := { mcr := 0, status := 0, timer := 0 }

/-- The same without a group. -/
def down (x : Inst) (agenda : List Move) : State := { live x agenda with groupLive := false, handle := false }

/-- Whether a next state meets `p`. -/
def nextIs (o : Host.Outcome State Fault Refusal) (p : State → Bool) : Bool :=
  match o with
  | .next t => p t
  | .fault _ => false
  | .refused _ => false

/-! ## One command each -/

/-- M10, and the same from reset through CMD. -/
theorem test_getifc : nextIs (step (State.reset.withFetchWord 32 0x10000000))
    (fun t => t.rcount == 2 && t.outcome.code == 0x01) = true := by decide +kernel

/-- M11. -/
theorem test_getmaxf : nextIs (step (State.reset.withFetchWord 32 0x20000000))
    (fun t => t.rcount == 5 && t.outcome.code == 0x01) = true := by decide +kernel

/-- 2.13: a reserved word gives `0xFD`. -/
theorem test_reserved_word : nextIs (step (State.reset.withFetchWord 32 0x90000000))
    (fun t => t.outcome.code == 0xFD && t.cmd == 0x90000000#32) = true := by decide +kernel

/-- M2: `START 6`. -/
theorem test_start_count : nextIs (step (State.reset.withFetchWord 32 0x30000600))
    (fun t => t.outcome.code == 0xFD && !t.handle) = true := by decide +kernel

/-- M1, F6: the filter cut to 29 bits, `IMASK = RXVALID`, the queue and the counter reset. -/
theorem test_start : nextIs (exec (.start 1)
      (down { box with queue := [frameA], discard := 5 } (startMoves small 1 upFresh none)))
    (fun t => t.outcome.code == 0x01 && t.handle && (t.inst 0).imask == 0x4 && (t.inst 0).mcr == 0 &&
      (t.inst 0).discard == 0 && (t.inst 0).mb 2 0 == 0xC4200000#32 && (t.inst 0).mb 2 1 == 0x1FFFFFFF#32 &&
      (t.inst 0).rximr 2 == 0x1FFFFFFF#32 && (t.inst 0).mb 0 3 == 0) = true := by decide +kernel

/-- M8. -/
theorem test_stop : nextIs (exec .stop (live box (stopMoves small)))
    (fun t => t.outcome.code == 0x01 && !t.handle && !(t.inst 0).enabled &&
      (t.inst 0).mcr == 0x88100000#32 && !t.clkRun && t.clkLo == 0xFFFFFFFF#32) = true := by decide +kernel

/-- M9, with `k = 0`. -/
theorem test_stop_silent : nextIs (exec .stop (live box (fgs 4 ++ ptTicks 4 ++ fgs 1)))
    (fun t => t.outcome.code == 0xFF && t.handle && t.groupLive && (t.inst 0).enabled && t.clkRun) = true := by
  decide +kernel

/-- W1 with E2: the stale word 3 stays, the flag is cleared. -/
theorem test_write : nextIs (exec (.write 0 1)
      (live box (fgs 6 ++ [.env (.tx 0 0), .fg, .fg])))
    (fun t => t.outcome.code == 0x01 && t.nwritten == 1 && (t.inst 0).iflag == 0 &&
      (t.inst 0).mb 0 0 == 0xC8211234#32 && (t.inst 0).mb 0 1 == 0x00000001#32 &&
      (t.inst 0).mb 0 2 == 0xAB000000#32 && (t.inst 0).mb 0 3 == 0xDEADBEEF#32) = true := by decide +kernel

/-- W5: LPTM = 2 is no transmit mailbox. -/
theorem test_write_full : nextIs (exec (.write 0 1)
      (live { box with status := 0x00026000#32 } (fgs 2)))
    (fun t => t.outcome.code == 0xFE && t.nwritten == 0 && t.insts == [{ box with status := 0x00026000#32 }]) =
      true := by decide +kernel

/-- RD1. -/
theorem test_read : nextIs (exec (.read 0) (live { box with queue := [frameA] } (fgs 2)))
    (fun t => t.outcome.code == 0x01 && t.rxf.id == 0x00000123#32 && t.rxf.dlc == 2 && t.rxf.len == 2 &&
      t.rxf.data == [0xAA, 0xBB] ++ List.replicate 62 0 && t.rxf.ts == 10000 && (t.inst 0).queue == []) =
      true := by decide +kernel

/-- RD2. -/
theorem test_read_empty : nextIs (exec (.read 0) (live box (fgs 2)))
    (fun t => t.outcome.code == 0x02 && t.rxf == (live box []).rxf) = true := by decide +kernel

/-- S4, S1: transmit readiness ignored, `TMO = 0` ends after one tick and not before. -/
theorem test_select_timeout : nextIs (exec (.select true) (live box (fgs 4 ++ fgs 1 ++ ptTicks 1 ++ fgs 3)))
    (fun t => t.outcome.code == 0x03) = true := by decide +kernel

/-- S2. -/
theorem test_select_ready : nextIs (exec (.select false) (live box (fgs 4)))
    (fun t => t.outcome.code == 0x01 && t.ptRun) = true := by decide +kernel

/-- F1, F6. -/
theorem test_reconfig : nextIs (exec (.reconfig 1) (live box (reconfigMoves small 1)))
    (fun t => t.outcome.code == 0x01 && (t.inst 0).lastf == [{ id := 0x1FFFFFFF, mask := 0x1FFFFFFF }] &&
      (t.inst 0).imask == 0x4 && (t.inst 0).mb 2 0 == 0xC4200000#32 && (t.inst 0).mb 2 1 == 0x1FFFFFFF#32 &&
      (t.inst 0).rximr 2 == 0x1FFFFFFF#32 && (t.inst 0).mb 0 3 == 0) = true := by decide +kernel

/-- F7: MCR has HALT and FRZ, nothing is written. -/
theorem test_reconfig_freeze_timeout : nextIs (exec (.reconfig 1) (live box (fgs 5 ++ ptTicks 4 ++ fgs 1)))
    (fun t => t.outcome.code == 0xFF && t.insts == [{ box with mcr := 0x50000000#32, fpState := .freezing }]) =
      true := by decide +kernel

/-- E3's control word at ENCODE's `csw:`. -/
theorem test_txcs : nextIs (exec (.txcs 5)
      { live box [] with phase := .write 0 1 (txFrame (live box []).txf) (.csw 0) })
    (fun t => (t.inst 0).mb 0 0 == 0xCC250000#32) = true := by decide +kernel

/-- F1's control word at FSEQ's `fc:`. -/
theorem test_rxcs : nextIs (exec .rxcs
      { live box [] with phase := .reconfig 1 (live box []).flt (.seq 0 (.fc 0)) })
    (fun t => (t.inst 0).mb 2 0 == 0xC4200000#32) = true := by decide +kernel

/-! ## The reception handler -/

/-- Q1: D3's frame, the clock of T1, `cur = ts16`. -/
theorem test_handler_push : ((applyMoves (.irqStart 0 :: irqs 11) (live { box with iflag := 0x4 } [])).inst 0) =
    { box with queue := [{
      id := 0x1ABCDE01, dlc := 5, payload := [0x11, 0x22, 0x33, 0x44, 0x55], ts := 10000 }] } := by
  decide +kernel

/-- Q6. -/
theorem test_handler_full : ((applyMoves (.irqStart 0 :: irqs 4)
      (live { box with iflag := 0x4, queue := [frameA, frameA], discard := 0xFFFFFFFF#32 } [])).inst 0) =
    { box with queue := [frameA, frameA], discard := 0xFFFFFFFF#32 } := by decide +kernel

/-- F9: the acknowledges of the controller. -/
theorem test_freeze_ack : ({ box with mcr := 0x50000000#32 } : Inst).freezeAck.mcr = 0x59000000#32 ∧
    (({ box with mcr := 0x09000000#32 } : Inst).freezeLeave false).mcr = 0x08000000#32 ∧
    ({ box with mcr := 0x08000000#32 } : Inst).becomeReady.mcr = 0 := by decide

/-- R370: mailbox 0 busy, 1 free; VPS dropped for a time, IMB and LPTM as before, and TX_READY fails. -/
theorem test_report :
    (Inst.report small { box with ram := [(0x80, 0x0C000000#32)] } true 0).status = 0x00016000#32 ∧
    (Inst.report small { box with ram := [(0x80, 0x0C000000#32)] } false 0).status = 0x00012000#32 ∧
    txReady 0x00012000#32 = false := by decide +kernel

/-- P1: the second frame of the program over a full mailbox. -/
theorem test_reception : ((({ box with timer := 0x6E00 } : Inst).received 2 0x101 8
      [1, 2, 3, 4, 5, 6, 7, 8] true false false false 0).mb 2 0) = 0xC2286E00#32 := by decide +kernel

/-- The same with every reserved bit (R121, bits 28 and 23) as U13 allows. -/
theorem test_reception_reserved : ((({ box with timer := 0x6E00 } : Inst).received 2 0x101 8
      [1, 2, 3, 4, 5, 6, 7, 8] true false false false 0xFFFFFFFF#32).mb 2 0) = 0xD2A86E00#32 := by
  decide +kernel

/-! ## Witnesses: states and operands that meet the hypotheses of the statements -/

/-- A check of what Inst.Wf says. -/
def instOk (c : Config) (x : Inst) : Bool :=
  x.ram.wf && x.ram.all (fun p => decide (Stored c p.1)) && x.iflag &&& ~~~mbMask c == 0 &&
    x.imask &&& ~~~mbMask c == 0 && decide (x.queue.length ≤ c.qCap) && x.queue.all (fun f => decide f.Wf) &&
    decide (x.lastf.length ≤ c.fCap) && x.lock == none

theorem instOk_wf {c : Config} {x : Inst} (h : instOk c x = true) : x.Wf c := by
  simp only [instOk, Bool.and_eq_true, List.all_eq_true, decide_eq_true_eq, beq_iff_eq] at h
  obtain ⟨⟨⟨⟨⟨⟨⟨h1, h2⟩, h3⟩, h4⟩, h5⟩, h6⟩, h7⟩, h8⟩ := h
  exact ⟨h1, h2, h3, h4, h5, h6, h7, by simp [h8]⟩

/-- A check of what State.Wf says of a state at IDLE without a handler. -/
def quietOk (s : State) : Bool :=
  decide s.cfg.Legal && decide (s.insts.length = s.cfg.nIf) && decide (s.flt.length = s.cfg.fCap) &&
    decide (s.txf.data.length = 64) && decide (s.rxf.data.length = 64) && s.handle == s.groupLive &&
    s.insts.all (instOk s.cfg) && decide s.Ready && s.irq == none

theorem quietOk_wf {s : State} (h : quietOk s = true) : s.Wf ∧ s.Ready := by
  simp only [quietOk, Bool.and_eq_true, List.all_eq_true, decide_eq_true_eq, beq_iff_eq] at h
  obtain ⟨⟨⟨⟨⟨⟨⟨⟨h1, h2⟩, h3⟩, h4⟩, h5⟩, h6⟩, h7⟩, h8⟩, h9⟩ := h
  refine ⟨⟨h1, h2, h3, h4, h5, h6, fun x hx => instOk_wf (h7 x hx), ?_, ?_, ?_⟩, h8⟩
  · rw [h8.1]
    trivial
  · rw [h8.2, h9]
    rfl
  · intro r hr
    rw [h9] at hr
    exact nomatch hr

/-- The agenda plays no part in State.Wf. -/
theorem wf_agenda {s : State} (h : s.Wf ∧ s.Ready) (a : List Move) :
    State.Wf { s with agenda := a } ∧ State.Ready { s with agenda := a } :=
  ⟨⟨h.1.legal, h.1.instCount, h.1.fltCount, h.1.txfBytes, h.1.rxfBytes, h.1.handleLive, h.1.instWf,
    h.1.phaseWf, h.1.gimIrq, fun r hr => ⟨(h.1.irqWf r hr).inst, (h.1.irqWf r hr).label⟩⟩, h.2⟩

/-- `box` with a pending receive flag. -/
def flagged : Inst := { box with iflag := 0x4 }

/-- `box` with every acknowledge and every reserved bit of MCR set, and the last mailbox word. -/
def acked : Inst :=
  { box with mcr := 0xFFFFFFFF#32, ram := [(0x80, 0x0C000000#32), (0xB5, 0xFFFFFFFF#32)] }

theorem wf_live {x : Inst} (h : quietOk (live x []) = true) (a : List Move) :
    (live x a).Wf ∧ (live x a).Ready := wf_agenda (quietOk_wf h) a

theorem wf_down {x : Inst} (h : quietOk (down x []) = true) (a : List Move) :
    (down x a).Wf ∧ (down x a).Ready := wf_agenda (quietOk_wf h) a

/-! ### Encodings -/

theorem witness_DecodeOfEncode : (Instr.write 255 255).wellFormed = true ∧ Instr.rxcs.wellFormed = true := by
  decide

theorem witness_EncodeOfDecode : decode 0x5002FF00#32 = .instr (.write 2 255) := by decide

theorem witness_CommandTableSelectsRow : matchesRow 0x3000FF00#32 2 ∧ matchesRow 0x70000001#32 6 ∧
    decode 0x3000FF00#32 = .instr (.start 255) ∧ isCommand (.start 255) = true :=
  ⟨⟨_, rfl, rfl⟩, ⟨_, rfl, rfl⟩, by decide, rfl⟩

theorem witness_ReservedWordEndsBadArgument :
    (live box [.host (.cmd 0xCC250000#32), .fg]).Ready ∧ ∀ k, ¬ matchesRow 0xCC250000#32 k := by
  refine ⟨by decide, ?_⟩
  rintro k ⟨row, hr, hw⟩
  have : ∀ r ∈ commandRows, 0xCC250000#32 &&& r.2 ≠ r.1 := by simp [commandRows]
  exact this row (List.mem_of_getElem? hr) hw

theorem witness_StepRunsDecodedInstruction : (live box [.host (.cmd 0x60000000#32)]).Ready ∧
    decode 0x60000000#32 = .instr (.read 0) := by decide

theorem witness_StepOtherwiseMakesOneMove : (Move.env .ptTick).isHost = false ∧ Move.fg.isHost = false ∧
    ({ live box [.host (.setTmo 5)] with phase := .stop .tmr } : State).phase ≠ .idle ∧
    (live box [.host (.setTmo 5)]).Ready ∧
    ({ live box [.host (.setTmo 5)] with gim := true, irq := some ⟨0, .exit⟩ } : State).phase = .idle ∧
    ({ live box [.host (.setTmo 5)] with gim := true, irq := some ⟨0, .exit⟩ } : State).gim = true := by decide

/-- R98: the host's write waits for the handler's exit, and is then taken. -/
theorem test_host_write_waits :
    nextIs (step { live box [.host (.setTmo 5)] with gim := true, irq := some ⟨0, .exit⟩ })
      (fun t => decide (t.gim = false ∧ t.tmo = 0 ∧ t.agenda = [.host (.setTmo 5)])) = true ∧
    nextIs (step (live box [.host (.setTmo 5)])) (fun t => decide (t.tmo = 5 ∧ t.agenda = [])) = true := by
  decide +kernel

theorem witness_FetchWordStepRunsInstruction :
    decode (BitVec.ofNat 32 (0xC4200000 % 2 ^ 32)) = .instr .rxcs := by decide

theorem witness_IssueLatchesOperands : (live box []).Ready ∧ ({ live box [] with gim := true } : State).gim = true ∧ (live box []).agenda = [] ∧
    0 < (live box []).cfg.nIf ∧ ({ live box [] with phase := .stop .tmr } : State).phase ≠ .idle ∧
    isCommand .stop = true := by decide

/-! ### Machine -/

theorem witness_PowerOnIsWellFormed : cfgEx.Legal ∧ small.Legal ∧ (AnyValues.zero cfgEx).Wf cfgEx := by
  refine ⟨by decide, by decide, by decide, by decide, by decide, by decide, ?_⟩
  intro x hx
  obtain rfl := (List.mem_replicate.mp hx).2
  exact ⟨rfl, fun p hp => nomatch hp⟩

theorem witness_StepKeepsWellFormed : (live box [.fg]).Wf ∧ State.reset.Wf :=
  ⟨(wf_live (by decide +kernel) _).1, (quietOk_wf (by decide +kernel)).1⟩

/-- Also of RegisterWritesAndRefusals and MailboxWordAccess, at the first and the last mailbox and word. -/
theorem witness_RegisterReadsAndLockRelease : (live acked []).cfg.Legal ∧
    (live acked []).insts.length = (live acked []).cfg.nIf ∧ 0 < (live acked []).cfg.nIf ∧
    2 < (live acked []).cfg.nMb ∧ ((live acked []).inst 0).mb 2 17 = 0xFFFFFFFF#32 ∧ 17 < 18 := by decide

theorem witness_OutsideTheMapRefused : (live box []).cfg.nIf ≤ 1 ∧ 4 < 5 ∧
    ¬ (0x20 ≤ 0x23 ∧ 0x23 < 0x20 + (live box []).cfg.nMb) ∧
    ¬ (0x80 ≤ 0xB6 ∧ 0xB6 < 0x80 + 18 * (live box []).cfg.nMb) := by decide

theorem witness_MailboxStoreThenLoad : small.Legal ∧ box.ram.wf = true ∧ 2 < small.nMb := by decide

/-! ### Values -/

theorem witness_PackUnpackLaw : ([1, 2, 3, 4, 5] : List Byte).length ≤ 64 ∧ (List.replicate 64 (7 : Byte)).length ≤ 64 ∧
    [0x11223344#32, 0x55AABBCC#32].length = nwords 5 ∧ ([] : List Word).length = nwords 0 := by
  decide +kernel

theorem witness_EncodeThenDecodeRoundTrip :
    ({ live box [] with phase := .write 0 1 frameA (.idw 0) } : State).gim = false ∧
      0 < (live box []).insts.length ∧ ((live box []).inst 0).ram.wf = true ∧ frameA.Wf := by decide

/-! ### Environment -/

theorem witness_TimersTick : (live box []).clkRun = true ∧
    (live box []).insts.length = (live box []).cfg.nIf ∧ (State.powerOn small (AnyValues.zero small)).clkRun = false ∧
    ({ live box [] with ptRun := true } : State).ptVal ≠ 0 ∧ (live box []).ptRun = false := by decide

theorem witness_EnvironmentChangesOnlyItsFields : (live { box with iflag := 0x7 } []).Wf :=
  (wf_live (by decide +kernel) _).1

/-- `can` holds of an armed mailbox with a matching mask; P1's first frame. -/
theorem witness_ReceptionMoveEffect :
    (live { box with ram := [(0x22, 0x1#32), (0xA4, 0xC4200000#32)] } []).Wf ∧
      Inst.rxEnabled small { box with ram := [(0x22, 0x1#32), (0xA4, 0xC4200000#32)] } 2 0x100 0 [] = true ∧
      Inst.rxEnabled small { box with ram := [(0x22, 0x1#32), (0xA4, 0xC4200000#32)] } 2 0x101 0 [] = false :=
  ⟨(wf_live (by decide +kernel) _).1, by decide +kernel, by decide +kernel⟩

theorem witness_TransmissionMoveEffect :
    (live { box with ram := [(0x80, 0xCC210000#32), (0x82, 0xAB000000#32)] } []).Wf ∧
      Inst.txEnabled { box with ram := [(0x80, 0xCC210000#32), (0x82, 0xAB000000#32)] } 0 = true ∧
      Inst.txEnabled { box with ram := [(0x80, 0xCC210000#32), (0x82, 0xAB000000#32)] } 1 = false :=
  ⟨(wf_live (by decide +kernel) _).1, by decide +kernel, by decide +kernel⟩

theorem witness_FreezeAndLowPowerAcknowledges : 0 < (live acked []).insts.length ∧ acked.enabled = true ∧
    acked.mcr.getLsbD 28 = true ∧ acked.mcr.getLsbD 30 = true ∧ acked.mcr.getLsbD 31 = true ∧
    box.mcr.getLsbD 28 = false ∧ box.mcr.getLsbD 24 = false := by decide

/-- An interface whose unfreeze is requested and FRZACK still up. -/
theorem witness_FreezeAndLowPowerAcknowledges_ready :
    ({ box with mcr := 0x09000000#32 } : Inst).enabled = true ∧
      ({ box with mcr := 0x09000000#32 } : Inst).mcr.getLsbD 28 = false ∧
      ({ box with mcr := 0x09000000#32 } : Inst).mcr.getLsbD 24 = true := by decide

/-! ### The handler -/

theorem witness_HandlerEntryAndExit : 0 < (live flagged []).cfg.nIf ∧ (live flagged []).gim = false ∧
    ((live flagged []).inst 0).enabled = true ∧
    ((live flagged []).inst 0).iflag &&& ((live flagged []).inst 0).imask ≠ 0 ∧
    ((live box []).inst 0).iflag &&& ((live box []).inst 0).imask = 0 ∧
    ({ live box [] with gim := true, irq := some ⟨0, .exit⟩ } : State).irq = some ⟨0, .exit⟩ := by decide

theorem witness_InterruptMaskChangesOnlyAtEntryAndExit :
    (applyMove (.irqStart 0) (live flagged [])).gim ≠ (live flagged []).gim := by decide

/-- A saturated and an unsaturated counter at `cnt:`, and START's `rst:`. -/
theorem witness_DiscardCountsDropsOnly :
    0 < (live box []).insts.length ∧
      ((live { box with discard := 0xFFFFFFFF#32 } []).inst 0).discard = 0xFFFFFFFF#32 ∧
      ({ live box [] with gim := true, irq := some ⟨0, .cnt 2⟩ } : State).irq = some ⟨0, .cnt 2⟩ ∧
      ({ live box [] with phase := .start 0 [] .rst } : State).phase = .start 0 [] .rst := by decide

theorem witness_HandlerPushesDecodedFrame : (live flagged []).Wf ∧ (live flagged []).gim = false ∧
    ((live flagged []).inst 0).pend = true ∧ 2 < 2 + small.fCap ∧
    ((live flagged []).inst 0).iflag.getLsbD 2 = true ∧ ((live flagged []).inst 0).queue.length < small.qCap :=
  ⟨(wf_live (by decide +kernel) _).1, by decide, by decide, by decide, by decide, by decide⟩

/-- The full queue, and the spurious entry of Q3: only a transmit flag is pending. -/
theorem witness_HandlerPushesNothing :
    (live { flagged with queue := [frameA, frameA] } []).Wf ∧
      ({ flagged with queue := [frameA, frameA] } : Inst).pend = true ∧
      ({ flagged with queue := [frameA, frameA] } : Inst).queue.length = small.qCap ∧
      (live { box with iflag := 0x3, imask := 0x7 } []).Wf ∧
      ({ box with iflag := 0x3, imask := 0x7 } : Inst).pend = true ∧
      ({ box with iflag := 0x3, imask := 0x7 } : Inst).iflag.getLsbD 2 = false :=
  ⟨(wf_live (by decide +kernel) _).1, by decide, by decide, (wf_live (by decide +kernel) _).1, by decide,
    by decide⟩

theorem witness_HostWritesInFlightIgnored : isCommand .stop = true ∧
    exec .stop { live box [] with agenda := [.fg, .host (.setTmo 5), .fg] } =
      .next (drive [.fg, .host (.setTmo 5), .fg]
        (goto { live box [] with agenda := [.fg, .host (.setTmo 5), .fg] } (.stop (.lpr 0)))) := ⟨rfl, rfl⟩

/-! ### Commands -/

/-- Also of GetmaxfReportsFilterCapacity. -/
theorem witness_GetifcReportsInterfaces : (live box [.fg]).cfg.Legal ∧ (live box [.fg]).Ready ∧
    (live box [.fg]).agenda = .fg :: [] := by decide

theorem witness_GroupCommandsNeedLiveGroup :
    (applyMove .fg { live box [] with phase := .stop .dead }).groupLive ≠ (live box []).groupLive ∧
    (down box [.fg, .fg]).Ready ∧
    (down box [.fg, .fg]).groupLive = false ∧ (down box [.fg, .fg]).agenda = .fg :: [.fg] := by decide

/-- Each bound at its first value outside, and a count of zero. -/
theorem witness_OutOfBoundsIsBadArgument : (live box [.fg]).Ready ∧ (live box [.fg]).groupLive = true ∧
    (live box [.fg]).cfg.nIf ≤ 1 ∧ (live box [.fg]).cfg.txnMax < 2 ∧ (live box [.fg]).cfg.fCap < 2 := by decide

theorem witness_StartWhileLiveFails : (live box [.fg]).Ready ∧ (live box [.fg]).groupLive = true ∧
    (live box [.fg]).Wf ∧ (Instr.start 1).wellFormed = true ∧
    exec .getifc (live box []) = .next (issue (live box []) .getifc) :=
  ⟨by decide, rfl, (wf_live (by decide +kernel) _).1, by decide, rfl⟩

theorem witness_ReadOutcomes : (live { box with queue := [frameA] } (fgs 2 ++ [.fg])).Wf ∧
    (live { box with queue := [frameA] } (fgs 2 ++ [.fg])).Ready ∧
    ((live { box with queue := [frameA] } (fgs 2 ++ [.fg])).inst 0).queue = frameA :: [] ∧
    (live box (fgs 2)).Wf ∧ ((live box (fgs 2)).inst 0).queue = [] ∧ (live box (fgs 2)).cfg.nIf ≤ 1 ∧
    (down box (fgs 2)).Wf ∧ (down box (fgs 2)).groupLive = false :=
  ⟨(wf_live (by decide +kernel) _).1, by decide, rfl, (wf_live (by decide +kernel) _).1, rfl, by decide,
    (wf_down (by decide +kernel) _).1, rfl⟩

/-- Also of EarlyTransmissionSendsOldWords with its own agenda. -/
theorem witness_WriteSendsFrame :
    (live box (writeMoves (txFrame (live box []).txf) ++ .env (.tx 0 0) :: (fgs 2 ++ [.fg]))).Wf ∧
      (live box []).Ready ∧ (live box []).groupLive = true ∧ 0 < (live box []).cfg.nIf ∧
      1 ≤ (live box []).cfg.txnMax ∧ ((live box []).inst 0).mayTransmit = true ∧
      txReady ((live box []).inst 0).status = true ∧ lptm ((live box []).inst 0).status = 0 ∧
      (live box (fgs 4 ++ [.env (.tx 0 0)])).Wf :=
  ⟨(wf_live (by decide +kernel) _).1, by decide, rfl, by decide, by decide, by decide, by decide, by decide,
    (wf_live (by decide +kernel) _).1⟩

theorem witness_WriteWithoutFreeMailbox : (live { box with status := 0x00026000#32 } (fgs 2)).Ready ∧
    txReady ((live { box with status := 0x00026000#32 } []).inst 0).status = false ∧
    txReady 0x00016000#32 = true ∧
    ({ live box [] with phase := .write 0 1 frameA .rdy } : State).gim = false := by decide

theorem witness_WriteTimesOut : (live box []).Wf ∧ txReady ((live box []).inst 0).status = true ∧
    ((live box []).inst 0).iflag.getLsbD (lptm ((live box []).inst 0).status) = false :=
  ⟨(wf_live (by decide +kernel) _).1, by decide, by decide⟩

theorem witness_WriteSucceedsOnStaleFlag : (live { box with iflag := 0x1 } []).Wf ∧
    txReady ((live { box with iflag := 0x1 } []).inst 0).status = true ∧
    ((live { box with iflag := 0x1 } []).inst 0).iflag.getLsbD
      (lptm ((live { box with iflag := 0x1 } []).inst 0).status) = true :=
  ⟨(wf_live (by decide +kernel) _).1, by decide, by decide⟩

/-- The queue ready, and only STATUS ready. -/
theorem witness_SelectFindsReadyInterface : (live { box with queue := [frameA] } []).Ready ∧
    ((live { box with queue := [frameA] } []).inst 0).queue ≠ [] ∧ ((live box []).inst 0).queue = [] ∧
    txReady ((live box []).inst 0).status = true ∧ 0 < (live box []).cfg.nIf := by decide

/-- `TMO = 0` on both sides of the bound: no tick and one tick. -/
theorem witness_SelectTimesOut : (live { box with status := 0 } []).Ready ∧
    ((live { box with status := 0 } []).inst 0).queue = [] ∧
    txReady ((live { box with status := 0 } []).inst 0).status = false ∧
    (live box []).tmo.toNat < 1 ∧ 0 ≤ (live box []).tmo.toNat ∧ 1 ≤ 0xFFFFFFFF := by decide

/-- No filter and as many as there is room for. -/
theorem witness_ReconfigRewritesEveryInterface : (live box (reconfigMoves small 1 ++ [.fg])).Wf ∧
    (live box (reconfigMoves small 0 ++ [.fg])).Wf ∧ (live box []).Ready ∧ 1 ≤ (live box []).cfg.fCap ∧
    ((live box []).inst 0).enabled = true :=
  ⟨(wf_live (by decide +kernel) _).1, (wf_live (by decide +kernel) _).1, by decide, by decide, rfl⟩

theorem wf_group {xs : List Inst} (h : quietOk (group xs []) = true) (a : List Move) :
    (group xs a).Wf ∧ (group xs a).Ready := wf_agenda (quietOk_wf h) a

/-- The first and the last interface of two, and each of the three polls, in RECONFIG. -/
theorem witness_FreezeTimeoutAborts :
    (∀ a, (group [box, box] a).Wf ∧ (group [box, box] a).Ready) ∧ (group [box, box] []).groupLive = true ∧
      1 ≤ (group [box, box] []).cfg.fCap ∧ 1 < (group [box, box] []).cfg.nIf ∧
      (∀ i, i ≤ 1 → ((group [box, box] []).inst i).enabled = true) ∧
      ((group [box, box] []).inst 0).mcr.getLsbD 24 = false ∧
      ((group [box, box] []).inst 1).mcr.getLsbD 24 = false :=
  ⟨wf_group (by decide +kernel), rfl, by decide, by decide, by decide, by decide, by decide⟩

/-- The same in START. -/
theorem witness_FreezeTimeoutAborts_start :
    (∀ a, (down box a).Wf ∧ (down box a).Ready) ∧ (down box []).groupLive = false ∧
      (upFresh 0).mcr.getLsbD 24 = false ∧ 0 < (down box []).cfg.nIf :=
  ⟨wf_down (by decide +kernel), rfl, by decide, by decide⟩

/-- For every agenda: the all-Ok run, and a timeout of either collaborator. -/
theorem witness_StartBringsUpGroup :
    (∀ a, (down box a).Wf ∧ (down box a).Ready) ∧ (down box []).groupLive = false ∧
      1 ≤ (down box []).cfg.fCap ∧ 0 < (down box []).cfg.nIf :=
  ⟨wf_down (by decide +kernel), rfl, by decide, by decide⟩

/-- Also of StopAbortsAtSilentInterface at interface 0, whose LPMACK is clear. -/
theorem witness_StopGatesEveryInterface : (live box (stopMoves small ++ [.fg])).Wf ∧ (live box []).Ready ∧
    ((live box []).inst 0).enabled = true ∧ 0 < (live box []).cfg.nIf ∧
    ((live box []).inst 0).mcr.getLsbD 20 = false :=
  ⟨(wf_live (by decide +kernel) _).1, by decide, rfl, by decide, by decide⟩

theorem witness_ControlWordWrites : (live box []).gim = false ∧ 15 < 16 ∧
    ({ live box [] with phase := .write 0 1 frameA (.csw 1) } : State).phase = .write 0 1 frameA (.csw 1) ∧
    ({ live box [] with phase := .start 1 [] (.fp 0 (.fc 0)) } : State).phase = .start 1 [] (.fp 0 (.fc 0)) ∧
    ({ live box [] with phase := .reconfig 1 [] (.seq 0 (.fc 0)) } : State).phase =
      .reconfig 1 [] (.seq 0 (.fc 0)) ∧ (live box []).Ready ∧ ({ live box [] with gim := true } : State).gim = true := by
  decide

/-! ### Frames -/

/-- The gated interface of StopFrame. -/
theorem witness_StopFrame : ((live { box with enabled := false } []).inst 0).enabled = false ∧
    ({ live box [] with phase := .stop (.lpa 0 .sample) } : State).gim = false ∧
    ({ live box [] with phase := .stop (.lpr2 0 5#32) } : State).gim = false := by decide

/-- The bring-up clause of FilterCommandsFrame. -/
theorem witness_FilterCommandsFrame : ∀ r pt,
    Move.instBringup r pt ∈ startMoves small 1 upFresh none → ∃ u, r = .ok u := by
  intro r pt h
  simp [startMoves, startUpTo, fseqMoves, rewriteMoves, fgs, small] at h
  exact ⟨_, h.1⟩

/-- Of the four frame statements: a foreground agenda, a well-formed state and an answer. -/
theorem witness_Frames : (live box (fgs 6)).Wf ∧ (∀ m ∈ (live box (fgs 6)).agenda, m.foreground = true) ∧
    exec (.write 0 1) (live box (fgs 6)) =
      .next (issue (live box (fgs 6)) (.write 0 1 (txFrame (live box []).txf) .chk)) ∧
    exec (.reconfig 1) (live box (fgs 6)) =
      .next (issue (live box (fgs 6)) (.reconfig 1 (latchFilters 1 (live box []).flt) .chk)) :=
  ⟨(wf_live (by decide +kernel) _).1, by decide, rfl, rfl⟩

end Sys2Proof.Machine.Tests
end

section
/-! SUPPORT. What power-on (R62) establishes, and the values of log 5 as an instance of it. -/

namespace Sys2Proof.Machine

variable {c : Config}

/-- Of what Inst.Wf asks, power-on leaves open only the memory: the flags are zero, the queue and LASTF
are empty, and nothing is locked (R62). -/
theorem Inst.powerOn_wf {a : AnyInst} (hcanonical : a.ram.wf = true) (hmapped : ∀ p ∈ a.ram, Stored c p.1) :
    (Inst.powerOn a).Wf c where
  canonical := hcanonical
  mapped := hmapped
  iflagShape := BitVec.zero_and
  imaskShape := BitVec.zero_and
  queueBound := Nat.zero_le _
  queueFrames := List.forall_mem_nil _
  lastfBound := Nat.zero_le _
  lockRange := by simp [Inst.powerOn]

/-- FG is idle, no group is live and no handler runs at power-on, so what the open values must bring is
their shape alone (R62). -/
theorem State.powerOn_wf {a : AnyValues} (hc : c.Legal) (ha : a.Wf c) : (State.powerOn c a).Wf where
  legal := hc
  instCount := by simpa [State.powerOn] using ha.instCount
  fltCount := ha.fltCount
  txfBytes := ha.txfBytes
  rxfBytes := ha.rxfBytes
  handleLive := rfl
  instWf := by
    refine List.forall_mem_map.mpr fun b hb => ?_
    obtain ⟨hcanonical, hmapped⟩ := ha.ramWf b hb
    exact Inst.powerOn_wf hcanonical hmapped
  phaseWf := trivial
  gimIrq := rfl
  irqWf := by simp [State.powerOn]

/-- Log 5's choice of zero has the shape R62 needs, in every configuration. -/
theorem AnyValues.zero_wf (c : Config) : (AnyValues.zero c).Wf c where
  txfBytes := List.length_replicate
  fltCount := List.length_replicate
  rxfBytes := List.length_replicate
  instCount := List.length_replicate
  ramWf := by
    intro x hx
    obtain rfl : x = AnyInst.zero := List.eq_of_mem_replicate hx
    exact ⟨rfl, List.forall_mem_nil _⟩

/-- The example configuration meets R10's constraints (log 1). -/
theorem cfgEx_legal : cfgEx.Legal := by decide

/-- Settles O11: power-on fixes everything State.Wf speaks of except the shape of the open values, and
State.reset is power-on at CFG_EX with zero for each of them. -/
theorem powerOnIsWellFormed : Obligations.PowerOnIsWellFormed :=
  ⟨fun _ _ hc ha => State.powerOn_wf hc ha, State.powerOn_wf cfgEx_legal (AnyValues.zero_wf cfgEx)⟩

end Sys2Proof.Machine
end

section
/-! SUPPORT. Every step keeps State.Wf: what an instruction does from a well-formed state, on top of the
moves of the agents. -/

namespace Sys2Proof.Machine

variable {s : State}

/-- TXF_DATA holds 64 bytes, the length of the greatest code, so the latched payload is never short (R32, R56). -/
theorem State.Wf.txFrame_wf (h : s.Wf) : (txFrame s.txf).Wf := by
  have hle := dlc2len_le s.txf.dlc
  simpa [Frame.Wf, txFrame, h.txfBytes] using hle

/-- At most F_CAP filters are latched, whatever COUNT is (R33, R139). -/
theorem State.Wf.latchFilters_length_le (h : s.Wf) (count : Nat) :
    (latchFilters count s.flt).length ≤ s.cfg.fCap := by
  simp [latchFilters, h.fltCount]

theorem State.Wf.takeMove (h : s.Wf) : (takeMove s).Wf := h.others ..

theorem State.Wf.latchCmd (h : s.Wf) (w : Word) : (latchCmd s w).Wf := h.others ..

theorem State.Wf.reservedWord (h : s.Wf) : (reservedWord s).Wf := h.others ..

theorem issue_wf (h : s.Wf) {p : Phase} (hp : p.Wf s.cfg s.groupLive) : (issue s p).Wf := by
  unfold issue
  split
  · exact drive_wf _ (h.goto hp)
  · exact h

/-- ENCODE's control word may be any word: only where it goes matters (R195). -/
theorem controlStore_wf (h : s.Wf) (hg : s.gim = false) {inst count m : Nat} {f : Frame}
    (hf : f.Wf) (hl : (WriteLabel.csw m).Wf s.cfg inst f) (cs : Word) :
    (controlStore s inst count f m cs).Wf := by
  obtain ⟨hinst, hm⟩ := hl
  have h2 := legal_two h.legal
  refine (h.mbWrite hg inst (by omega) (by omega) cs).goto ⟨hf, ?_⟩
  unfold afterControl
  split
  · next hw => exact ⟨hinst, hm, hw⟩
  · exact ⟨hinst, hm⟩

theorem armMailbox_wf (h : s.Wf) (hg : s.gim = false) (i : Nat) {n j : Nat} (hn : n ≤ s.cfg.fCap)
    (hj : j < n) (cs : Word) : (armMailbox s i j cs).Wf :=
  h.mbWrite hg i (legal_filters h.legal hn hj) (by omega) cs

theorem execTxcs_wf (h : s.Wf) (dlc : Nat) {t : State} (ht : execTxcs dlc s = .next t) : t.Wf := by
  have hp := h.phaseWf
  unfold execTxcs at ht
  split at ht
  · cases ht; exact h
  · next hg =>
    split at ht <;> cases ht
    · exact h.reservedWord
    · next hph =>
      rw [hph] at hp
      exact controlStore_wf h (by simpa using hg) hp.1 hp.2 _
    · exact h

theorem execRxcs_wf (h : s.Wf) {t : State} (ht : execRxcs s = .next t) : t.Wf := by
  have hp := h.phaseWf
  unfold execRxcs at ht
  split at ht
  · cases ht; exact h
  · next hg =>
    have hg' : s.gim = false := by simpa using hg
    split at ht <;> cases ht
    · exact h.reservedWord
    · next hph =>
      rw [hph] at hp
      obtain ⟨hn, hlive, hi, hj⟩ := hp
      exact (armMailbox_wf h hg' _ hn hj _).goto ⟨hn, hlive, hi, hj⟩
    · next hph =>
      rw [hph] at hp
      obtain ⟨hn, hi, hj⟩ := hp
      exact (armMailbox_wf h hg' _ hn hj _).goto ⟨hn, hi, hj⟩
    · exact h

/-- Every instruction keeps State.Wf, issued at IDLE or at another point. -/
theorem exec_wf (h : s.Wf) (i : Instr) {t : State} (ht : exec i s = .next t) : t.Wf := by
  cases i with
  | txcs dlc => exact execTxcs_wf h dlc ht
  | rxcs => exact execRxcs_wf h ht
  | getifc => cases ht; exact issue_wf h trivial
  | getmaxf => cases ht; exact issue_wf h trivial
  | start count => cases ht; exact issue_wf h ⟨h.latchFilters_length_le count, trivial⟩
  | stop => cases ht; exact issue_wf h (stopLoop_wf s 0 _)
  | write inst count => cases ht; exact issue_wf h ⟨h.txFrame_wf, trivial⟩
  | read inst => cases ht; exact issue_wf h trivial
  | select ignw => cases ht; exact issue_wf h trivial
  | reconfig count => cases ht; exact issue_wf h ⟨h.latchFilters_length_le count, trivial⟩

theorem issueWord_wf (h : s.Wf) (w : Word) {t : State} (ht : issueWord s w = .next t) : t.Wf := by
  unfold issueWord at ht
  split at ht
  · exact exec_wf (h.latchCmd w) _ ht
  · cases ht; exact (h.latchCmd w).reservedWord

theorem floorMove_wf (h : s.Wf) : (floorMove s).Wf := by
  unfold floorMove
  split
  · exact irqStep_wf h
  · exact fgMicro_wf h

theorem moveStep_wf (h : s.Wf) : (moveStep s).Wf := by
  unfold moveStep
  split
  · exact floorMove_wf h
  · split
    · exact floorMove_wf h
    · exact applyMove_wf h.takeMove _

/-- Settles O12: a step is one agent's move or the issue of the word in CMD, and both keep State.Wf. -/
theorem stepKeepsWellFormed : Obligations.StepKeepsWellFormed := by
  intro s t h ht
  unfold step at ht
  split at ht
  · exact issueWord_wf h _ ht
  · cases ht; exact moveStep_wf h

end Sys2Proof.Machine
end

section
/-! SUPPORT. Who changes what a handler owns: GIM, the handler's position, and of each interface the lock, the
queue and the discard counter (R49, R54, R55, R58). Outside the handler, only READ's `pop:` and START's `rst:` do. -/

namespace Sys2Proof.Machine

/-! ## What a handler owns -/

/-- Of an interface: the lock, the queue and the discard counter, which neither ENV nor a register write touches. -/
def Inst.handlerPart (x : Inst) : Option Nat × List Frame × Word := (x.lock, x.queue, x.discard)

/-- `t` is `s` in everything a handler owns. -/
structure Undisturbed (s t : State) : Prop where
  gim : t.gim = s.gim
  irq : t.irq = s.irq
  part : ∀ j, (t.inst j).handlerPart = (s.inst j).handlerPart

/-- An interface is changed as told, or it is another one or none and is left alone. -/
theorem inst_modInst_cases (s : State) (i : Nat) (f : Inst → Inst) (j : Nat) :
    (s.modInst i f).inst j = s.inst j ∨ j = i ∧ (s.modInst i f).inst j = f (s.inst j) := by
  by_cases hj : j = i
  · subst hj
    by_cases hlen : j < s.insts.length
    · exact .inr ⟨rfl, inst_modInst_same s hlen f⟩
    · left
      rw [inst_absent s (by omega), inst_absent _ (by simpa using hlen)]
  · exact .inl (inst_modInst_ne s hj f)

theorem Undisturbed.refl (s : State) : Undisturbed s s := ⟨rfl, rfl, fun _ => rfl⟩

section Updates

variable {s t : State}

theorem Undisturbed.modInst (h : Undisturbed s t) (i : Nat) {f : Inst → Inst}
    (hf : ∀ x, (f x).handlerPart = x.handlerPart) : Undisturbed s (t.modInst i f) := by
  refine ⟨h.gim, h.irq, fun j => ?_⟩
  rcases inst_modInst_cases t i f j with he | ⟨-, he⟩ <;> rw [he]
  · exact h.part j
  · exact (hf _).trans (h.part j)

theorem Undisturbed.goto (h : Undisturbed s t) (p : Phase) : Undisturbed s (goto t p) := ⟨h.gim, h.irq, h.part⟩

theorem Undisturbed.ret (h : Undisturbed s t) (r : OutcomeCode) : Undisturbed s (ret t r) :=
  ⟨h.gim, h.irq, h.part⟩

theorem Undisturbed.retWritten (h : Undisturbed s t) (r : OutcomeCode) (n : BitVec 8) :
    Undisturbed s (retWritten t r n) := ⟨h.gim, h.irq, h.part⟩

theorem Undisturbed.retHandle (h : Undisturbed s t) (r : OutcomeCode) (b : Bool) :
    Undisturbed s (retHandle t r b) := ⟨h.gim, h.irq, h.part⟩

theorem Undisturbed.regWrite (h : Undisturbed s t) (i : Nat) (r : WriteReg) (v : Word) :
    Undisturbed s (regWrite t i r v) :=
  h.modInst i fun x => by cases r <;> rfl

theorem Undisturbed.mbWrite (h : Undisturbed s t) (i m k : Nat) (v : Word) :
    Undisturbed s (mbWrite t i m k v) :=
  h.modInst i fun _ => rfl

theorem Undisturbed.setFpState (h : Undisturbed s t) (i : Nat) (p : FpState) :
    Undisturbed s (setFpState t i p) :=
  h.modInst i fun _ => rfl

theorem Undisturbed.drawn (h : Undisturbed s t) : Undisturbed s (drawn t) := ⟨h.gim, h.irq, h.part⟩

/-- No timer is the handler's. -/
theorem Undisturbed.timers (h : Undisturbed s t) (lo hi : Word) (run : Bool) (pv : Word) (pr : Bool) :
    Undisturbed s { t with clkLo := lo, clkHi := hi, clkRun := run, ptVal := pv, ptRun := pr } :=
  ⟨h.gim, h.irq, h.part⟩

end Updates

/-! ## FG -/

theorem waitState_undisturbed (s : State) (w : WaitLabel) : Undisturbed s (waitState s w) := by
  cases w with
  | restart => exact (Undisturbed.refl s).timers ..
  | sample => exact .refl s
  | deadline => exact .refl s

theorem fseqState_undisturbed (s : State) (i : Nat) (fs : List FilterReg) (hook : Bool) (l : FseqLabel) :
    Undisturbed s (fseqState s i fs hook l) := by
  have h := Undisturbed.refl s
  cases l with
  | frz => exact h
  | frz2 v => exact (h.regWrite i _ _).setFpState i _
  | ack1 w =>
    simp only [fseqState]
    split
    · exact h.setFpState i _
    · exact waitState_undisturbed s w
  | zmb a => exact h.mbWrite i _ _ _
  | zim m => exact h.regWrite i _ _
  | fm j => exact h.regWrite i _ _
  | fc j => exact h.mbWrite i _ _ _
  | fi j => exact h.mbWrite i _ _ _
  | lst => exact h.modInst i fun _ => rfl
  | hk =>
    simp only [fseqState]
    split
    · exact h.regWrite i _ _
    · exact h
  | unf => exact h
  | unf2 v => exact (h.regWrite i _ _).setFpState i _
  | ack2 w => exact waitState_undisturbed s w
  | rdy w =>
    simp only [fseqState]
    split
    · exact h.setFpState i _
    · exact waitState_undisturbed s w

theorem reconfigStep_undisturbed (s : State) (count : Nat) (fs : List FilterReg) (l : ReconfigLabel) :
    Undisturbed s (reconfigStep s count fs l) := by
  have h := Undisturbed.refl s
  cases l with
  | chk =>
    simp only [reconfigStep]
    split
    · exact h.ret _
    split
    · exact h.ret _
    split
    · exact h.goto _
    · exact h.ret _
  | seq i fl =>
    have hf := fseqState_undisturbed s i fs false fl
    simp only [reconfigStep]
    split
    · exact hf.goto _
    · exact hf.ret _
    split
    · exact hf.goto _
    · exact hf.ret _

/-- START disturbs a handler's part only at `rst:` (R341). -/
theorem startStep_undisturbed (s : State) (count : Nat) (fs : List FilterReg) {l : StartLabel} (hl : l ≠ .rst) :
    Undisturbed s (startStep s count fs l) := by
  have h := Undisturbed.refl s
  cases l with
  | rst => exact absurd rfl hl
  | chk =>
    simp only [startStep]
    split
    · exact h.ret _
    split
    · exact h.ret _
    · exact h.goto _
  | clk => exact h
  | tmr => exact (h.timers ..).goto _
  | up i => exact h
  | fp i fl =>
    have hf := fseqState_undisturbed s i fs true fl
    simp only [startStep]
    split
    · exact hf.goto _
    · exact hf.retHandle _ _
    · exact hf.goto _
  | live => exact ⟨rfl, rfl, fun _ => rfl⟩

theorem mcrWriteGated_undisturbed (s : State) (i : Nat) (v : Word) : Undisturbed s (mcrWriteGated s i v) := by
  have hw := (Undisturbed.refl s).regWrite i .mcr v
  unfold mcrWriteGated
  split
  · exact hw
  split
  · exact hw.drawn
  · exact (Undisturbed.refl s).drawn

theorem lpaState_undisturbed (s : State) (i : Nat) (w : WaitLabel) : Undisturbed s (lpaState s i w) := by
  cases w with
  | restart => exact waitState_undisturbed s .restart
  | sample =>
    simp only [lpaState]
    split
    · exact .refl s
    · exact (Undisturbed.refl s).drawn
  | deadline => exact .refl s

theorem stopStep_undisturbed (s : State) (l : StopLabel) : Undisturbed s (stopStep s l) := by
  have h := Undisturbed.refl s
  cases l with
  | lpr i => exact h.goto _
  | lpr2 i v => exact (mcrWriteGated_undisturbed s i _).goto _
  | lpa i w =>
    have hw := lpaState_undisturbed s i w
    simp only [stopStep]
    split
    · exact hw.goto _
    · exact hw.goto _
    · exact hw.ret _
  | gate i => exact (h.modInst (f := fun x => { x with enabled := false }) i fun _ => rfl).goto _
  | tmr => exact (h.timers ..).goto _
  | dead => exact ⟨rfl, rfl, fun _ => rfl⟩

theorem writeStep_undisturbed (s : State) (inst count : Nat) (f : Frame) (l : WriteLabel) :
    Undisturbed s (writeStep s inst count f l) := by
  have h := Undisturbed.refl s
  cases l with
  | chk =>
    simp only [writeStep]
    split
    · exact h.retWritten _ _
    split
    · exact h.retWritten _ _
    · exact h.goto _
  | rdy =>
    simp only [writeStep]
    split
    · exact h.goto _
    · exact h.retWritten _ _
  | idw m => exact (h.mbWrite inst m 1 _).goto _
  | csw m => exact (h.mbWrite inst m 0 _).goto _
  | dw m w => exact (h.mbWrite inst m _ _).goto _
  | cmp m wl =>
    have hw := waitState_undisturbed s wl
    simp only [writeStep]
    split
    · exact hw.goto _
    · exact hw.goto _
    · exact hw.retWritten _ _
  | clr m => exact (h.regWrite inst _ _).retWritten _ _

theorem selectStep_undisturbed (s : State) (ignw : Bool) (tmo : Word) (l : SelectLabel) :
    Undisturbed s (selectStep s ignw tmo l) := by
  have h := Undisturbed.refl s
  cases l with
  | restart => exact (h.timers ..).goto _
  | chk | q i | t i | deadline =>
    simp only [selectStep]
    split
    · exact h.ret _
    · exact h.goto _

/-- READ disturbs a handler's part only at `pop:`, with a frame there to take (R312, R242). -/
theorem readStep_cases (s : State) (inst : Nat) (l : ReadLabel) :
    Undisturbed s (readStep s inst l) ∨
    l = .pop ∧ ∃ f, readStep s inst l = { ret (pop s inst) .success with rxf := rxResult f } := by
  have h := Undisturbed.refl s
  cases l with
  | chk =>
    left
    simp only [readStep]
    split
    · exact h.ret _
    split
    · exact h.ret _
    · exact h.goto _
  | pop =>
    cases hq : popped s inst with
    | none => exact .inl (by simpa [readStep, hq] using h.ret _)
    | some f => exact .inr ⟨rfl, f, by simp [readStep, hq]⟩

/-- All that FG does to what a handler owns: READ's `pop:` takes a frame and START's `rst:` clears. -/
theorem fgMicro_cases (s : State) :
    Undisturbed s (fgMicro s) ∨
    (∃ i f, s.gim = false ∧ s.phase = .read i .pop ∧
      fgMicro s = { ret (pop s i) .success with rxf := rxResult f }) ∨
    ∃ n fs, s.gim = false ∧ s.phase = .start n fs .rst ∧
      fgMicro s = goto { s with insts := s.insts.map Inst.restarted } (.start n fs .clk) := by
  unfold fgMicro
  split
  · exact .inl (.refl s)
  next hg =>
  have hg : s.gim = false := by simpa using hg
  split
  · exact .inl (.refl s)
  · exact .inl ⟨rfl, rfl, fun _ => rfl⟩
  · exact .inl ⟨rfl, rfl, fun _ => rfl⟩
  · next n fs l hph =>
    by_cases hl : l = .rst
    · subst hl
      exact .inr (.inr ⟨n, fs, hg, hph, rfl⟩)
    · exact .inl (startStep_undisturbed s n fs hl)
  · exact .inl (stopStep_undisturbed s _)
  · exact .inl (writeStep_undisturbed s _ _ _ _)
  · next i l hph =>
    rcases readStep_cases s i l with h | ⟨rfl, f, hf⟩
    · exact .inl h
    · exact .inr (.inl ⟨i, f, hg, hph, hf⟩)
  · exact .inl (selectStep_undisturbed s _ _ _)
  · exact .inl (reconfigStep_undisturbed s _ _ _)

theorem fgMicro_gim_irq (s : State) : (fgMicro s).gim = s.gim ∧ (fgMicro s).irq = s.irq := by
  rcases fgMicro_cases s with h | ⟨i, f, -, -, h⟩ | ⟨n, fs, -, -, h⟩
  · exact ⟨h.gim, h.irq⟩
  · rw [h]; exact ⟨rfl, rfl⟩
  · rw [h]; exact ⟨rfl, rfl⟩

/-! ## The collaborators, ENV and the host -/

theorem clockBringup_undisturbed (s : State) (ok : Bool) (pt : Option Word) :
    Undisturbed s (clockBringup s ok pt) := by
  have h : Undisturbed s (ptPolled s pt) := (Undisturbed.refl s).timers ..
  unfold clockBringup
  split
  · split
    · exact .refl s
    split
    · exact h.goto _
    · exact h.retHandle _ _
  · exact .refl s

theorem handlerPart_foldl {α : Type} {f : Inst → α → Inst} (hf : ∀ x a, (f x a).handlerPart = x.handlerPart)
    (l : List α) (x : Inst) : (l.foldl f x).handlerPart = x.handlerPart := by
  induction l generalizing x with
  | nil => rfl
  | cons a l ih => exact (ih (f x a)).trans (hf x a)

/-- "what the block itself keeps is untouched" by a bring-up that timed out (R344, U3; log 11). -/
theorem partlyUp_handlerPart (c : Config) (x : Inst) (p : PartialBringup) :
    (x.partlyUp c p).handlerPart = x.handlerPart := by
  have hm : ∀ (x : Inst) a, (Inst.partialMask c x a).handlerPart = x.handlerPart := fun x a => by
    unfold Inst.partialMask; split <;> rfl
  have hw : ∀ (x : Inst) a, (Inst.partialWord c x a).handlerPart = x.handlerPart := fun x a => by
    unfold Inst.partialWord; split <;> rfl
  exact (handlerPart_foldl hw p.words _).trans (handlerPart_foldl hm p.masks x)

theorem instBringup_undisturbed (s : State) (r : Bringup) (pt : Option Word) :
    Undisturbed s (instBringup s r pt) := by
  have h : Undisturbed s (ptPolled s pt) := (Undisturbed.refl s).timers ..
  unfold instBringup
  split
  · split
    · exact .refl s
    split
    · next u => exact (h.modInst (f := fun x => x.broughtUp u) _ fun _ => rfl).goto _
    · exact (h.modInst _ fun x => partlyUp_handlerPart _ x _).retHandle _ _
  · exact .refl s

theorem rx_handlerPart (c : Config) (x : Inst) (m : Nat) (id : BitVec 29) (d : BitVec 4) (payload : List Byte)
    (brs esi srr overrun : Bool) (other : Word) :
    (x.rx c m id d payload brs esi srr overrun other).handlerPart = x.handlerPart := by
  unfold Inst.rx
  split
  · have h := setMbWords_fields m 2 (pack payload) (x.setMb m 1 (idWord id))
    simp [Inst.handlerPart, Inst.received, h]
  · rfl

theorem onEnabled_undisturbed (s : State) (i : Nat) {f : Inst → Inst}
    (hf : ∀ x, (f x).handlerPart = x.handlerPart) : Undisturbed s (onEnabled s i f) :=
  (Undisturbed.refl s).modInst i fun x => by split <;> simp [hf]

theorem clkTick_undisturbed (s : State) (frozen : List Nat) : Undisturbed s (clkTick s frozen) := by
  unfold clkTick
  split
  · refine ⟨rfl, rfl, fun j => ?_⟩
    by_cases hj : j < s.insts.length
    · simp only [State.inst, List.getD_eq_getElem?_getD, List.getElem?_mapIdx, List.getElem?_eq_getElem hj,
        Option.map_some, Option.getD_some]
      unfold Inst.timerTick
      split <;> rfl
    · rw [inst_absent s (by omega), inst_absent _ (by simpa using hj)]
  · exact .refl s

/-- ENV owns nothing a handler owns (R362, R366). -/
theorem envMove_undisturbed (s : State) (e : EnvMove) : Undisturbed s (envMove s e) := by
  cases e with
  | ack i | status i | raise i | timer i => exact onEnabled_undisturbed s i fun _ => rfl
  | word i m k v => exact onEnabled_undisturbed s i fun x => by unfold Inst.pokeWord; split <;> rfl
  | clock lo hi =>
    simp only [envMove]
    split
    · exact (Undisturbed.refl s).timers ..
    · exact .refl s
  | poll v =>
    simp only [envMove]
    split
    · exact (Undisturbed.refl s).timers ..
    · exact .refl s
  | clkTick frozen => exact clkTick_undisturbed s frozen
  | ptTick =>
    simp only [envMove, ptTick]
    split
    · exact (Undisturbed.refl s).timers ..
    · exact .refl s
  | rx i m id d payload brs esi srr overrun other => exact onEnabled_undisturbed s i fun x => rx_handlerPart ..
  | tx i m => exact onEnabled_undisturbed s i fun x => by unfold Inst.tx; split <;> rfl
  | freezeAck i => exact onEnabled_undisturbed s i fun x => by unfold Inst.freezeAck; split <;> rfl
  | freezeLeave i ready => exact onEnabled_undisturbed s i fun x => by unfold Inst.freezeLeave; split <;> rfl
  | ready i => exact onEnabled_undisturbed s i fun x => by unfold Inst.becomeReady; split <;> rfl
  | lpAck i => exact onEnabled_undisturbed s i fun x => by unfold Inst.lpAck; split <;> rfl
  | report i vps other => exact onEnabled_undisturbed s i fun x => by unfold Inst.report; split <;> rfl

theorem hostMove_undisturbed (s : State) (h : HostMove) : Undisturbed s (hostMove s h) := by
  unfold hostMove
  split
  · cases h <;> exact ⟨rfl, rfl, fun _ => rfl⟩
  · exact .refl s

/-! ## The handler -/

theorem irqStart_inst (s : State) (i j : Nat) : (irqStart s i).inst j = s.inst j := by
  unfold irqStart
  split <;> simp

/-- Every access of a handler but its exit leaves it running, with GIM as it was. -/
theorem rxirqStep_gim_irq (s : State) (i : Nat) {l : IrqLabel} (hl : l ≠ .exit) :
    (rxirqStep s i l).gim = s.gim ∧ (rxirqStep s i l).irq.isSome = true := by
  cases l with
  | exit => exact absurd rfl hl
  | _ => simp [rxirqStep]

/-- What the access at a label does to the handler's interface (R244, R200, R223). -/
def IrqLabel.effect (x : Inst) : IrqLabel → Inst
  | .csr m => if 2 ≤ m then { x with lock := some m } else x
  | .tmr .. | .unl _ => { x with lock := none }
  | .psh _ f => { x with queue := x.queue ++ [f] }
  | .cnt _ => { x with discard := satInc32 x.discard }
  | .clr m => { x with iflag := iflagWritten x.iflag (mbBit m) }
  | .flg | .idr .. | .dr .. | .hi .. | .lo .. | .exit => x

/-- All that a handler's access does to an interface, which has to exist and be its own. -/
theorem rxirqStep_inst (s : State) (i : Nat) (l : IrqLabel) (j : Nat) :
    (rxirqStep s i l).inst j = s.inst j ∨ j = i ∧ (rxirqStep s i l).inst j = l.effect (s.inst j) := by
  cases l with
  | flg | hi | lo | exit => exact .inl rfl
  | idr | dr => left; simp [rxirqStep, mbRead]
  | csr m =>
    by_cases hm : 2 ≤ m
    · simpa [rxirqStep, mbRead, hm, IrqLabel.effect] using inst_modInst_cases s i _ j
    · left; simp [rxirqStep, mbRead, hm]
  | tmr | unl | psh | cnt | clr => exact inst_modInst_cases s i _ j

/-! ## All moves -/

/-- START's `rst:` as every interface shows it; what no interface holds is as after a reset already (R341). -/
theorem inst_restarted (s : State) (i : Nat) :
    State.inst { s with insts := s.insts.map Inst.restarted } i = (s.inst i).restarted := by
  by_cases hi : i < s.insts.length
  · simp [State.inst, List.getD_eq_getElem?_getD, hi]
  · rw [inst_absent s (by omega), inst_absent _ (by simpa using hi)]
    rfl

/-- Apart from a handler's entry and its accesses, only READ's `pop:` and START's `rst:` disturb what a handler
owns. -/
theorem applyMove_cases (s : State) (m : Move) :
    Undisturbed s (applyMove m s) ∨ (∃ i, m = .irqStart i) ∨ m = .irq ∨
    m = .fg ∧ ((∃ i f, s.gim = false ∧ s.phase = .read i .pop ∧
      applyMove m s = { ret (pop s i) .success with rxf := rxResult f }) ∨
    ∃ n fs, s.gim = false ∧ s.phase = .start n fs .rst ∧
      applyMove m s = goto { s with insts := s.insts.map Inst.restarted } (.start n fs .clk)) := by
  cases m with
  | fg =>
    rcases fgMicro_cases s with h | h
    · exact .inl h
    · exact .inr (.inr (.inr ⟨rfl, h⟩))
  | irqStart i => exact .inr (.inl ⟨i, rfl⟩)
  | irq => exact .inr (.inr (.inl rfl))
  | clockBringup ok pt => exact .inl (clockBringup_undisturbed s ok pt)
  | instBringup r pt => exact .inl (instBringup_undisturbed s r pt)
  | env e => exact .inl (envMove_undisturbed s e)
  | host h => exact .inl (hostMove_undisturbed s h)

theorem applyMove_irq_none {s : State} (h : s.irq = none) : applyMove .irq s = s := by
  simp [applyMove, irqStep, h]

theorem applyMove_irq_some {s : State} {i : Nat} {l : IrqLabel} (h : s.irq = some ⟨i, l⟩) :
    applyMove .irq s = rxirqStep s i l := by
  simp [applyMove, irqStep, h]

/-- All that a move can do to an interface's lock, queue and discard counter: nothing, the running handler's
effect on its own interface, READ's `pop:` of this interface, or START's `rst:`. -/
theorem applyMove_inst_cases (s : State) (m : Move) (j : Nat) :
    ((applyMove m s).inst j).handlerPart = (s.inst j).handlerPart ∨
    (∃ l, m = .irq ∧ s.irq = some ⟨j, l⟩ ∧ (applyMove m s).inst j = l.effect (s.inst j)) ∨
    (m = .fg ∧ s.gim = false ∧ s.phase = .read j .pop ∧
      (applyMove m s).inst j = { s.inst j with queue := (s.inst j).queue.tail }) ∨
    ∃ n fs, m = .fg ∧ s.gim = false ∧ s.phase = .start n fs .rst ∧
      (applyMove m s).inst j = (s.inst j).restarted := by
  rcases applyMove_cases s m with h | ⟨i, rfl⟩ | rfl | ⟨rfl, ⟨i, f, hg, hph, h⟩ | ⟨n, fs, hg, hph, h⟩⟩
  · exact .inl (h.part j)
  · exact .inl (congrArg Inst.handlerPart (irqStart_inst s i j))
  · cases hr : s.irq with
    | none => rw [applyMove_irq_none hr]; exact .inl rfl
    | some r =>
      obtain ⟨i, l⟩ := r
      rw [applyMove_irq_some hr]
      rcases rxirqStep_inst s i l j with h | ⟨rfl, h⟩
      · exact .inl (congrArg Inst.handlerPart h)
      · exact .inr (.inl ⟨l, rfl, rfl, h⟩)
  · have hpop : (applyMove .fg s).inst j = (pop s i).inst j := by rw [h]; rfl
    rcases inst_modInst_cases s i (fun x => { x with queue := x.queue.tail }) j with h' | ⟨rfl, h'⟩
    · exact .inl (congrArg Inst.handlerPart (hpop.trans h'))
    · exact .inr (.inr (.inl ⟨rfl, hg, hph, hpop.trans h'⟩))
  · exact .inr (.inr (.inr ⟨n, fs, rfl, hg, hph, by rw [h, goto_inst, inst_restarted]⟩))

/-! ## The obligations -/

/-- Settles O30: only a handler's entry and its exit write GIM, each together with the handler's position. -/
theorem interruptMaskChangesOnlyAtEntryAndExit : Obligations.InterruptMaskChangesOnlyAtEntryAndExit := by
  intro s m
  rcases applyMove_cases s m with h | ⟨i, rfl⟩ | rfl | ⟨rfl, -⟩
  · exact ⟨fun hg => by rw [h.gim, h.irq, hg], fun hne => absurd h.gim hne⟩
  · cases hm : irqMayStart s i with
    | true =>
      rw [applyMove, irqStart, if_pos hm]
      simp only [irqMayStart, Bool.and_eq_true, Bool.not_eq_true'] at hm
      exact ⟨fun _ => rfl, fun _ => .inl ⟨i, rfl, hm.2, hm.1.2⟩⟩
    | false =>
      rw [applyMove, irqStart, if_neg (by simp [hm])]
      exact ⟨id, fun hne => absurd rfl hne⟩
  · cases hr : s.irq with
    | none =>
      rw [applyMove_irq_none hr, hr]
      exact ⟨id, fun hne => absurd rfl hne⟩
    | some r =>
      obtain ⟨i, l⟩ := r
      rw [applyMove_irq_some hr]
      by_cases hl : l = .exit
      · subst hl
        refine ⟨fun _ => rfl, fun hne => .inr ⟨i, rfl, ?_, rfl⟩⟩
        simpa [rxirqStep] using hne
      · obtain ⟨hgim, hirq⟩ := rxirqStep_gim_irq s i hl
        exact ⟨fun hg => by rw [hgim, hirq, hg]; rfl, fun hne => absurd hgim hne⟩
  · obtain ⟨hgim, hirq⟩ := fgMicro_gim_irq s
    exact ⟨fun hg => by rw [applyMove, hgim, hirq, hg], fun hne => absurd hgim hne⟩

/-- Settles O34: of the handler's accesses only `psh:` reaches a queue. -/
theorem queueChangesOnlyByItsOwners : Obligations.QueueChangesOnlyByItsOwners := by
  intro s m i
  rcases applyMove_inst_cases s m i with h | ⟨l, hm, hr, h⟩ | ⟨hm, hg, hph, h⟩ | ⟨n, fs, hm, hg, hph, h⟩
  · exact .inl (congrArg (fun p => p.2.1) h)
  · simp only [h, hr]
    cases l with
    | psh mb f => exact .inr (.inl ⟨mb, f, hm, rfl, rfl⟩)
    | csr mb => left; simp only [IrqLabel.effect]; split <;> rfl
    | _ => exact .inl rfl
  · exact .inr (.inr (.inl ⟨hm, hg, hph, congrArg Inst.queue h⟩))
  · exact .inr (.inr (.inr ⟨n, fs, hm, hg, hph, congrArg Inst.queue h⟩))

/-- Settles O36: FG leaves the lock alone, and of the handler's accesses `csr:` writes its mailbox there and the
TIMER reads of `tmr:` and `unl:` write none. -/
theorem lockSetAndReleasedByHandler : Obligations.LockSetAndReleasedByHandler := by
  intro s m i
  rcases applyMove_inst_cases s m i with h | ⟨l, hm, hr, h⟩ | ⟨-, -, -, h⟩ | ⟨-, -, -, -, -, h⟩
  · exact .inl (congrArg Prod.fst h)
  · simp only [h, hr]
    cases l with
    | csr mb =>
      by_cases hmb : 2 ≤ mb
      · exact .inr (.inl ⟨mb, hm, rfl, hmb, by simp [IrqLabel.effect, hmb]⟩)
      · left; simp [IrqLabel.effect, hmb]
    | tmr mb c clk => exact .inr (.inr (.inl ⟨mb, c, clk, hm, rfl, rfl⟩))
    | unl mb => exact .inr (.inr (.inr ⟨mb, hm, rfl, rfl⟩))
    | _ => exact .inl rfl
  · exact .inl (congrArg Inst.lock h :)
  · exact .inl (congrArg Inst.lock h :)

end Sys2Proof.Machine
end

section
/-! SUPPORT. What a write by word number does, bit by bit (R42, R46, R85), how a command word is issued (R31), and
the table of R62 field by field. -/

namespace Sys2Proof.Machine

/-! ## Register writes -/

theorem ackBits_bit (b : Nat) : ackBits.getLsbD b = decide (b = 27 ∨ b = 24 ∨ b = 20) := by
  by_cases hb : b < 32
  · interval_cases b <;> decide
  · rw [BitVec.getLsbD_of_ge _ _ (by omega)]
    exact (decide_eq_false (by omega)).symm

/-- Bits 27, 24 and 20 of MCR are NOTRDY, FRZACK and LPMACK (R41). -/
theorem mcrWritten_bit (old v : Word) {b : Nat} (hb : b < 32) :
    (mcrWritten old v).getLsbD b = if b = 27 ∨ b = 24 ∨ b = 20 then old.getLsbD b else v.getLsbD b := by
  simp only [mcrWritten, BitVec.getLsbD_or, BitVec.getLsbD_and, BitVec.getLsbD_not, ackBits_bit]
  split <;> simp [*]

theorem iflagWritten_bit (old v : Word) {b : Nat} (hb : b < 32) :
    (iflagWritten old v).getLsbD b = (old.getLsbD b && !v.getLsbD b) := by
  simp [iflagWritten, hb]

theorem and_mbMask_bit (c : Config) (v : Word) {b : Nat} (hb : b < 32) :
    (v &&& mbMask c).getLsbD b = (decide (b < c.nMb) && v.getLsbD b) := by
  rw [BitVec.getLsbD_and, mbMask_bit, decide_eq_true hb, Bool.true_and, Bool.and_comm]

theorem located_present {s : State} {i : Nat} (hi : i < s.cfg.nIf) (n : Nat) :
    located s i n = target? s.cfg n := if_pos hi

/-- RXIMR[m] stands at word number 0x20 + m (R40). -/
theorem target_rximr {c : Config} {m : Nat} (hm : m < c.nMb) : target? c (0x20 + m) = some (.rximr m) := by
  have h0 : ∀ k, k ≤ 4 → 0x20 + m ≠ k := by omega
  simp [target?, h0, hm]

/-- Settles O15: a write by word number is RegWrite of the register that stands there (R40, R85), and STATUS and
TIMER have none. -/
theorem registerWritesAndRefusals : Obligations.RegisterWritesAndRefusals := by
  intro s i v _ _ hi
  refine ⟨⟨mcrWritten (s.inst i).mcr v, ?_, fun b hb => mcrWritten_bit _ _ hb⟩,
    ⟨iflagWritten (s.inst i).iflag v, ?_, fun b hb => iflagWritten_bit _ _ hb⟩,
    ⟨v &&& mbMask s.cfg, ?_, fun b hb => and_mbMask_bit _ _ hb⟩, fun m hm => ?_, ?_, ?_⟩ <;>
    rw [busWrite, located_present hi]
  · exact congrArg Host.Outcome.next (modInst_congr s rfl)
  · exact congrArg Host.Outcome.next (modInst_congr s rfl)
  · rfl
  · rw [target_rximr hm]; rfl
  · rfl
  · rfl

/-! ## The issue of a command word -/

/-- Settles O6: the move is taken by `latchCmd`, and a word that decodes is executed. -/
theorem stepRunsDecodedInstruction : Obligations.StepRunsDecodedInstruction := by
  intro s w rest i hready hagenda hdecode
  have hfetched : fetched s = some w := by simp [fetched, hagenda, hready]
  simp [step, hfetched, issueWord, hdecode, latchCmd, takeMove, hagenda]

/-- Settles O8: the state withFetchWord builds is one that takes the word (log 4). -/
theorem fetchWordStepRunsInstruction : Obligations.FetchWordStepRunsInstruction :=
  fun s w i hdecode =>
    stepRunsDecodedInstruction (s.withFetchWord 32 w) _ (fgs 32) i ⟨rfl, rfl⟩ rfl hdecode

/-- With no move to come a command is left at its first phase (log 3). -/
theorem issue_last {s : State} (hready : s.Ready) (hagenda : s.agenda = []) (p : Phase) :
    issue s p = { s with phase := p } := by
  rw [issue_ready hready, hagenda]
  simp [drive, goto, ← hagenda]

/-- Every command is issued, at a phase of its own. -/
theorem exec_command (s : State) {i : Instr} (hi : isCommand i = true) :
    ∃ p, exec i s = .next (issue s p) := by
  cases i with
  | txcs | rxcs => simp [isCommand] at hi
  | _ => exact ⟨_, rfl⟩

/-- Settles O9: `issue` takes a command only at IDLE with no handler running, and puts it at its first phase, which
for STOP is `lpr:` of interface 0 as there is one. -/
theorem issueLatchesOperands : Obligations.IssueLatchesOperands := by
  refine ⟨fun s hready hagenda hnIf => ?_, fun s i hbusy hi => ?_⟩
  · have hissue : ∀ p, (.next (issue s p) : Host.Outcome State Fault Refusal) = .next { s with phase := p } :=
      fun p => congrArg _ (issue_last hready hagenda p)
    have hstop : stopLoop s 0 = .lpr 0 := if_pos hnIf
    exact ⟨hissue _, hissue _, fun _ => hissue _, hstop ▸ hissue (.stop (stopLoop s 0)),
      fun _ _ => ⟨txFrame s.txf, rfl, rfl, rfl, hissue _⟩, fun _ => hissue _, fun _ => hissue _,
      fun _ => hissue _⟩
  · obtain ⟨p, hp⟩ := exec_command s hi
    have hnot : ¬ s.Ready := fun ⟨hidle, hgim⟩ => hbusy.elim (· hidle) (by simp [hgim])
    rw [hp, issue, if_neg hnot]

/-! ## Power-on -/

theorem inst_powerOn {c : Config} {a : AnyValues} {i : Nat} {b : AnyInst} (hb : a.insts[i]? = some b) :
    (State.powerOn c a).inst i = Inst.powerOn b := by
  simp [State.inst, State.powerOn, List.getD_eq_getElem?_getD, hb]

/-- Settles O10: the table is the definition of State.powerOn, read field by field and interface by interface. -/
theorem powerOnValues : Obligations.PowerOnValues := by
  intro c a
  refine ⟨rfl, rfl, rfl, rfl, rfl, rfl, rfl, rfl, rfl, rfl, rfl, rfl, rfl, rfl, rfl, rfl, rfl, rfl,
    List.length_map _, fun i b hb => ?_⟩
  rw [inst_powerOn hb]
  exact ⟨rfl, rfl, rfl, rfl, rfl, rfl, fun _ => rfl, fun _ _ => rfl, rfl, rfl, rfl, rfl, rfl⟩

end Sys2Proof.Machine
end

section
/-! SUPPORT. Access by word number (R40, R81, R84 to R87, R90): what stands at a word number, what a read and a
write there do, and what a store leaves of the other words. -/

namespace Sys2Proof.Machine

/-! ## The address map -/

/-- Word `k` of mailbox `m` stands at word number 0x80 + 18m + k (R81); the masks end below, there being at
most 32 of them. -/
theorem target_mb {c : Config} (hc : c.Legal) {m k : Nat} (hm : m < c.nMb) (hk : k < 18) :
    target? c (0x80 + 18 * m + k) = some (.mb m k) := by
  obtain ⟨-, -, -, hnMb, -⟩ := hc
  have hreg : ∀ r, r ≤ 4 → 0x80 + 18 * m + k ≠ r := by omega
  have hmask : ¬ 0x80 + 18 * m + k < 0x20 + c.nMb := by omega
  have hbox : 0x80 ≤ 0x80 + 18 * m + k ∧ 0x80 + 18 * m + k < 0x80 + 18 * c.nMb := by omega
  have hmailbox : (0x80 + 18 * m + k - 0x80) / 18 = m := by omega
  have hword : (0x80 + 18 * m + k - 0x80) % 18 = k := by omega
  simp only [target?, hreg, hmask, hbox, hmailbox, hword, Nat.reduceLeDiff, and_false, and_self, if_true, if_false]

/-- Nothing stands outside the ranges of R40. -/
theorem target_outside {c : Config} {n : Nat} (hreg : 4 < n) (hmap : ¬ Stored c n) : target? c n = none := by
  have hne : ∀ r, r ≤ 4 → n ≠ r := by omega
  obtain ⟨hmask, hbox⟩ := not_or.mp hmap
  simp [target?, hne, hmask, hbox]

theorem located_absent {s : State} {i : Nat} (hi : s.cfg.nIf ≤ i) (n : Nat) : located s i n = none :=
  if_neg (by omega)

/-! ## Reads and writes by word number -/

/-- A TIMER read has zeros in its upper half (R45, R84). -/
theorem reg_timer (x : Inst) : x.reg .timer = 0#16 ++ x.timer := BitVec.setWidth_eq_append (by decide)

/-- Settles O14: a read by word number is RegRead of the register that stands there (R40, R84), which changes
the interface's lock where the register is TIMER. -/
theorem registerReadsAndLockRelease : Obligations.RegisterReadsAndLockRelease := by
  intro s i _ hlen hi
  have hi' : i < s.insts.length := hlen.symm ▸ hi
  refine ⟨?_, ?_, ?_, ?_, fun m hm => ?_, regRead s i .timer, ?_, rfl, inst_modInst_same s hi' _,
    fun j hj => inst_modInst_ne s hj _⟩ <;> rw [busRead, located_present hi]
  · rfl
  · rfl
  · rfl
  · rfl
  · rw [target_rximr hm]; rfl
  · exact congrArg (fun w => Host.Outcome.next (w, regRead s i .timer)) (reg_timer _)

/-- Settles O16: an access to that word number is MbRead or MbWrite of word `k` of mailbox `m` (R86, R87). -/
theorem mailboxWordAccess : Obligations.MailboxWordAccess := by
  intro s i m k v hc _ hi hm hk
  rw [busRead, busWrite, located_present hi, target_mb hc hm hk]
  exact ⟨rfl, rfl⟩

theorem access_refused {s : State} {i n : Nat} (h : located s i n = none) (v : Word) :
    busRead s i n = .refused .noSuchWord ∧ busWrite s i n v = .refused .noSuchWord := by
  rw [busRead, busWrite, h]
  exact ⟨rfl, rfl⟩

/-- Settles O17: nothing is located on an interface the block lacks, nor outside the ranges of R40 on one it has. -/
theorem outsideTheMapRefused : Obligations.OutsideTheMapRefused := by
  intro s i n v h
  refine access_refused ?_ v
  by_cases hi : i < s.cfg.nIf
  · obtain ⟨hreg, hmask, hbox⟩ := h.resolve_left (by omega)
    rw [located_present hi, target_outside hreg (not_or.mpr ⟨hmask, hbox⟩)]
  · exact located_absent (by omega) n

/-! ## A store and the loads after it -/

section

variable {x : Inst} (hx : x.ram.wf = true) (m : Nat) (v : Word)

include hx

theorem mb_setMb_same (k : Nat) : (x.setMb m k v).mb m k = v := by
  simp [Inst.mb, load_store hx]

theorem mb_setMb_ne {k m' k' : Nat} (hk : k < 18) (hk' : k' < 18) (hne : m' ≠ m ∨ k' ≠ k) :
    (x.setMb m k v).mb m' k' = x.mb m' k' := by
  have hno : mbNo m' k' ≠ mbNo m k := fun h => by
    obtain ⟨rfl, rfl⟩ := mbNo_inj hk' hk h
    simp at hne
  simp [Inst.mb, load_store hx, hno]

theorem rximr_setMb {c : Config} (hc : c.Legal) (k : Nat) {m' : Nat} (hm' : m' < c.nMb) :
    (x.setMb m k v).rximr m' = x.rximr m' := by
  simp [Inst.rximr, load_store hx, rximrNo_ne_mbNo hc hm']

theorem rximr_setRximr_same : (x.setRximr m v).rximr m = v := by
  simp [Inst.rximr, load_store hx]

theorem rximr_setRximr_ne {m' : Nat} (hne : m' ≠ m) : (x.setRximr m v).rximr m' = x.rximr m' := by
  have hno : rximrNo m' ≠ rximrNo m := fun h => hne (rximrNo_inj h)
  simp [Inst.rximr, load_store hx, hno]

theorem mb_setRximr {c : Config} (hc : c.Legal) (hm : m < c.nMb) (m' k' : Nat) :
    (x.setRximr m v).mb m' k' = x.mb m' k' := by
  simp [Inst.mb, load_store hx, (rximrNo_ne_mbNo hc hm).symm]

end

/-- Settles O18: different words and masks have different word numbers (R40, R81), and a store changes one word
number. -/
theorem mailboxStoreThenLoad : Obligations.MailboxStoreThenLoad := by
  intro c x m k v hc hx hm hk
  exact ⟨mb_setMb_same hx m v k, store_wf hx _ v, fun _ _ hk' hne => mb_setMb_ne hx m v hk hk' hne,
    fun _ hm' => rximr_setMb hx m v hc k hm', rximr_setRximr_same hx m v, store_wf hx _ v,
    fun _ hne => rximr_setRximr_ne hx m v hne, fun m' k' _ => mb_setRximr hx m v hc hm m' k'⟩

end Sys2Proof.Machine
end

section
/-! SUPPORT. The host at the port: a step that issues no command (R31, R37, R93), and that no host write reaches a
command in flight (R97). -/

namespace Sys2Proof.Machine

/-! ## A step that issues no command -/

theorem step_of_not_fetched {s : State} (h : fetched s = none) : step s = .next (moveStep s) := by
  rw [step, h]

/-- A command word is taken only where the port takes a write (R31, R98). -/
theorem fetched_busy {s : State} (h : ¬ s.Ready) : fetched s = none := by
  unfold fetched
  split
  · exact if_neg h
  · rfl

/-- The agenda's first move is made. -/
theorem moveStep_taken {s : State} {m : Move} {rest : List Move} (ha : s.agenda = m :: rest)
    (hw : hostWaits s m = false) : moveStep s = applyMove m { s with agenda := rest } := by
  simp [moveStep, ha, hw, takeMove]

theorem floorMove_eq (s : State) : floorMove s = applyMove (if s.gim then .irq else .fg) s := by
  unfold floorMove
  split <;> rfl

/-- The port takes a host write only at IDLE with no handler running (R31, R37, R98). -/
theorem hostMove_busy {s : State} (h : ¬ s.Ready) (w : HostMove) : hostMove s w = s := if_neg h

/-- Only a host write is a command word, and only a host write waits. -/
theorem fetched_hostWaits_of_not_host {s : State} {m : Move} {rest : List Move} (ha : s.agenda = m :: rest)
    (hm : m.isHost = false) : fetched s = none ∧ hostWaits s m = false := by
  cases m with
  | host w => simp [Move.isHost] at hm
  | _ => simp [fetched, ha, hostWaits]

theorem step_move {s : State} {m : Move} {rest : List Move} (ha : s.agenda = m :: rest)
    (hm : m.isHost = false) : step s = .next (applyMove m { s with agenda := rest }) := by
  obtain ⟨hf, hw⟩ := fetched_hostWaits_of_not_host ha hm
  rw [step_of_not_fetched hf, moveStep_taken ha hw]

theorem step_host_inFlight {s : State} {w : HostMove} {rest : List Move} (ha : s.agenda = .host w :: rest)
    (hp : s.phase ≠ .idle) : step s = .next { s with agenda := rest } := by
  rw [step_of_not_fetched (fetched_busy fun h => hp h.1), moveStep_taken ha (by simp [hostWaits, hp])]
  exact congrArg Host.Outcome.next (hostMove_busy (s := { s with agenda := rest }) (fun h => hp h.1) w)

theorem step_host_waits {s : State} {w : HostMove} {rest : List Move} (ha : s.agenda = .host w :: rest)
    (hp : s.phase = .idle) (hg : s.gim = true) : step s = .next (applyMove .irq s) := by
  rw [step_of_not_fetched (fetched_busy fun h => by simp [h.2] at hg)]
  simp [moveStep, ha, hostWaits, hp, hg, floorMove_eq]

/-- At IDLE, no handler running, a SET is taken (R143). -/
theorem step_host_set {s : State} {w : HostMove} {rest : List Move} (ha : s.agenda = .host w :: rest)
    (hr : s.Ready) (hw : ∀ c, w ≠ .cmd c) : step s = .next (hostMove { s with agenda := rest } w) := by
  have hf : fetched s = none := by
    cases w with
    | cmd c => exact absurd rfl (hw c)
    | _ => simp [fetched, ha]
  rw [step_of_not_fetched hf, moveStep_taken ha (by simp [hostWaits, hr.2])]
  rfl

theorem step_agenda_empty {s : State} (ha : s.agenda = []) :
    step s = .next (applyMove (if s.gim then .irq else .fg) s) := by
  rw [step_of_not_fetched (by simp [fetched, ha]), moveStep, ha, floorMove_eq]

/-- Settles O7: whether the first move is the host's, and where FG and the handler stand, decide which of the
cases a step is. -/
theorem stepOtherwiseMakesOneMove : Obligations.StepOtherwiseMakesOneMove := by
  refine ⟨fun s m rest ha hm => step_move ha hm, fun s w rest ha hp => step_host_inFlight ha hp,
    fun s w rest ha hp hg => step_host_waits ha hp hg, fun s rest hr => ?_, fun s ha => step_agenda_empty ha⟩
  refine ⟨fun id dlc bytes ha => ?_, fun j id mask ha => ?_, fun v ha => ?_⟩ <;>
    exact (step_host_set ha hr (by simp)).trans (congrArg _ (if_pos hr))

/-! ## The agenda is read by no move -/

/-- The same state with other inputs to come. -/
abbrev State.withAgenda (s : State) (a : List Move) : State := { s with agenda := a }

variable (s : State) (a : List Move)

theorem fseqProgress_withAgenda (i : Nat) (fs : List FilterReg) (l : FseqLabel) :
    fseqProgress (s.withAgenda a) i fs l = fseqProgress s i fs l := rfl

theorem waitProgress_withAgenda (i : Nat) (r : PollReg) (mask : Word) (target : Bool) (T : Nat) (w : WaitLabel) :
    waitProgress (s.withAgenda a) i r mask target T w = waitProgress s i r mask target T w := rfl

theorem waitState_withAgenda (w : WaitLabel) : waitState (s.withAgenda a) w = (waitState s w).withAgenda a := by
  cases w <;> rfl

theorem fseqState_withAgenda (i : Nat) (fs : List FilterReg) (hook : Bool) (l : FseqLabel) :
    fseqState (s.withAgenda a) i fs hook l = (fseqState s i fs hook l).withAgenda a := by
  cases l with
  | ack1 w =>
    simp only [fseqState, waitProgress_withAgenda, waitState_withAgenda]
    split <;> rfl
  | rdy w =>
    simp only [fseqState, waitProgress_withAgenda, waitState_withAgenda]
    split <;> rfl
  | hk => cases hook <;> rfl
  | ack2 w => exact waitState_withAgenda s a w
  | _ => rfl

theorem startStep_withAgenda (count : Nat) (fs : List FilterReg) (l : StartLabel) :
    startStep (s.withAgenda a) count fs l = (startStep s count fs l).withAgenda a := by
  cases l with
  | chk =>
    simp only [startStep]
    split
    · rfl
    split <;> rfl
  | fp i fl =>
    simp only [startStep, fseqProgress_withAgenda, fseqState_withAgenda]
    split <;> rfl
  | _ => rfl

theorem reconfigStep_withAgenda (count : Nat) (fs : List FilterReg) (l : ReconfigLabel) :
    reconfigStep (s.withAgenda a) count fs l = (reconfigStep s count fs l).withAgenda a := by
  cases l with
  | chk =>
    simp only [reconfigStep]
    split
    · rfl
    split
    · rfl
    split <;> rfl
  | seq i fl =>
    simp only [reconfigStep, fseqProgress_withAgenda, fseqState_withAgenda]
    split
    · rfl
    · rfl
    split <;> rfl

theorem mcrWriteGated_withAgenda (i : Nat) (v : Word) :
    mcrWriteGated (s.withAgenda a) i v = (mcrWriteGated s i v).withAgenda a := by
  simp only [mcrWriteGated]
  change (if (s.inst i).enabled then _ else _) = _
  split
  · rfl
  split <;> rfl

theorem lpaState_withAgenda (i : Nat) (w : WaitLabel) :
    lpaState (s.withAgenda a) i w = (lpaState s i w).withAgenda a := by
  cases w with
  | sample =>
    simp only [lpaState]
    change (if (s.inst i).enabled then _ else _) = _
    split <;> rfl
  | _ => rfl

theorem lpaProgress_withAgenda (i : Nat) (w : WaitLabel) :
    lpaProgress (s.withAgenda a) i w = lpaProgress s i w := rfl

theorem stopStep_withAgenda (l : StopLabel) : stopStep (s.withAgenda a) l = (stopStep s l).withAgenda a := by
  cases l with
  | lpr2 i v => simp only [stopStep, mcrWriteGated_withAgenda]; rfl
  | lpa i w =>
    simp only [stopStep, lpaProgress_withAgenda, lpaState_withAgenda]
    split <;> rfl
  | _ => rfl

theorem writeStep_withAgenda (inst count : Nat) (f : Frame) (l : WriteLabel) :
    writeStep (s.withAgenda a) inst count f l = (writeStep s inst count f l).withAgenda a := by
  cases l with
  | chk =>
    simp only [writeStep]
    split
    · rfl
    split <;> rfl
  | rdy =>
    simp only [writeStep]
    change (if txReady (regVal s inst .status) then _ else _) = _
    split <;> rfl
  | cmp m wl =>
    simp only [writeStep, waitProgress_withAgenda, waitState_withAgenda]
    split <;> rfl
  | _ => rfl

theorem readStep_withAgenda (inst : Nat) (l : ReadLabel) :
    readStep (s.withAgenda a) inst l = (readStep s inst l).withAgenda a := by
  cases l with
  | chk =>
    simp only [readStep]
    split
    · rfl
    split <;> rfl
  | pop =>
    have hpop : popped (s.withAgenda a) inst = popped s inst := rfl
    simp only [readStep, hpop]
    split <;> rfl

theorem selectStep_withAgenda (ignw : Bool) (tmo : Word) (l : SelectLabel) :
    selectStep (s.withAgenda a) ignw tmo l = (selectStep s ignw tmo l).withAgenda a := by
  cases l with
  | chk =>
    simp only [selectStep]
    split <;> rfl
  | restart => rfl
  | q i =>
    simp only [selectStep]
    change (if 0 < qlen s i then _ else _) = _
    split <;> rfl
  | t i =>
    simp only [selectStep]
    change (if !ignw && txReady (regVal s i .status) then _ else _) = _
    split <;> rfl
  | deadline =>
    simp only [selectStep]
    change (if tmo.toNat < elapsed s then _ else _) = _
    split <;> rfl

theorem fgMicro_withAgenda : fgMicro (s.withAgenda a) = (fgMicro s).withAgenda a := by
  simp only [fgMicro, startStep_withAgenda, stopStep_withAgenda, writeStep_withAgenda, readStep_withAgenda,
    selectStep_withAgenda, reconfigStep_withAgenda]
  split
  · rfl
  split <;> rfl

theorem rxirqStep_withAgenda (i : Nat) (l : IrqLabel) :
    rxirqStep (s.withAgenda a) i l = (rxirqStep s i l).withAgenda a := by
  cases l with
  | csr | idr | dr => simp only [rxirqStep, mbRead]; split <;> rfl
  | _ => rfl

theorem clockBringup_withAgenda (ok : Bool) (pt : Option Word) :
    clockBringup (s.withAgenda a) ok pt = (clockBringup s ok pt).withAgenda a := by
  simp only [clockBringup]
  split
  · split
    · rfl
    split <;> rfl
  · rfl

theorem instBringup_withAgenda (r : Bringup) (pt : Option Word) :
    instBringup (s.withAgenda a) r pt = (instBringup s r pt).withAgenda a := by
  simp only [instBringup]
  split
  · split
    · rfl
    split <;> rfl
  · rfl

theorem envMove_withAgenda (e : EnvMove) : envMove (s.withAgenda a) e = (envMove s e).withAgenda a := by
  cases e with
  | clock | poll => simp only [envMove]; split <;> rfl
  | clkTick => simp only [envMove, clkTick]; split <;> rfl
  | ptTick => simp only [envMove, ptTick]; split <;> rfl
  | _ => rfl

theorem hostMove_withAgenda (w : HostMove) : hostMove (s.withAgenda a) w = (hostMove s w).withAgenda a := by
  simp only [hostMove]
  split
  · cases w <;> rfl
  · rfl

theorem irqStep_withAgenda : irqStep (s.withAgenda a) = (irqStep s).withAgenda a := by
  simp only [irqStep]
  split
  · rfl
  · exact rxirqStep_withAgenda s a _ _

theorem irqStart_withAgenda (i : Nat) : irqStart (s.withAgenda a) i = (irqStart s i).withAgenda a := by
  simp only [irqStart]
  change (if irqMayStart s i then _ else _) = _
  split <;> rfl

/-- No agent reads the inputs still to come. -/
theorem applyMove_withAgenda (m : Move) : applyMove m (s.withAgenda a) = (applyMove m s).withAgenda a := by
  cases m with
  | fg => exact fgMicro_withAgenda s a
  | irqStart i => exact irqStart_withAgenda s a i
  | irq => exact irqStep_withAgenda s a
  | clockBringup ok pt => exact clockBringup_withAgenda s a ok pt
  | instBringup r pt => exact instBringup_withAgenda s a r pt
  | env e => exact envMove_withAgenda s a e
  | host w => exact hostMove_withAgenda s a w

/-- A run reads its moves from its argument alone. -/
theorem drive_withAgenda (ms : List Move) : drive ms (s.withAgenda a) = drive ms s := by
  induction ms generalizing s with
  | nil => rfl
  | cons m ms ih =>
    by_cases hp : s.phase = .idle
    · rw [drive_idle hp, drive_idle (s := s.withAgenda a) hp]
    · rw [drive_cons hp, drive_cons (s := s.withAgenda a) hp, applyMove_withAgenda, ih]

/-! ## Host writes in flight -/

/-- The moves of the other agents. -/
abbrev withoutHost (ms : List Move) : List Move := ms.filter fun m => !m.isHost

/-- A host write while a command is in flight is ignored (R31, R37). -/
theorem applyMove_host_inFlight {s : State} (hp : s.phase ≠ .idle) {m : Move} (hm : m.isHost = true) :
    applyMove m s = s := by
  cases m with
  | host w => exact hostMove_busy (fun h => hp h.1) w
  | _ => simp [Move.isHost] at hm

/-- Every move a run makes falls while a command is in flight; after the return it takes none. -/
theorem drive_withoutHost (ms : List Move) :
    (drive (withoutHost ms) s).withAgenda [] = (drive ms s).withAgenda [] := by
  induction ms generalizing s with
  | nil => rfl
  | cons m ms ih =>
    by_cases hp : s.phase = .idle
    · rw [drive_idle hp, drive_idle hp]
    rw [drive_cons hp]
    cases hm : m.isHost with
    | true =>
      have hdropped : withoutHost (m :: ms) = withoutHost ms := List.filter_cons_of_neg (by simp [hm])
      rw [hdropped, applyMove_host_inFlight hp hm, ih]
    | false =>
      have hkept : withoutHost (m :: ms) = m :: withoutHost ms := List.filter_cons_of_pos (by simp [hm])
      rw [hkept, drive_cons hp, ih]

/-- The agenda a command is issued over is the one it runs over. -/
theorem issue_withAgenda (p : Phase) :
    issue (s.withAgenda a) p = if s.Ready then drive a (goto s p) else s.withAgenda a := by
  unfold issue
  split
  · exact drive_withAgenda (goto s p) a a
  · rfl

/-- A command latches its operands whatever the agenda is. -/
theorem exec_command_withAgenda {i : Instr} (hi : isCommand i = true) :
    ∃ p, ∀ a, exec i (s.withAgenda a) = .next (issue (s.withAgenda a) p) := by
  cases i with
  | getifc | getmaxf | read => exact ⟨_, fun _ => rfl⟩
  | start count => exact ⟨.start count (latchFilters count s.flt) .chk, fun _ => rfl⟩
  | stop => exact ⟨.stop (stopLoop s 0), fun _ => rfl⟩
  | write inst count => exact ⟨.write inst count (txFrame s.txf) .chk, fun _ => rfl⟩
  | select ignw => exact ⟨.select ignw s.tmo .chk, fun _ => rfl⟩
  | reconfig count => exact ⟨.reconfig count (latchFilters count s.flt) .chk, fun _ => rfl⟩
  | txcs | rxcs => simp [isCommand] at hi

/-- Settles O37: a command is issued alike over both agendas, and its run ignores the host's writes. -/
theorem hostWritesInFlightIgnored : Obligations.HostWritesInFlightIgnored := by
  intro s t i ms hi ht
  obtain ⟨p, hp⟩ := exec_command_withAgenda s hi
  obtain rfl : issue (s.withAgenda ms) p = t := Host.Outcome.next.inj ((hp ms).symm.trans ht)
  refine ⟨issue (s.withAgenda (withoutHost ms)) p, hp _, ?_⟩
  rw [issue_withAgenda, issue_withAgenda]
  split
  · exact (drive_withoutHost (goto s p) ms).symm
  · rfl

end Sys2Proof.Machine
end

section
/-! SUPPORT. What decoding and encoding say of the fields of a word (R138, R140, R143, R123, R124). -/

namespace Sys2Proof

/-- What R140, R123 and R124 ask of the fields of a word for it to stand for an instruction: the OP, the
fields that must be zero, and the fields the operands are. -/
def Denotes (w : Word) : Instr → Prop
  | .getifc => field w 31 28 = 0x1 ∧ field w 27 0 = 0
  | .getmaxf => field w 31 28 = 0x2 ∧ field w 27 0 = 0
  | .start count => field w 31 28 = 0x3 ∧ (field w 27 16 = 0 ∧ field w 7 0 = 0) ∧ field w 15 8 = count
  | .stop => field w 31 28 = 0x4 ∧ field w 27 0 = 0
  | .write inst count =>
    field w 31 28 = 0x5 ∧ (field w 27 24 = 0 ∧ field w 7 0 = 0) ∧ field w 23 16 = inst ∧ field w 15 8 = count
  | .read inst => field w 31 28 = 0x6 ∧ (field w 27 24 = 0 ∧ field w 15 0 = 0) ∧ field w 23 16 = inst
  | .select ignw => field w 31 28 = 0x7 ∧ field w 27 1 = 0 ∧ decide (field w 0 0 = 1) = ignw
  | .reconfig count => field w 31 28 = 0x8 ∧ (field w 27 16 = 0 ∧ field w 7 0 = 0) ∧ field w 15 8 = count
  | .txcs dlc => field w 31 28 = 0xC ∧ (field w 27 20 = 0xC2 ∧ field w 15 0 = 0) ∧ field w 19 16 = dlc
  | .rxcs => field w 31 28 = 0xC ∧ field w 27 0 = 0x4200000

theorem unusedZero_eq_instr_iff {zero : Bool} {i j : Instr} :
    unusedZero zero i = .instr j ↔ zero = true ∧ i = j := by
  cases zero <;> simp [unusedZero]

/-- Each arm of the decoder asks for exactly the fields its instruction has. -/
theorem denotes_of_decode {w : Word} {i : Instr} (h : decode w = .instr i) : Denotes w i := by
  unfold decode at h
  split at h
  case h_9 hop =>
    unfold decodeControlWord at h
    split at h
    · next hz => cases h; exact ⟨hop, hz, rfl⟩
    · split at h
      · next hz => cases h; exact ⟨hop, hz⟩
      · cases h
  case h_10 => cases h
  all_goals
    next hop =>
      obtain ⟨hz, rfl⟩ := unusedZero_eq_instr_iff.mp h
      simpa [Denotes, hop] using hz

theorem decode_of_denotes {w : Word} {i : Instr} (h : Denotes w i) : decode w = .instr i := by
  cases i with
  | txcs dlc =>
    obtain ⟨hop, hz, rfl⟩ := h
    simp [decode, hop, decodeControlWord, hz]
  | rxcs =>
    obtain ⟨hop, hz⟩ := h
    have hno : field w 27 20 ≠ 0xC2 := by
      simp only [field] at hz ⊢
      omega
    simp [decode, hop, decodeControlWord, hz, hno]
  | getifc | getmaxf | stop => simp [decode, h.1, unusedZero, h.2]
  | start | write | read | select | reconfig =>
    simp only [Denotes] at h
    simp [decode, unusedZero, h]

/-- The fields `Denotes` reads make up the whole word, so a word stands for an instruction just where its number is
the sum `encode` builds from operands in range (R138, R143). -/
theorem denotes_iff_encode {w : Word} {i : Instr} : Denotes w i ↔ i.wellFormed = true ∧ encode i = w := by
  have hw := w.isLt
  cases i with
  | getifc | getmaxf | stop | rxcs =>
    simp only [Denotes, Instr.wellFormed, encode, commandWord, field, ← BitVec.toNat_inj, BitVec.toNat_ofNat,
      true_and]
    omega
  | start | read | reconfig | write | txcs =>
    simp only [Denotes, Instr.wellFormed, encode, commandWord, field, ← BitVec.toNat_inj, BitVec.toNat_ofNat,
      decide_eq_true_eq, Bool.and_eq_true]
    omega
  | select ignw =>
    cases ignw <;>
      simp [Denotes, Instr.wellFormed, encode, commandWord, field, ← BitVec.toNat_inj] <;> omega

/-- Settles O2: a word that decodes stands for its instruction by its fields, which are all its bits. -/
theorem encodeOfDecode : Obligations.EncodeOfDecode := fun _ _ h => denotes_iff_encode.mp (denotes_of_decode h)

/-- Settles O1: the fields of the encoding are the operands, none cut off when they are in range. -/
theorem decodeOfEncode : Obligations.DecodeOfEncode :=
  fun _ h => decode_of_denotes (denotes_iff_encode.mpr ⟨h, rfl⟩)

/-- Settles O3: each word is the encoding of its instruction. -/
theorem writtenOutWordsDecode : Obligations.WrittenOutWordsDecode :=
  ⟨decodeOfEncode .getifc rfl, decodeOfEncode .getmaxf rfl, decodeOfEncode (.start 1) rfl,
    decodeOfEncode (.start 255) rfl, decodeOfEncode .stop rfl, decodeOfEncode (.write 0 1) rfl,
    decodeOfEncode (.write 255 255) rfl, decodeOfEncode (.read 1) rfl, decodeOfEncode (.select true) rfl,
    decodeOfEncode (.reconfig 5) rfl, decodeOfEncode (.txcs 5) rfl, decodeOfEncode .rxcs rfl⟩

end Sys2Proof
end

section
/-! SUPPORT. The rows of R140 as masks and as fields: what a word of a row decodes to. -/

namespace Sys2Proof.Machine

/-- Masking a field out takes that field's value off the word's number. -/
theorem toNat_and_mask (w : Word) {mask : Word} (hi lo : Nat)
    (hmask : (~~~mask).toNat = (2 ^ (hi + 1 - lo) - 1) * 2 ^ lo) :
    (w &&& mask).toNat + field w hi lo * 2 ^ lo = w.toNat := by
  have hfield : (w &&& ~~~mask).toNat = field w hi lo * 2 ^ lo := by
    rw [BitVec.toNat_and, hmask, field, ← Nat.and_two_pow_sub_one_eq_mod, ← Nat.shiftRight_eq_div_pow,
      ← Nat.shiftLeft_eq, ← Nat.shiftLeft_eq]
    apply Nat.eq_of_testBit_eq
    intro i
    by_cases h : lo ≤ i <;> simp [h, Bool.and_comm]
  have hdisjoint : (w &&& mask) &&& (w &&& ~~~mask) = 0#32 := by ext i; simp +contextual
  have hsum : (w &&& mask) + (w &&& ~~~mask) = w := by
    rw [BitVec.add_eq_or_of_and_eq_zero _ _ hdisjoint, ← BitVec.and_or_distrib_left, BitVec.or_not_self,
      BitVec.and_allOnes]
  rw [← hfield, ← BitVec.toNat_add_of_and_eq_zero hdisjoint, hsum]

/-! ## The masks of R140, each leaving out the operand fields of its rows -/

section Masks

variable {w : Word} {op : Nat} (hop : op < 16)
include hop

theorem and_fullMask_eq_iff : w &&& 0xFFFFFFFF#32 = commandWord op 0 0 0 ↔
    field w 31 28 = op ∧ field w 27 0 = 0 := by
  have hall : w &&& 0xFFFFFFFF#32 = w := BitVec.and_allOnes
  have hw := w.isLt
  simp only [hall, field, commandWord, ← BitVec.toNat_inj, BitVec.toNat_ofNat]
  omega

theorem and_countMask_eq_iff : w &&& 0xFFFF00FF#32 = commandWord op 0 0 0 ↔
    field w 31 28 = op ∧ field w 27 16 = 0 ∧ field w 7 0 = 0 := by
  have hmasked := toNat_and_mask w (mask := 0xFFFF00FF#32) 15 8 rfl
  simp only [field, commandWord, ← BitVec.toNat_inj, BitVec.toNat_ofNat] at hmasked ⊢
  omega

theorem and_instMask_eq_iff : w &&& 0xFF00FFFF#32 = commandWord op 0 0 0 ↔
    field w 31 28 = op ∧ field w 27 24 = 0 ∧ field w 15 0 = 0 := by
  have hmasked := toNat_and_mask w (mask := 0xFF00FFFF#32) 23 16 rfl
  simp only [field, commandWord, ← BitVec.toNat_inj, BitVec.toNat_ofNat] at hmasked ⊢
  omega

theorem and_instCountMask_eq_iff : w &&& 0xFF0000FF#32 = commandWord op 0 0 0 ↔
    field w 31 28 = op ∧ field w 27 24 = 0 ∧ field w 7 0 = 0 := by
  have hmasked := toNat_and_mask w (mask := 0xFF0000FF#32) 23 8 rfl
  simp only [field, commandWord, ← BitVec.toNat_inj, BitVec.toNat_ofNat] at hmasked ⊢
  omega

theorem and_ignwMask_eq_iff : w &&& 0xFFFFFFFE#32 = commandWord op 0 0 0 ↔
    field w 31 28 = op ∧ field w 27 1 = 0 := by
  have hmasked := toNat_and_mask w (mask := 0xFFFFFFFE#32) 0 0 rfl
  simp only [field, commandWord, ← BitVec.toNat_inj, BitVec.toNat_ofNat] at hmasked ⊢
  omega

end Masks

/-! ## Rows -/

/-- INST and COUNT of R138 are the bytes the table names. -/
theorem toNat_extract_eq_field (w : Word) (lo : Nat) : (w.extractLsb' lo 8).toNat = field w (lo + 7) lo := by
  simp [field, BitVec.extractLsb'_toNat, Nat.shiftRight_eq_div_pow, show lo + 7 + 1 - lo = 8 by omega]

theorem getLsbD_zero_eq_field (w : Word) : w.getLsbD 0 = decide (field w 0 0 = 1) := by
  simp [field, BitVec.getLsbD, Nat.testBit_zero]

/-- Row `k` selects the words of its command once its mask says what the command's fields do. -/
theorem matchesRow_iff_of_row {w : Word} {k : Nat} {row : Word × Word} {i : Instr}
    (hrow : commandRows[k]? = some row) (hcommand : commandOf w k = some i)
    (hfields : w &&& row.2 = row.1 ↔ Denotes w i) :
    matchesRow w k ↔ ∃ i, commandOf w k = some i ∧ Denotes w i := by
  simp [matchesRow, hrow, hcommand, hfields]

/-- A word of a row of R140 is one whose fields stand for that row's command, and there are no other rows. -/
theorem matchesRow_iff_denotes {w : Word} {k : Nat} :
    matchesRow w k ↔ ∃ i, commandOf w k = some i ∧ Denotes w i := by
  match k with
  | 0 => exact matchesRow_iff_of_row rfl rfl (and_fullMask_eq_iff (op := 0x1) (by decide))
  | 1 => exact matchesRow_iff_of_row rfl rfl (and_fullMask_eq_iff (op := 0x2) (by decide))
  | 3 => exact matchesRow_iff_of_row rfl rfl (and_fullMask_eq_iff (op := 0x4) (by decide))
  | 2 =>
    refine matchesRow_iff_of_row rfl rfl ?_
    simp only [Denotes, toNat_extract_eq_field, and_true]
    exact and_countMask_eq_iff (op := 0x3) (by decide)
  | 7 =>
    refine matchesRow_iff_of_row rfl rfl ?_
    simp only [Denotes, toNat_extract_eq_field, and_true]
    exact and_countMask_eq_iff (op := 0x8) (by decide)
  | 4 =>
    refine matchesRow_iff_of_row rfl rfl ?_
    simp only [Denotes, toNat_extract_eq_field, and_true]
    exact and_instCountMask_eq_iff (op := 0x5) (by decide)
  | 5 =>
    refine matchesRow_iff_of_row rfl rfl ?_
    simp only [Denotes, toNat_extract_eq_field, and_true]
    exact and_instMask_eq_iff (op := 0x6) (by decide)
  | 6 =>
    refine matchesRow_iff_of_row rfl rfl ?_
    simp only [Denotes, getLsbD_zero_eq_field, and_true]
    exact and_ignwMask_eq_iff (op := 0x7) (by decide)
  | _ + 8 => simp [commandOf, commandRows]

theorem op_of_denotes {w : Word} {i : Instr} (h : Denotes w i) : field w 31 28 = Laws.opOf i := by
  cases i <;> exact h.1

theorem opOf_of_commandOf {w : Word} {k : Nat} {i : Instr} (h : commandOf w k = some i) :
    Laws.opOf i = k + 1 := by
  match k with
  | 0 | 1 | 2 | 3 | 4 | 5 | 6 | 7 => cases h; rfl
  | _ + 8 => cases h

/-- The rows of R140 stand in the order of their OP, so OP tells them apart. -/
theorem op_of_matchesRow {w : Word} {k : Nat} (h : matchesRow w k) : field w 31 28 = k + 1 := by
  obtain ⟨i, hi, hd⟩ := matchesRow_iff_denotes.mp h
  rw [op_of_denotes hd, opOf_of_commandOf hi]

theorem exists_commandOf {w : Word} {i : Instr} (h : Denotes w i) (hi : isCommand i = true) :
    ∃ k, commandOf w k = some i := by
  cases i with
  | getifc => exact ⟨0, rfl⟩
  | getmaxf => exact ⟨1, rfl⟩
  | stop => exact ⟨3, rfl⟩
  | start count =>
    obtain ⟨-, -, rfl⟩ := h
    exact ⟨2, by rw [commandOf, toNat_extract_eq_field]⟩
  | write inst count =>
    obtain ⟨-, -, rfl, rfl⟩ := h
    exact ⟨4, by rw [commandOf, toNat_extract_eq_field, toNat_extract_eq_field]⟩
  | read inst =>
    obtain ⟨-, -, rfl⟩ := h
    exact ⟨5, by rw [commandOf, toNat_extract_eq_field]⟩
  | select ignw =>
    obtain ⟨-, -, rfl⟩ := h
    exact ⟨6, by rw [commandOf, getLsbD_zero_eq_field]⟩
  | reconfig count =>
    obtain ⟨-, -, rfl⟩ := h
    exact ⟨7, by rw [commandOf, toNat_extract_eq_field]⟩
  | txcs | rxcs => simp [isCommand] at hi

theorem exists_matchesRow_of_decode {w : Word} {i : Instr} (h : decode w = .instr i) (hi : isCommand i = true) :
    ∃ k, matchesRow w k := by
  have hd := denotes_of_decode h
  obtain ⟨k, hk⟩ := exists_commandOf hd hi
  exact ⟨k, matchesRow_iff_denotes.mpr ⟨i, hk, hd⟩⟩

/-- Settles O4: a row's words are those whose fields stand for its command, and row `k` has OP `k + 1`. -/
theorem commandTableSelectsRow : Obligations.CommandTableSelectsRow := by
  refine ⟨fun w k h => ?_, fun w i => exists_matchesRow_of_decode, fun w j k hj hk => ?_⟩
  · obtain ⟨i, hi, hd⟩ := matchesRow_iff_denotes.mp h
    exact ⟨i, hi, decode_of_denotes hd⟩
  · exact Nat.succ.inj ((op_of_matchesRow hj).symm.trans (op_of_matchesRow hk))

end Sys2Proof.Machine
end

section
/-! SUPPORT. The length codes (R131 to R133). -/

namespace Sys2Proof.Machine

/-- The search goes up from code 0, so what it finds is long enough and no lower code is (R132). -/
theorem len2dlc_least {n : Nat} {d : BitVec 4} (h : len2dlc n = some d) :
    n ≤ dlc2len d ∧ ∀ e : BitVec 4, n ≤ dlc2len e → d.toNat ≤ e.toNat := by
  obtain ⟨k, hk, rfl⟩ := Option.map_eq_some_iff.mp h
  obtain ⟨hlong, hmem, hleast⟩ := List.find?_range_eq_some.mp hk
  have htoNat : (BitVec.ofNat 4 k).toNat = k := by
    simpa using Nat.mod_eq_of_lt (List.mem_range.mp hmem)
  rw [dlc2len, htoNat]
  refine ⟨of_decide_eq_true hlong, fun e he => Nat.le_of_not_lt fun hlt => ?_⟩
  exact absurd he (by simpa [dlc2len] using hleast e.toNat hlt)

/-- Code 15 has the greatest length, 64, so the search fails just above it (R132). -/
theorem len2dlc_eq_none_iff {n : Nat} : len2dlc n = none ↔ 64 < n := by
  simp only [len2dlc, Option.map_eq_none_iff, List.find?_range_eq_none, Bool.not_eq_true',
    decide_eq_false_iff_not, Nat.not_le]
  refine ⟨fun h => h 15 (by decide), fun h k hk => ?_⟩
  have hcode : dlcTable.getD k 0 = dlc2len (BitVec.ofNat 4 k) := by
    simp [dlc2len, Nat.mod_eq_of_lt hk]
  rw [hcode]
  exact Nat.lt_of_le_of_lt (dlc2len_le _) h

theorem nwords_bounds (n : Nat) : 4 * nwords n < n + 4 ∧ n ≤ 4 * nwords n := by
  unfold nwords ceil4
  omega

/-- Settles O20: the table and its inverse are finite facts, the rest is what the search for the least code finds. -/
theorem lengthCodesRoundTrip : Obligations.LengthCodesRoundTrip := by
  refine ⟨by decide, len2dlc_dlc2len, fun n hn => ?_, fun n hn => len2dlc_eq_none_iff.mpr hn, nwords_bounds⟩
  obtain ⟨d, hd⟩ := Option.ne_none_iff_exists'.mp (mt len2dlc_eq_none_iff.mp (Nat.not_lt.mpr hn))
  exact ⟨d, hd, len2dlc_least hd⟩

end Sys2Proof.Machine
end

section
/-! SUPPORT. The control words as instructions, and reserved words at the port (R123, R124, R141). -/

namespace Sys2Proof.Machine

theorem txcsWord_ofNat {d : Nat} (hd : d < 16) :
    txcsWord (BitVec.ofNat 4 d) = 0xCC200000#32 ||| (BitVec.ofNat 32 d <<< 16) := by
  rw [txcsWord, BitVec.setWidth_ofNat_of_le_of_lt (by decide) hd]

/-- ENCODE writes data words unless the frame is empty (R195). -/
theorem afterControl_eq (f : Frame) (m : Nat) :
    afterControl f m = if dlc2len f.dlc = 0 then .cmp m .restart else .dw m 0 := by
  have hwords : 0 < nwords (dlc2len f.dlc) ↔ ¬ dlc2len f.dlc = 0 := by
    unfold nwords ceil4
    omega
  simp [afterControl, hwords]

/-- As a command word a control word is reserved (R141, log 7). -/
theorem exec_controlWord_ready {s : State} (hready : s.Ready) {i : Instr} (hi : isCommand i = false) :
    exec i s = .next (reservedWord s) := by
  obtain ⟨hidle, hgim⟩ := hready
  cases i with
  | txcs dlc => simp [exec, execTxcs, hidle, hgim]
  | rxcs => simp [exec, execRxcs, hidle, hgim]
  | _ => simp [isCommand] at hi

/-- FG's state does not change while a handler runs (R98, log 24). -/
theorem exec_controlWord_inHandler {s : State} (hgim : s.gim = true) {i : Instr} (hi : isCommand i = false) :
    exec i s = .next s := by
  cases i with
  | txcs dlc => simp [exec, execTxcs, hgim]
  | rxcs => simp [exec, execRxcs, hgim]
  | _ => simp [isCommand] at hi

theorem exec_txcs_csw {s : State} (hgim : s.gim = false) {inst count m : Nat} {f : Frame}
    (hphase : s.phase = .write inst count f (.csw m)) (d : Nat) :
    exec (.txcs d) s = .next (controlStore s inst count f m (txcsWord (BitVec.ofNat 4 d))) := by
  simp [exec, execTxcs, hgim, hphase]

theorem fgMicro_csw {s : State} (hgim : s.gim = false) {inst count m : Nat} {f : Frame}
    (hphase : s.phase = .write inst count f (.csw m)) :
    fgMicro s = controlStore s inst count f m (txcsWord f.dlc) := by
  simp [fgMicro, hgim, hphase, writeStep]

/-- Settles O56: at its micro-step exec of the control word and FG's own micro-step are the same store. -/
theorem controlWordWrites : Obligations.ControlWordWrites := by
  refine ⟨fun s inst count m d f hgim hd hphase => ⟨?_, ?_⟩, fun s i count j fs hgim hphase => ?_,
    fun s i count j fs hgim hphase => ?_,
    fun s d hready => ⟨exec_controlWord_ready hready rfl, exec_controlWord_ready hready rfl⟩,
    fun s d hgim => ⟨exec_controlWord_inHandler hgim rfl, exec_controlWord_inHandler hgim rfl⟩⟩
  · rw [exec_txcs_csw hgim hphase, txcsWord_ofNat hd, controlStore, afterControl_eq]
    rfl
  · rw [exec_txcs_csw hgim hphase, fgMicro_csw hgim hphase, BitVec.ofNat_toNat, BitVec.setWidth_eq]
  · have hexec : exec .rxcs s = .next (goto (armMailbox s i j rxcsWord) (.start count fs (.fp i (.fi j)))) := by
      simp [exec, execRxcs, hgim, hphase]
    exact ⟨hexec, hexec.trans (congrArg _ ((startCtx count fs i).more hgim hphase rfl).symm)⟩
  · have hexec : exec .rxcs s = .next (goto (armMailbox s i j rxcsWord) (.reconfig count fs (.seq i (.fi j)))) := by
      simp [exec, execRxcs, hgim, hphase]
    exact ⟨hexec, hexec.trans (congrArg _ ((reconfigCtx count fs i).more hgim hphase rfl).symm)⟩

theorem step_reserved {s : State} {w : Word} {rest : List Move} {e : DecodeError} (hready : s.Ready)
    (hagenda : s.agenda = .host (.cmd w) :: rest) (hdecode : decode w = .reserved e) :
    step s = .next (reservedWord { s with agenda := rest, cmd := w }) := by
  have hfetched : fetched s = some w := by simp [fetched, hagenda, hready]
  simp [step, hfetched, issueWord, hdecode, latchCmd, takeMove, hagenda]

/-- Settles O5: a word of no row is reserved or a control word, and at IDLE both end in `reservedWord`. -/
theorem reservedWordEndsBadArgument : Obligations.ReservedWordEndsBadArgument := by
  intro s w rest hready hagenda hrows
  cases hdecode : decode w with
  | reserved e => exact step_reserved hready hagenda hdecode
  | instr i =>
    have hcontrol : isCommand i = false := by
      by_contra hcommand
      obtain ⟨k, hk⟩ := exists_matchesRow_of_decode hdecode (by simpa using hcommand)
      exact hrows k hk
    rw [stepRunsDecodedInstruction s w rest i hready hagenda hdecode]
    exact exec_controlWord_ready (s := { s with agenda := rest, cmd := w }) hready hcontrol

end Sys2Proof.Machine
end

section
/-! SUPPORT. PACK and UNPACK as inverses (R194), and DECODE's extraction of what ENCODE wrote (R206). -/

namespace Sys2Proof.Machine

/-! ## Where a bit stands -/

/-- The bits UNPACK takes for byte `k` are those PACK fills from byte `k` (R89, R193). -/
theorem packWord_bit_of_byte (p : List Byte) (k b : Nat) (hb : b < 8) :
    (packWord p (k / 4)).getLsbD (24 - 8 * (k % 4) + b) = (p.getD k 0).getLsbD b := by
  have hbyte : 4 * (k / 4) + (3 - (24 - 8 * (k % 4) + b) / 8) = k := by omega
  have hbit : (24 - 8 * (k % 4) + b) % 8 = b := by omega
  rw [packWord_bit p _ _ (by omega), hbyte, hbit]

/-- The converse: bit `b` of word `w` is a bit of the byte UNPACK takes from there. -/
theorem unpackByte_bit_of_word (ws : List Word) (w b : Nat) (hb : b < 32) :
    (unpackByte ws (4 * w + (3 - b / 8))).getLsbD (b % 8) = (ws.getD w 0).getLsbD b := by
  have hword : (4 * w + (3 - b / 8)) / 4 = w := by omega
  have hbit : 24 - 8 * ((4 * w + (3 - b / 8)) % 4) + b % 8 = b := by omega
  rw [unpackByte_bit ws _ _ (by omega), hword, hbit]

theorem getD_pack (p : List Byte) {w : Nat} (hw : w < nwords p.length) : (pack p).getD w 0 = packWord p w := by
  simp [pack, List.getD_eq_getElem?_getD, hw]

theorem getD_unpack (ws : List Word) (n k : Nat) :
    (unpack ws n).getD k 0 = if k < n then unpackByte ws k else 0 := by
  by_cases hk : k < n <;> simp [unpack, List.getD_eq_getElem?_getD, hk]

theorem allOnes_shiftLeft_bit (j : Nat) {b : Nat} (hb : b < 32) :
    (BitVec.allOnes 32 <<< j).getLsbD b = decide (j ≤ b) := by
  have hin : b - j < 32 := by omega
  simp only [BitVec.getLsbD_shiftLeft, BitVec.getLsbD_allOnes, hb, hin]
  simp [← decide_not]

/-- The dropped bits are those of the bytes from `n` on (R194). -/
theorem droppedBitsZero_bit (ws : List Word) (n : Nat) {w b : Nat} (hw : w < (droppedBitsZero ws n).length)
    (hb : b < 32) :
    ((droppedBitsZero ws n)[w]).getLsbD b = (decide (4 * w + (3 - b / 8) < n) && (ws.getD w 0).getLsbD b) := by
  have hws : w < ws.length := by simpa [droppedBitsZero] using hw
  have hget : ws.getD w 0 = ws[w] := List.getD_eq_getElem ws 0 hws
  simp only [droppedBitsZero, List.getElem_mapIdx, hget]
  split
  · next hall =>
    have hkept : 4 * w + (3 - b / 8) < n := by omega
    simp [hkept]
  · next hlast =>
    have hmask : (4 * w + (3 - b / 8) < n) ↔ 32 - 8 * (n - 4 * w) ≤ b := by omega
    simp only [BitVec.getLsbD_and, allOnes_shiftLeft_bit _ hb, hmask, Bool.and_comm]

/-! ## The two directions of R194 -/

theorem unpackByte_pack (p : List Byte) {k : Nat} (hk : k < p.length) : unpackByte (pack p) k = p[k] := by
  apply BitVec.eq_of_getLsbD_eq
  intro b hb
  rw [unpackByte_bit _ _ _ hb, getD_pack p (nwords_of_lt hk), packWord_bit_of_byte p k b hb,
    List.getD_eq_getElem p 0 hk]

/-- UNPACK undoes PACK, whatever the length. -/
theorem unpack_pack (p : List Byte) : unpack (pack p) p.length = p := by
  refine List.ext_getElem (unpack_length _ _) fun k _ hk => ?_
  simpa [unpack] using unpackByte_pack p hk

theorem packWord_unpack_bit (ws : List Word) (n w : Nat) {b : Nat} (hb : b < 32) :
    (packWord (unpack ws n) w).getLsbD b = (decide (4 * w + (3 - b / 8) < n) && (ws.getD w 0).getLsbD b) := by
  rw [packWord_bit _ _ _ hb, getD_unpack, ← unpackByte_bit_of_word ws w b hb]
  split
  · next hk => simp [hk]
  · next hk => simp [hk]

/-- PACK undoes UNPACK up to the dropped bits, whatever the length. -/
theorem pack_unpack {ws : List Word} {n : Nat} (hws : ws.length = nwords n) :
    pack (unpack ws n) = droppedBitsZero ws n := by
  refine List.ext_getElem (by simp [pack, droppedBitsZero, unpack_length, hws]) fun w _ hw => ?_
  apply BitVec.eq_of_getLsbD_eq
  intro b hb
  rw [droppedBitsZero_bit ws n hw hb, ← packWord_unpack_bit ws n w hb]
  simp [pack]

/-- Settles O19: PACK and UNPACK put each bit at the other's place, and a byte UNPACK drops is packed as zero. -/
theorem packUnpackLaw : Obligations.PackUnpackLaw :=
  ⟨fun p _ => unpack_pack p, fun _ _ _ hws => pack_unpack hws⟩

/-! ## DECODE after ENCODE -/

theorem csDlc_txcsWord : ∀ d : BitVec 4, csDlc (txcsWord d) = d := by decide

theorem csTimestamp_txcsWord : ∀ d : BitVec 4, csTimestamp (txcsWord d) = 0 := by decide

theorem idOf_idWord (id : BitVec 29) : idOf (idWord id) = id := by
  simp [idOf, idWord]

/-- The data words of an encoded frame are PACK of its payload (R195). -/
theorem dataWords_encoded {x : Inst} {f : Frame} {r : Memory} (hr : r.wf = true) (hf : f.Wf) (m : Nat)
    (hx : x.ram = Memory.encoded f m r) : x.dataWords m (nwords (dlc2len f.dlc)) = pack f.payload := by
  obtain ⟨-, -, hdata, -⟩ := encoded_load f m hr
  rw [pack, hf, Inst.dataWords]
  refine List.map_congr_left fun w hw => ?_
  rw [Inst.mb, hx, hdata w (List.mem_range.mp hw)]

/-- DECODE's extraction of an encoded mailbox, whatever stood in the memory before (R200, R206). -/
theorem captureOf_encoded {x : Inst} {f : Frame} {r : Memory} (hr : r.wf = true) (hf : f.Wf) (m : Nat)
    (hx : x.ram = Memory.encoded f m r) :
    captureOf (x.mb m 0) (idOf (x.mb m 1)) (x.dataWords m (nwords (dlc2len (csDlc (x.mb m 0))))) =
      { id := f.id, dlc := f.dlc, payload := f.payload, ts16 := 0 } := by
  obtain ⟨hid, hcontrol, -, -⟩ := encoded_load f m hr
  have hcs : x.mb m 0 = txcsWord f.dlc := by rw [Inst.mb, hx, hcontrol]
  have hidw : x.mb m 1 = idWord f.id := by rw [Inst.mb, hx, hid]
  have hpayload : unpack (pack f.payload) (dlc2len f.dlc) = f.payload := by
    rw [← hf, unpack_pack]
  rw [hcs, hidw, csDlc_txcsWord, dataWords_encoded hr hf m hx, captureOf, csDlc_txcsWord,
    csTimestamp_txcsWord, idOf_idWord, hpayload]

/-- The memory of the interface after ENCODE's micro-steps (R195, R196). -/
theorem ram_after_encode {s : State} {inst count m : Nat} {f : Frame}
    (hphase : s.phase = .write inst count f (.idw m)) (hgim : s.gim = false) (hinst : inst < s.insts.length) :
    ((drive (fgs (2 + nwords (dlc2len f.dlc))) s).inst inst).ram = Memory.encoded f m (s.inst inst).ram := by
  have hs : s = goto (s.modInst inst fun x => x) (.write inst count f (.idw m)) := by
    rw [modInst_id, ← hphase]
    rfl
  have hrun := encode_run (s := s) (inst := inst) (count := count) (m := m) (f := f) (rest := []) hgim
    fun x => x
  rw [← hs, List.append_nil] at hrun
  rw [hrun]
  show ((s.modInst inst _).inst inst).ram = _
  rw [inst_modInst_same s hinst]

/-- Settles O21: ENCODE leaves PACK of the payload under a control word with the frame's DLC, which UNPACK undoes. -/
theorem encodeThenDecodeRoundTrip : Obligations.EncodeThenDecodeRoundTrip := by
  intro s inst count m f hphase hgim hinst hwf hf
  exact captureOf_encoded hwf hf m (ram_after_encode hphase hgim hinst)

end Sys2Proof.Machine
end

section
/-! SUPPORT. DELTA in both modes and RECONCILE's arithmetic (R223 to R225, R228). -/

namespace Sys2Proof.Machine

/-! ## The tick difference (R224) -/

theorem absdiff_eq_abs (a b : Nat) : (absdiff a b : Int) = |(a : Int) - b| := by
  rw [absdiff]
  split
  · next hle => rw [Nat.cast_sub hle, abs_of_nonneg (by omega)]
  · next hlt => rw [Nat.cast_sub (by omega), abs_of_neg (by omega), neg_sub]

theorem absdiff_le_max (a b : Nat) : absdiff a b ≤ max a b := by
  rw [absdiff]
  split <;> omega

@[simp] theorem absdiff_self (a : Nat) : absdiff a a = 0 := by
  simp [absdiff]

theorem delta_abs (cur ts16 : BitVec 16) : (delta .abs cur ts16 : Int) = |(cur.toNat : Int) - ts16.toNat| :=
  absdiff_eq_abs _ _

/-- The 16-bit subtraction of the model is the integers' difference modulo 65536. -/
theorem delta_modular (cur ts16 : BitVec 16) :
    (delta .modular cur ts16 : Int) = ((cur.toNat : Int) - ts16.toNat) % 65536 := by
  have hsub : delta .modular cur ts16 = (2 ^ 16 - ts16.toNat + cur.toNat) % 2 ^ 16 := BitVec.toNat_sub _ _
  have hts := ts16.isLt
  omega

theorem delta_le (mode : DeltaMode) (cur ts16 : BitVec 16) : delta mode cur ts16 ≤ 65535 := by
  have hcur := cur.isLt
  have hts := ts16.isLt
  cases mode with
  | abs =>
    have hmax : delta .abs cur ts16 ≤ max cur.toNat ts16.toNat := absdiff_le_max _ _
    omega
  | modular => exact Nat.le_of_lt_succ (cur - ts16).isLt

@[simp] theorem delta_self (mode : DeltaMode) (cur : BitVec 16) : delta mode cur cur = 0 := by
  cases mode with
  | abs => exact absdiff_self _
  | modular => simp [delta]

/-! ## The back-dated clock, divided (R223, R225) -/

/-- The quotient is no larger than the clock word, so storing it in 64 bits loses nothing. -/
theorem toNat_reconcile (c : Config) (clk : BitVec 64) (cur ts16 : BitVec 16) :
    (reconcile c clk cur ts16).toNat =
      (clk.toNat + 2 ^ 64 - delta c.deltaMode cur ts16) % 2 ^ 64 / c.ticksPerUs := by
  have hd := delta_le c.deltaMode cur ts16
  have hback : (clk - BitVec.ofNat 64 (delta c.deltaMode cur ts16)).toNat =
      (clk.toNat + 2 ^ 64 - delta c.deltaMode cur ts16) % 2 ^ 64 := by
    rw [BitVec.toNat_sub, BitVec.toNat_ofNat]
    omega
  rw [reconcile, BitVec.toNat_ofNat, hback, Nat.mod_eq_of_lt]
  exact (Nat.div_le_self _ _).trans_lt (Nat.mod_lt _ (by decide))

/-- Settles O22: the difference is the model's `delta` in the configuration's mode. -/
theorem reconcileArithmetic : Obligations.ReconcileArithmetic := by
  intro c clk cur ts16
  refine ⟨delta c.deltaMode cur ts16, delta_le _ _ _, fun habs => ?_, fun hmodular => ?_, toNat_reconcile ..⟩
  · rw [habs, delta_abs]
  · rw [hmodular, delta_modular]

/-- Settles O23: a zero difference back-dates the clock by nothing, in either mode. -/
theorem reconcileWithZeroDelta : Obligations.ReconcileWithZeroDelta := by
  intro c clk cur
  rw [toNat_reconcile, delta_self, Nat.sub_zero, Nat.add_mod_right, Nat.mod_eq_of_lt clk.isLt]

end Sys2Proof.Machine
end

section
/-! SUPPORT. A handler's run from its entry to its exit with no other move inside: the state it passes through is
that before the entry but for the handler's position, GIM and its own interface (R244, R248, R251, R398, R400). -/

namespace Sys2Proof.Machine

/-! ## The flags and the discard counter -/

theorem rxFlags_bit (s : State) (i j : Nat) :
    (rxFlags s i).getLsbD j = ((s.inst i).iflag.getLsbD j && decide (2 ≤ j) && decide (j < 2 + s.cfg.fCap)) := by
  have hflag : (rxFlags s i).getLsbD j = ((s.inst i).iflag.getLsbD j && (rxValid s.cfg).getLsbD j) :=
    BitVec.getLsbD_and
  rw [hflag, rxValid_bit]
  by_cases hj : j < 32
  · simp [hj, Bool.and_assoc]
  · simp [BitVec.getLsbD_of_ge (s.inst i).iflag j (by omega)]

/-- The converse of `ctz_spec`: the lowest set bit is the only one it describes (R248). -/
theorem ctz_eq_of_lowest {x : Word} {m : Nat} (hset : x.getLsbD m = true)
    (hlow : ∀ j, j < m → x.getLsbD j = false) : ctz x = m := by
  have hx : x ≠ 0 := by
    rintro rfl
    simp at hset
  obtain ⟨-, hbit, hbelow⟩ := ctz_spec hx
  rcases Nat.lt_trichotomy (ctz x) m with h | h | h
  · exact absurd hbit (by simp [hlow _ h])
  · exact h
  · exact absurd hset (by simp [hbelow _ h])

theorem toNat_satInc32 (x : Word) :
    (satInc32 x).toNat = if x.toNat < 2 ^ 32 - 1 then x.toNat + 1 else x.toNat := by
  rw [satInc32]
  split
  · next h => exact (BitVec.toNat_add x 1).trans (Nat.mod_eq_of_lt (Nat.add_lt_of_lt_sub h))
  · rfl

theorem satInc32_eq (x : Word) : satInc32 x = if x = 0xFFFFFFFF#32 then 0xFFFFFFFF#32 else x + 1 := by
  have hlt := x.isLt
  rw [satInc32]
  by_cases hx : x = 0xFFFFFFFF#32
  · simp [hx]
  · have hne : x.toNat ≠ 2 ^ 32 - 1 := fun h => hx (BitVec.eq_of_toNat_eq h)
    rw [if_pos (by omega), if_neg hx]

/-! ## A state inside a run -/

/-- An interface replaced by itself. -/
theorem modInst_own (s : State) (i : Nat) : (s.modInst i fun _ => s.inst i) = s :=
  (modInst_congr s (g := fun x => x) rfl).trans (modInst_id s i)

/-- `s` with IRQ[i] running at `l` and interface `i` holding `x`. -/
def State.inHandler (s : State) (i : Nat) (x : Inst) (l : IrqLabel) : State :=
  { s.modInst i fun _ => x with gim := true, irq := some ⟨i, l⟩ }

/-- The access a handler makes after the one at a label, its interface holding `x` before (R244, R200, R221, R223);
`exit:` has none and stays. -/
def IrqLabel.after (s : State) (x : Inst) : IrqLabel → IrqLabel
  | .flg =>
    if x.iflag &&& rxValid s.cfg = 0 then .exit
    else if x.queue.length < s.cfg.qCap then .csr (ctz (x.iflag &&& rxValid s.cfg))
    else .cnt (ctz (x.iflag &&& rxValid s.cfg))
  | .csr m => if mtu < dlc2len (csDlc (x.mb m 0)) then .unl m else .idr m (x.mb m 0)
  | .idr m cs => afterWords m cs (idOf (x.mb m 1)) []
  | .dr m cs id ws => afterWords m cs id (ws ++ [x.mb m (2 + ws.length)])
  | .hi m c => .lo m c s.clkHi
  | .lo m c h => .tmr m c (clockValue h s.clkLo)
  | .tmr m c clk => .psh m (frameOf c (reconcile s.cfg clk x.timer c.ts16))
  | .psh m _ | .unl m | .cnt m => .clr m
  | .clr _ | .exit => .exit

section Run

variable {s : State} {i : Nat} {x : Inst} {l : IrqLabel}

theorem modInst_inHandler (f : Inst → Inst) : (s.inHandler i x l).modInst i f = s.inHandler i (f x) l := by
  have h := modInst_modInst s i (fun _ => x) f
  simp only [State.inHandler, State.modInst, State.mk.injEq, true_and, and_true] at h ⊢
  exact h

theorem irqAt_inHandler (l' : IrqLabel) : irqAt (s.inHandler i x l) i l' = s.inHandler i x l' := rfl

theorem inst_inHandler (hi : i < s.insts.length) : (s.inHandler i x l).inst i = x :=
  inst_modInst_same s hi _

/-- One access of the running handler, but for its exit: the effect on its interface, and the next label. -/
theorem irq_inHandler (hi : i < s.insts.length) (hl : l ≠ .exit) :
    applyMove .irq (s.inHandler i x l) = s.inHandler i (l.effect x) (l.after s x) := by
  have hx : (s.inHandler i x l).inst i = x := inst_inHandler hi
  rw [applyMove_irq_some rfl]
  cases l with
  | exit => exact absurd rfl hl
  | flg => simp only [rxirqStep, afterFlags, rxFlags, qlen, regVal, hx]; rfl
  | csr m =>
    simp only [rxirqStep, mbRead, mbVal, hx, true_and, modInst_inHandler, IrqLabel.effect]
    split <;> rfl
  | idr | dr => simp [rxirqStep, mbRead, mbVal, hx, IrqLabel.effect, IrqLabel.after, irqAt_inHandler]
  | hi | lo => rfl
  | tmr m c clk =>
    have htimer : (x.reg .timer).setWidth 16 = x.timer := BitVec.setWidth_setWidth_of_le _ (by decide)
    simp only [rxirqStep, regRead, regVal, hx, modInst_inHandler, htimer]
    rfl
  | psh | unl | cnt | clr =>
    simp only [rxirqStep, push, regRead, countDiscard, regWrite, modInst_inHandler]
    rfl

/-- The same, with accesses to come. -/
theorem applyMoves_irqs_succ (hi : i < s.insts.length) (hl : l ≠ .exit) (n : Nat) :
    applyMoves (irqs (n + 1)) (s.inHandler i x l) = applyMoves (irqs n) (s.inHandler i (l.effect x) (l.after s x)) :=
  congrArg (applyMoves (irqs n)) (irq_inHandler hi hl)

/-- A handler is entered at `flg:` where its interface pends and none runs (R398). -/
theorem irqStart_inHandler (hi : i < s.cfg.nIf) (hg : s.gim = false) (hp : (s.inst i).pend = true) :
    applyMove (.irqStart i) s = s.inHandler i (s.inst i) .flg := by
  have hstart : irqMayStart s i = true := by simp [irqMayStart, hi, hg, hp]
  rw [applyMove, irqStart, if_pos hstart, State.inHandler, modInst_own]
  rfl

/-- The exit leaves of a whole run the change of the interface (R400). -/
theorem applyMoves_exit (hg : s.gim = false) (hr : s.irq = none) :
    applyMoves (irqs 1) (s.inHandler i x .exit) = s.modInst i fun _ => x := by
  show ({ s.modInst i fun _ => x with gim := false, irq := none } : State) = _
  rw [← hg, ← hr]
  rfl

/-- DECODE's data words from word `k` on, up to its last one (R200). -/
theorem applyMoves_dataWords (hi : i < s.insts.length) (m : Nat) (cs : Word) (id : BitVec 29) (n : Nat) :
    ∀ r k : Nat, k + r = nwords (dlc2len (csDlc cs)) →
    applyMoves (irqs (r + n)) (s.inHandler i x (afterWords m cs id (x.dataWords m k))) =
      applyMoves (irqs n)
        (s.inHandler i x (.hi m (captureOf cs id (x.dataWords m (nwords (dlc2len (csDlc cs)))))))
  | 0, k, hk => by
    obtain rfl : k = nwords (dlc2len (csDlc cs)) := hk
    simp [afterWords, Inst.dataWords]
  | r + 1, k, hk => by
    have hnext : x.dataWords m k ++ [x.mb m (2 + (x.dataWords m k).length)] = x.dataWords m (k + 1) := by
      simp [Inst.dataWords, List.range_succ]
    have hdr : afterWords m cs id (x.dataWords m k) = .dr m cs id (x.dataWords m k) :=
      if_pos (by simp [Inst.dataWords]; omega)
    rw [hdr, Nat.succ_add, applyMoves_irqs_succ hi (by simp), IrqLabel.after, hnext]
    exact applyMoves_dataWords hi m cs id n r (k + 1) (by omega)

/-- DECODE from its control-word read to its last data word: the mailbox is locked and captured (R200). -/
theorem applyMoves_decode (hi : i < s.insts.length) {m : Nat} (hm : 2 ≤ m) (n : Nat) :
    applyMoves (irqs (nwords (dlc2len (csDlc (x.mb m 0))) + n + 2)) (s.inHandler i x (.csr m)) =
      applyMoves (irqs n) (s.inHandler i { x with lock := some m } (.hi m (captureOf (x.mb m 0) (idOf (x.mb m 1))
        (x.dataWords m (nwords (dlc2len (csDlc (x.mb m 0)))))))) := by
  have hmtu : ¬ mtu < dlc2len (csDlc (x.mb m 0)) := Nat.not_lt.mpr (dlc2len_le _)
  rw [applyMoves_irqs_succ hi (by simp), IrqLabel.after, if_neg hmtu, IrqLabel.effect, if_pos hm,
    applyMoves_irqs_succ hi (by simp)]
  exact applyMoves_dataWords hi m _ _ n _ 0 (Nat.zero_add _)

/-- From CLKREAD to the exit: the captured frame is timestamped and pushed, the mailbox unlocked and its flag
cleared (R221, R223, R244, R251). -/
theorem applyMoves_captured (hi : i < s.insts.length) (hg : s.gim = false) (hr : s.irq = none) (m : Nat)
    (c : Capture) :
    applyMoves (irqs 6) (s.inHandler i x (.hi m c)) = s.modInst i fun _ =>
      { x with
        lock := none
        queue := x.queue ++ [frameOf c (reconcile s.cfg (clockValue s.clkHi s.clkLo) x.timer c.ts16)]
        iflag := iflagWritten x.iflag (mbBit m) } := by
  iterate 5 rw [applyMoves_irqs_succ hi (by simp [IrqLabel.after])]
  exact applyMoves_exit hg hr

/-- From `cnt:` to the exit: one frame counted and its flag cleared (R246, R250). -/
theorem applyMoves_counted (hi : i < s.insts.length) (hg : s.gim = false) (hr : s.irq = none) (m : Nat) :
    applyMoves (irqs 3) (s.inHandler i x (.cnt m)) = s.modInst i fun _ =>
      { x with discard := satInc32 x.discard, iflag := iflagWritten x.iflag (mbBit m) } := by
  iterate 2 rw [applyMoves_irqs_succ hi (by simp [IrqLabel.after])]
  exact applyMoves_exit hg hr

/-- At `flg:` the lowest-numbered valid flag chooses the mailbox, and the room in the queue what is done with it
(R245, R248, R250). -/
theorem after_flg_lowest {m : Nat} (hm : Served s.cfg m) (hset : (s.inst i).iflag.getLsbD m = true)
    (hlow : ∀ j, 2 ≤ j → j < m → (s.inst i).iflag.getLsbD j = false) :
    IrqLabel.flg.after s (s.inst i) = if (s.inst i).queue.length < s.cfg.qCap then .csr m else .cnt m := by
  have hbit : (rxFlags s i).getLsbD m = true := by simp [rxFlags_bit, hset, hm]
  have hctz : ctz (rxFlags s i) = m := by
    refine ctz_eq_of_lowest hbit fun j hj => ?_
    by_cases h2 : 2 ≤ j
    · simp [rxFlags_bit, hlow j h2 hj]
    · simp [rxFlags_bit, h2]
  have hne : rxFlags s i ≠ 0 := by
    intro h
    simp [h] at hbit
  exact (if_neg hne).trans (by rw [← hctz]; rfl)

/-- With no valid flag set `flg:` leads to the exit (R252). -/
theorem after_flg_none (hnone : ∀ m, 2 ≤ m → m < 2 + s.cfg.fCap → (s.inst i).iflag.getLsbD m = false) :
    IrqLabel.flg.after s (s.inst i) = .exit := by
  have hzero : rxFlags s i = 0 := by
    refine BitVec.eq_of_getLsbD_eq fun j _ => ?_
    rw [BitVec.ofNat_eq_ofNat, BitVec.getLsbD_zero, Bool.eq_false_iff]
    intro hbit
    simp only [rxFlags_bit, Bool.and_eq_true, decide_eq_true_eq] at hbit
    obtain ⟨⟨hset, h2⟩, hcap⟩ := hbit
    exact absurd hset (by simp [hnone j h2 hcap])
  exact if_pos hzero

theorem State.Wf.irq_none (h : s.Wf) (hg : s.gim = false) : s.irq = none := by
  have hirq := h.gimIrq
  simpa [hg] using hirq

theorem State.Wf.inst_lt (h : s.Wf) (hi : i < s.cfg.nIf) : i < s.insts.length := h.instCount.symm ▸ hi

/-- A run's entry and its access at `flg:` (R398, R244). -/
theorem applyMoves_irqStart (h : s.Wf) (hi : i < s.cfg.nIf) (hg : s.gim = false) (hp : (s.inst i).pend = true)
    (n : Nat) : applyMoves (.irqStart i :: irqs (n + 1)) s =
      applyMoves (irqs n) (s.inHandler i (s.inst i) (IrqLabel.flg.after s (s.inst i))) := by
  rw [applyMoves, irqStart_inHandler hi hg hp]
  exact applyMoves_irqs_succ (h.inst_lt hi) (by simp) n

end Run

/-! ## The obligations -/

/-- Settles O31: the run is `flg:`, DECODE of the mailbox served, and the timestamped push. -/
theorem handlerPushesDecodedFrame : Obligations.HandlerPushesDecodedFrame := by
  intro s i m hwf hg hi hpend hm hmf hset hlow hroom x cs n
  have hlen := hwf.inst_lt hi
  calc applyMoves (.irqStart i :: irqs (9 + nwords n)) s
      = applyMoves (irqs (nwords n + 6 + 2)) (s.inHandler i x (.csr m)) := by
        rw [Nat.add_comm, applyMoves_irqStart hwf hi hg hpend, after_flg_lowest ⟨hm, hmf⟩ hset hlow, if_pos hroom]
    _ = applyMoves (irqs 6) (s.inHandler i { x with lock := some m }
          (.hi m (captureOf cs (idOf (x.mb m 1)) (x.dataWords m (nwords n))))) := applyMoves_decode hlen hm 6
    _ = _ := (applyMoves_captured hlen hg (hwf.irq_none hg) m _).trans (modInst_congr s rfl)

/-- Settles O32: on a full queue the run is `flg:`, `cnt:`, `clr:` and the exit, without a valid flag `flg:` and the
exit. -/
theorem handlerPushesNothing : Obligations.HandlerPushesNothing := by
  intro s i hwf hg hi hpend
  have hlen := hwf.inst_lt hi
  have hirq := hwf.irq_none hg
  refine ⟨fun m hm hmf hset hlow hfull => ?_, fun hnone => ?_⟩
  · rw [applyMoves_irqStart hwf hi hg hpend, after_flg_lowest ⟨hm, hmf⟩ hset hlow, if_neg (by omega),
      applyMoves_counted hlen hg hirq]
    exact modInst_congr s (by rw [satInc32_eq]; rfl)
  · rw [applyMoves_irqStart hwf hi hg hpend, after_flg_none hnone, applyMoves_exit hg hirq]
    exact modInst_own s i

/-- Settles O35: of the handler's accesses only `cnt:` reaches the counter, and of FG's micro-steps only `rst:`. -/
theorem discardCountsDropsOnly : Obligations.DiscardCountsDropsOnly := by
  intro s m i d d'
  refine ⟨?_, fun mb hm hr hi => ?_, fun n fs hm hg hph _ => ?_⟩
  · rcases applyMove_inst_cases s m i with h | ⟨l, hm, hr, h⟩ | ⟨-, -, -, h⟩ | ⟨n, fs, hm, hg, hph, -⟩
    · exact .inl (congrArg (fun p => p.2.2) h)
    · cases l with
      | cnt mb => exact .inr (.inl ⟨mb, hm, hr⟩)
      | csr mb =>
        refine .inl ((congrArg Inst.discard h).trans ?_)
        simp only [IrqLabel.effect]
        split <;> rfl
      | _ => exact .inl (congrArg Inst.discard h :)
    · exact .inl (congrArg Inst.discard h :)
    · exact .inr (.inr ⟨n, fs, hm, hg, hph⟩)
  · have hcount : (applyMove m s).inst i = (countDiscard s i).inst i := by
      rw [hm, applyMove_irq_some hr]
      rfl
    have hd : d' = satInc32 d := congrArg Inst.discard (hcount.trans (inst_modInst_same s hi _))
    rw [hd, toNat_satInc32]
  · have hrst : applyMove m s = goto { s with insts := s.insts.map Inst.restarted } (.start n fs .clk) := by
      simp [hm, applyMove, fgMicro, hg, hph, startStep]
    exact congrArg Inst.discard ((congrArg (fun t => t.inst i) hrst).trans (inst_restarted s i))

end Sys2Proof.Machine
end

section
/-! SUPPORT. MCR through a freeze and an unfreeze (R272, R371), and what stands after FSEQ, whole or timed out, in the
terms of the statements (R278, R285). -/

namespace Sys2Proof.Machine

/-! ## MCR -/

/-- A mask and its complement cover a word. -/
theorem and_or_andNot (v m : Word) : (v &&& m) ||| (v &&& ~~~m) = v := by
  rw [← BitVec.and_or_distrib_left, BitVec.or_not_self, BitVec.and_allOnes]

/-- A write that carries the acknowledge bits as they stand is stored whole (R42). -/
theorem mcrWritten_of_ack {old v : Word} (h : v &&& ackBits = old &&& ackBits) : mcrWritten old v = v := by
  rw [mcrWritten, ← h, BitVec.or_comm, and_or_andNot]

theorem mcrWritten_freeze (v : Word) : mcrWritten v (v ||| freezeBits) = v ||| 0x50000000#32 := by
  refine mcrWritten_of_ack ?_
  rw [BitVec.and_or_distrib_right, show freezeBits &&& ackBits = 0#32 by decide, BitVec.or_zero]

theorem mcrWritten_unfreeze (v : Word) : mcrWritten v (v &&& ~~~freezeBits) = v &&& ~~~0x50000000#32 := by
  refine mcrWritten_of_ack ?_
  rw [BitVec.and_assoc, show ~~~freezeBits &&& ackBits = ackBits by decide]

theorem unfrozenMcr_eq (v : Word) : unfrozenMcr v = (v &&& ~~~0x50000000#32) ||| 0x09000000#32 := by
  have hfrozen : frozenMcr v = v ||| 0x59000000#32 := by
    rw [frozenMcr, mcrWritten_freeze, BitVec.or_assoc]
    rfl
  rw [unfrozenMcr, mcrWritten_unfreeze, hfrozen, BitVec.and_or_distrib_right]
  rfl

/-- What is left of MCR once the unfreeze is acknowledged by the bits `m`, of the acknowledged bits those of `rest`. -/
theorem unfrozenMcr_andNot (v m : Word) {all rest : Word} (hall : ~~~0x50000000#32 &&& ~~~m = ~~~all)
    (hrest : 0x09000000#32 &&& ~~~m = rest) : unfrozenMcr v &&& ~~~m = (v &&& ~~~all) ||| rest := by
  rw [unfrozenMcr_eq, BitVec.and_or_distrib_right, BitVec.and_assoc, hall, hrest]

theorem unfrozenMcr_left (v : Word) : unfrozenMcr v &&& ~~~frzackBit = (v &&& ~~~0x51000000#32) ||| 0x08000000#32 :=
  unfrozenMcr_andNot v _ (by decide) (by decide)

theorem unfrozenMcr_ready (v : Word) : unfrozenMcr v &&& ~~~(frzackBit ||| notrdyBit) = v &&& ~~~0x59000000#32 :=
  (unfrozenMcr_andNot v _ (by decide) (by decide)).trans (BitVec.or_zero ..)

/-- The sample of FRZACK is bit 24 of MCR (R41). -/
theorem anySet_frzackBit (v : Word) : anySet v frzackBit = v.getLsbD 24 :=
  anySet_mbBit (m := 24) (by decide)

/-- The sample of NOTRDY is bit 27 of MCR (R41). -/
theorem anySet_notrdyBit (v : Word) : anySet v notrdyBit = v.getLsbD 27 :=
  anySet_mbBit (m := 27) (by decide)

/-- The request bits down, a controller may leave freeze mode (R371). -/
theorem awaitingUnfreeze_not_requested (c : Config) (fs : List FilterReg) (hook : Bool) (x : Inst) :
    (x.awaitingUnfreeze c fs hook).freezeRequested = false := by
  have hhalt : anySet (unfrozenMcr x.mcr) haltBit = false := by
    rw [show haltBit = mbBit 28 from rfl, anySet_mbBit (by decide), unfrozenMcr_eq]
    simp
  show (anySet (unfrozenMcr x.mcr) haltBit && _) = false
  rw [hhalt, Bool.false_and]

/-! ## The interface after FSEQ -/

theorem hookedMask_eq {c : Config} (hc : c.Legal) (hook : Bool) (v : Word) :
    hookedMask c hook v = maskAfter c hook v := by
  have hwithin : rxValid c &&& mbMask c = rxValid c := by
    calc rxValid c &&& mbMask c = (rxValid c &&& mbMask c) ||| (rxValid c &&& ~~~mbMask c) := by
          rw [rxValid_within hc]
          exact BitVec.or_zero.symm
      _ = rxValid c := and_or_andNot _ _
  cases hook with
  | false => rfl
  | true =>
    show rxValid c &&& mbMask c = _
    rw [hwithin, rxValid, maskAfter, if_pos rfl, Nat.shiftLeft_eq, Nat.shiftLeft_eq, Nat.one_mul]

/-- A whole FSEQ on a well-formed interface is what the statements ask of it (R272, R278, R280). -/
theorem refiltered_refiltered {c : Config} (hc : c.Legal) {fs : List FilterReg} (hn : fs.length ≤ c.fCap)
    (hook : Bool) {x : Inst} (hx : x.ram.wf = true) : Refiltered c fs hook x (x.refiltered c fs hook) := by
  refine ⟨?_, programmed_rewritten hc hn hx rfl⟩
  rw [Inst.refiltered, Inst.awaitingUnfreeze, unfrozenMcr_ready, hookedMask_eq hc]
  rfl

/-- An interface where poll `p` of FSEQ timed out (R285). -/
def Inst.aborted (c : Config) (fs : List FilterReg) (hook : Bool) (x : Inst) : SilentPoll → Inst
  | .freeze => { x with mcr := mcrWritten x.mcr (x.mcr ||| freezeBits), fpState := .freezing }
  | .unfreeze => x.awaitingUnfreeze c fs hook
  | .ready => { x.awaitingUnfreeze c fs hook with mcr := unfrozenMcr x.mcr &&& ~~~frzackBit }

theorem aborted_aborted {c : Config} (hc : c.Legal) {fs : List FilterReg} (hn : fs.length ≤ c.fCap)
    (hook : Bool) {x : Inst} (hx : x.ram.wf = true) (p : SilentPoll) :
    Aborted c fs hook x (x.aborted c fs hook p) p := by
  cases p with
  | freeze =>
    show Inst.aborted c fs hook x .freeze = _
    rw [Inst.aborted, mcrWritten_freeze]
  | unfreeze =>
    refine ⟨?_, programmed_rewritten hc hn hx rfl⟩
    rw [Inst.aborted, Inst.awaitingUnfreeze, unfrozenMcr_eq, hookedMask_eq hc]
    rfl
  | ready =>
    refine ⟨?_, programmed_rewritten hc hn hx rfl⟩
    rw [Inst.aborted, Inst.awaitingUnfreeze, unfrozenMcr_left, hookedMask_eq hc]
    rfl

/-- What poll `p` needs to stay silent: no acknowledge of the freeze stands, or the rewrite was reached (R285). -/
def SilentPoll.Premise (p : SilentPoll) (x : Inst) : Prop :=
  if p = .freeze then x.mcr.getLsbD 24 = false else x.enabled = true

/-- The poll that timed out would not have been answered by one more sample. -/
theorem aborted_silent (c : Config) (fs : List FilterReg) (hook : Bool) {x : Inst} {p : SilentPoll}
    (hp : p.Premise x) : holds (x.aborted c fs hook p).mcr p.mask p.target = false := by
  cases p with
  | freeze =>
    have hbit : x.mcr.getLsbD 24 = false := hp
    show (anySet (mcrWritten x.mcr (x.mcr ||| freezeBits)) frzackBit == true) = false
    rw [mcrWritten_freeze, anySet_frzackBit, BitVec.getLsbD_or, hbit]
    rfl
  | unfreeze =>
    show (anySet (unfrozenMcr x.mcr) frzackBit == false) = false
    rw [unfrozenMcr_eq, anySet_frzackBit]
    simp
  | ready =>
    show (anySet (unfrozenMcr x.mcr &&& ~~~frzackBit) notrdyBit == false) = false
    rw [unfrozenMcr_left, anySet_notrdyBit]
    simp

end Sys2Proof.Machine
end

section
/-! SUPPORT. FSEQ up to the timeout of one of its polls (R173, R285), for any command that runs it. -/

namespace Sys2Proof.Machine

section Abort

variable {wrap : FseqLabel → Phase} {i : Nat} {fs : List FilterReg} {hook : Bool}
  (C : FseqCtx wrap i fs hook) {s : State} {rest : List Move}

include C

/-- FSEQ to the first sample of `ack1:`: the freeze is requested (R272, R273). -/
theorem FseqCtx.request_run (hg : s.gim = false) (hi : i < s.insts.length) (f : Inst → Inst) :
    drive (fgs 3 ++ rest) (goto (s.modInst i f) (wrap .frz)) =
      drive rest (goto ((ptRestart s).modInst i fun x => (f x).aborted s.cfg fs hook .freeze)
        (wrap (.ack1 .sample))) := by
  have hread : fseqProgress (goto (s.modInst i f) (wrap .frz)) i fs .frz = .more (.frz2 (f (s.inst i)).mcr) := by
    rw [fseqProgress, regVal_modInst hi]
    rfl
  rw [show fgs 3 ++ rest = .fg :: .fg :: .fg :: rest from rfl, C.run hg f hread]
  show drive _ (goto (s.modInst i f) _) = _
  rw [C.run hg (l' := .ack1 .restart) f rfl]
  show drive _ (goto (((s.modInst i f).modInst i _).modInst i _) _) = _
  rw [modInst_modInst, modInst_modInst, C.run hg (l' := .ack1 .sample) _ rfl]
  show drive _ (goto ((ptRestart s).modInst i _) _) = _
  congr 2
  exact modInst_congr _ rfl

/-- From `ack2:` to the first sample of `rdy:` where FRZACK goes down and NOTRDY stays up (R283, R371). -/
theorem FseqCtx.leave_run (hg : s.gim = false) (hi : i < s.insts.length) (f : Inst → Inst)
    (hen : (f (s.inst i)).enabled = true) :
    drive (.env (.freezeLeave i false) :: fgs 2 ++ rest)
      (goto (s.modInst i fun x => (f x).awaitingUnfreeze s.cfg fs hook) (wrap (.ack2 .sample))) =
      drive rest (goto ((ptRestart s).modInst i fun x => (f x).aborted s.cfg fs hook .ready)
        (wrap (.rdy .sample))) := by
  have hleft : ((f (s.inst i)).awaitingUnfreeze s.cfg fs hook).freezeLeave false =
      (f (s.inst i)).aborted s.cfg fs hook .ready :=
    if_neg (by simp [awaitingUnfreeze_not_requested])
  have hmove : envMove (goto (s.modInst i fun x => (f x).awaitingUnfreeze s.cfg fs hook) (wrap (.ack2 .sample)))
      (.freezeLeave i false) =
      goto (s.modInst i fun x => (f x).aborted s.cfg fs hook .ready) (wrap (.ack2 .sample)) := by
    show goto ((s.modInst i _).modInst i _) _ = _
    rw [modInst_modInst]
    congr 1
    exact modInst_congr s ((if_pos hen).trans hleft)
  have hsample : fseqProgress (goto (s.modInst i fun x => (f x).aborted s.cfg fs hook .ready)
      (wrap (.ack2 .sample))) i fs (.ack2 .sample) = .more (.rdy .restart) := by
    have hdown : anySet (unfrozenMcr (f (s.inst i)).mcr &&& ~~~frzackBit) frzackBit = false := by
      rw [unfrozenMcr_left, anySet_frzackBit]
      simp
    simp only [fseqProgress, waitProgress_sample, sampleVal, regVal_modInst hi, Inst.reg, Inst.aborted, holds, hdown]
    rfl
  rw [show (.env (.freezeLeave i false) :: fgs 2 ++ rest : List Move) =
    .env (.freezeLeave i false) :: .fg :: .fg :: rest from rfl, drive_env (C.busy _), hmove, C.run hg _ hsample]
  show drive _ (goto (s.modInst i _) _) = _
  rw [C.run hg (l' := .rdy .sample) _ rfl]
  rfl

/-- FSEQ to the sample of the poll that will time out. -/
theorem FseqCtx.poll_run (hg : s.gim = false) (hi : i < s.insts.length) (f : Inst → Inst)
    (hmb : 0 < s.cfg.nMb) {p : SilentPoll} (hp : p.Premise (f (s.inst i))) :
    drive (abortMoves s.cfg i fs.length p ++ rest) (goto (s.modInst i f) (wrap .frz)) =
      drive (fgs 1 ++ timeoutMoves s.cfg ++ rest)
        (goto ((ptRestart s).modInst i fun x => (f x).aborted s.cfg fs hook p) (wrap (p.label .sample))) := by
  cases p with
  | freeze =>
    rw [abortMoves, show fgs 4 = fgs 3 ++ fgs 1 from rfl, List.append_assoc, List.append_assoc,
      C.request_run hg hi f, ← List.append_assoc]
    rfl
  | unfreeze =>
    rw [abortMoves, List.append_assoc, List.append_assoc, C.rewrite_run hg hi f hp hmb, ← List.append_assoc]
    rfl
  | ready =>
    rw [abortMoves, show fgs 3 = fgs 2 ++ fgs 1 from rfl, List.append_assoc, List.append_assoc,
      C.rewrite_run hg hi f hp hmb, ← List.cons_append, List.append_assoc]
    exact C.leave_run (s := ptRestart s) hg hi f hp

/-- FSEQ up to the timeout of poll `p`, which `fail` closes (R285). -/
theorem FseqCtx.abort_run (hg : s.gim = false) (hi : i < s.insts.length) (f : Inst → Inst) (hc : s.cfg.Legal)
    {p : SilentPoll} (hp : p.Premise (f (s.inst i))) {fail : State → State}
    (hfail : ∀ {t : State} {l : FseqLabel}, t.gim = false → t.phase = wrap l →
      fseqProgress t i fs l = .failure → fgMicro t = fail (fseqState t i fs hook l)) :
    drive (abortMoves s.cfg i fs.length p ++ rest) (goto (s.modInst i f) (wrap .frz)) =
      drive rest (fail (goto { (ptRestart s).modInst i fun x => (f x).aborted s.cfg fs hook p with
        ptVal := BitVec.ofNat 32 (0xFFFFFFFF - (s.cfg.pollDefaultTicks + 1)) } (wrap (p.label .deadline)))) := by
  have h2 := legal_two hc
  obtain ⟨-, -, -, -, -, -, -, hT, -⟩ := hc
  set u := (ptRestart s).modInst i fun x => (f x).aborted s.cfg fs hook p with hu
  have hsilent : holds (u.inst i).mcr p.mask p.target = false := by
    rw [hu, inst_modInst_same (ptRestart s) hi]
    exact aborted_silent _ _ _ hp
  set v := goto { u with ptVal := BitVec.ofNat 32 (0xFFFFFFFF - (s.cfg.pollDefaultTicks + 1)) }
    (wrap (p.label .deadline))
  obtain ⟨hfailure, hkeep⟩ := p.deadline_fails (q := v) i fs hook rfl hT
  rw [C.poll_run hg hi f (by omega) hp]
  refine (C.timeout_run (s := u) rfl hg rfl hT p hsilent).trans ?_
  rw [drive_fg (C.busy _)]
  refine congrArg (drive rest) ((hfail (t := v) hg rfl hfailure).trans ?_)
  rw [hkeep]

end Abort

end Sys2Proof.Machine
end

section
/-! SUPPORT. RECONFIG and START interface by interface (R290, R340): what stands after the FSEQs of the first ones, and
the timeout of a poll in the next one (R285, R291, R346). -/

namespace Sys2Proof.Machine

/-! ## Interfaces changed one after another -/

/-- Each interface `j < k` changed by `g j`. -/
def State.modBelow (s : State) (k : Nat) (g : Nat → Inst → Inst) : State :=
  { s with insts := s.insts.mapIdx fun j x => if j < k then g j x else x }

section ModBelow

variable (s : State) (k : Nat) (g : Nat → Inst → Inst)

theorem modBelow_zero : s.modBelow 0 g = s := by
  have hsame : s.insts.mapIdx (fun j x => if j < 0 then g j x else x) = s.insts :=
    List.ext_getElem (by simp) fun j _ _ => by simp
  rw [State.modBelow, hsame]

@[simp] theorem modBelow_insts_length : (s.modBelow k g).insts.length = s.insts.length := by
  simp [State.modBelow]

theorem modInst_modBelow : (s.modBelow k g).modInst k (g k) = s.modBelow (k + 1) g := by
  simp only [State.modBelow, State.modInst, State.mk.injEq, true_and, and_true]
  refine List.ext_getElem (by simp) fun j hj hj' => ?_
  simp only [List.getElem_modify, List.getElem_mapIdx]
  rcases Nat.lt_trichotomy j k with h | rfl | h
  · rw [if_neg (by omega), if_pos h, if_pos (by omega)]
  · simp
  · rw [if_neg (by omega), if_neg (by omega), if_neg (by omega)]

theorem modBelow_inst_ge {i : Nat} (h : k ≤ i) : (s.modBelow k g).inst i = s.inst i := by
  have hnot : ¬ i < k := by omega
  by_cases hi : i < s.insts.length
  · simp [State.inst, State.modBelow, List.getD_eq_getElem?_getD, hi, hnot]
  · rw [inst_absent s (by omega), inst_absent _ (by simpa using hi)]

theorem modBelow_inst_lt {i : Nat} (h : i < k) (hi : i < s.insts.length) :
    (s.modBelow k g).inst i = g i (s.inst i) := by
  simp [State.inst, State.modBelow, List.getD_eq_getElem?_getD, hi, h]

end ModBelow

/-- The interfaces below `k` have been through FSEQ, `g j` being what became of interface `j`; the polls of FSEQ restart
the poll timer, where there was one (R173). -/
def State.fseqDone (s : State) (g : Nat → Inst → Inst) : Nat → State
  | 0 => s
  | k + 1 => (ptRestart s).modBelow (k + 1) g

section FseqDone

variable (s : State) (g : Nat → Inst → Inst) (k : Nat)

@[simp] theorem fseqDone_fields : (s.fseqDone g k).cfg = s.cfg ∧ (s.fseqDone g k).gim = s.gim ∧
    (s.fseqDone g k).insts.length = s.insts.length := by
  cases k <;> simp [State.fseqDone, State.modBelow]

theorem fseqDone_inst_ge {i : Nat} (h : k ≤ i) : (s.fseqDone g k).inst i = s.inst i := by
  cases k with
  | zero => rfl
  | succ k => exact modBelow_inst_ge (ptRestart s) (k + 1) g h

theorem ptRestart_fseqDone : ptRestart (s.fseqDone g k) = (ptRestart s).modBelow k g := by
  cases k with
  | zero => exact (modBelow_zero _ g).symm
  | succ k => rfl

theorem fseqDone_of_pos (hk : 0 < k) : s.fseqDone g k = (ptRestart s).modBelow k g := by
  obtain ⟨k, rfl⟩ : ∃ j, k = j + 1 := ⟨k - 1, by omega⟩
  rfl

/-- One more interface is done once its FSEQ has restarted the timer. -/
theorem modInst_fseqDone : (ptRestart (s.fseqDone g k)).modInst k (g k) = s.fseqDone g (k + 1) := by
  rw [ptRestart_fseqDone, modInst_modBelow]
  rfl

end FseqDone

/-- A loop over interfaces, its moves for interface `j` leading from `p j` to `p (j + 1)`. -/
theorem drive_flatMap_range {moves : Nat → List Move} {p : Nat → State} : ∀ k,
    (∀ j, j < k → ∀ rest, drive (moves j ++ rest) (p j) = drive rest (p (j + 1))) →
    ∀ rest, drive ((List.range k).flatMap moves ++ rest) (p 0) = drive rest (p k)
  | 0, _, _ => rfl
  | k + 1, h, rest => by
    rw [List.range_succ, List.flatMap_append, List.append_assoc,
      drive_flatMap_range k (fun j hj => h j (by omega)), List.flatMap_singleton, h k (by omega)]

theorem latched_length {s : State} (h : s.Wf) {n : Nat} (hn : n ≤ s.cfg.fCap) : (s.flt.take n).length = n := by
  rw [List.length_take, h.fltCount, Nat.min_eq_left hn]

theorem State.Wf.ram_wf {s : State} (h : s.Wf) {i : Nat} (hi : i < s.cfg.nIf) : (s.inst i).ram.wf = true :=
  (h.instAt hi).canonical

/-! ## RECONFIG -/

/-- RECONFIG at the FSEQ of interface `i`, or at its return past the last one (R290). -/
def reconfigNext (n : Nat) (fs : List FilterReg) (i : Nat) (s : State) : State :=
  if i < s.cfg.nIf then goto s (.reconfig n fs (.seq i .frz)) else ret s .success

section Reconfig

variable {s : State} {n i : Nat} {fs : List FilterReg} {l : FseqLabel}

/-- FG's micro-step inside RECONFIG. -/
theorem fgMicro_reconfig (hg : s.gim = false) {l : ReconfigLabel} (hp : s.phase = .reconfig n fs l) :
    fgMicro s = reconfigStep s n fs l := by
  simp [fgMicro, hg, hp]

theorem reconfig_chk (hg : s.gim = false) (hl : s.groupLive = true) (hn : n ≤ s.cfg.fCap) :
    fgMicro (goto s (.reconfig n fs .chk)) = reconfigNext n fs 0 s := by
  refine (fgMicro_reconfig (s := goto s (.reconfig n fs .chk)) hg rfl).trans ?_
  simp only [reconfigStep, goto_fields, hl, Bool.not_true, Bool.false_eq_true, if_false, if_neg (Nat.not_lt.mpr hn)]
  rfl

theorem reconfig_fseq_success (hg : s.gim = false) (hp : s.phase = .reconfig n fs (.seq i l))
    (h : fseqProgress s i fs l = .success) :
    fgMicro s = reconfigNext n fs (i + 1) (fseqState s i fs false l) := by
  simp [fgMicro_reconfig hg hp, reconfigStep, h, reconfigNext, fseqState_cfg]

theorem reconfig_fseq_failure (hg : s.gim = false) (hp : s.phase = .reconfig n fs (.seq i l))
    (h : fseqProgress s i fs l = .failure) :
    fgMicro s = ret (fseqState s i fs false l) .failure := by
  simp [fgMicro_reconfig hg hp, reconfigStep, h]

/-- RECONFIG from its issue to the FSEQ of interface `k`, or past the last one (R290). -/
theorem exec_reconfig_upTo (hwf : s.Wf) (hr : s.Ready) (hl : s.groupLive = true) (hn : n ≤ s.cfg.fCap) {k : Nat}
    (hk : k ≤ s.cfg.nIf) (hen : ∀ i, i < k → (s.inst i).enabled = true) {rest : List Move}
    (ha : s.agenda = reconfigUpTo s.cfg n k ++ rest) :
    exec (.reconfig n) s = .next (drive rest (reconfigNext n (s.flt.take n) k
      (s.fseqDone (fun _ => Inst.refiltered s.cfg (s.flt.take n) false) k))) := by
  set fs := s.flt.take n with hfs
  set g : Nat → Inst → Inst := fun _ => Inst.refiltered s.cfg fs false
  have hlen : fs.length = n := latched_length hwf hn
  have hmb := legal_two hwf.legal
  have hstep : ∀ j, j < k → ∀ rest, drive (fseqMoves s.cfg j n ++ rest) (reconfigNext n fs j (s.fseqDone g j)) =
      drive rest (reconfigNext n fs (j + 1) (s.fseqDone g (j + 1))) := by
    intro j hj rest
    obtain ⟨hcfg, hgim, hinsts⟩ := fseqDone_fields s g j
    have hwhole := (reconfigCtx n fs j).whole_run (s := s.fseqDone g j) (rest := rest) (hgim.trans hr.2)
      (by rw [hinsts]; exact hwf.inst_lt (by omega)) (fun x => x)
      (by rw [fseqDone_inst_ge s g j (Nat.le_refl j)]; exact hen j hj) (by rw [hcfg]; omega) reconfig_fseq_success
    rw [modInst_id, hcfg, hlen, modInst_fseqDone s g j] at hwhole
    rw [reconfigNext, hcfg, if_pos (by omega)]
    exact hwhole
  show Host.Outcome.next (issue s (.reconfig n fs .chk)) = _
  rw [issue_ready hr, ha, reconfigUpTo, List.append_assoc]
  show Host.Outcome.next (drive (.fg :: _) _) = _
  rw [drive_fg (by simp), reconfig_chk hr.2 hl hn]
  exact congrArg _ (drive_flatMap_range (p := fun j => reconfigNext n fs j (s.fseqDone g j)) k hstep rest)

end Reconfig

/-- Settles O51: RECONFIG is the FSEQs of all interfaces in order, each of which reprograms its own. -/
theorem reconfigRewritesEveryInterface : Obligations.ReconfigRewritesEveryInterface := by
  intro s n rest hwf hr hl hn hen ha
  set g : Nat → Inst → Inst := fun _ => Inst.refiltered s.cfg (s.flt.take n) false
  have hrun := exec_reconfig_upTo hwf hr hl hn (Nat.le_refl _) hen ha
  rw [reconfigNext, (fseqDone_fields s g _).1, if_neg (Nat.lt_irrefl _), drive_idle rfl,
    fseqDone_of_pos s g _ hwf.legal.1] at hrun
  refine ⟨_, hrun, ?_, modBelow_insts_length .., fun i hi => ?_⟩
  · congr 1
    exact hr.1.symm
  · have hinst := modBelow_inst_lt (ptRestart s) s.cfg.nIf g hi (hwf.inst_lt hi)
    have hdone := refiltered_refiltered hwf.legal (fs := s.flt.take n) (by rw [latched_length hwf hn]; exact hn)
      false (hwf.ram_wf hi)
    exact (congrArg (Refiltered _ _ _ _) hinst).mpr hdone

end Sys2Proof.Machine
end

section
/-! SUPPORT. START's group bring-up interface by interface (R340, R342, R344), and a poll of FSEQ that times out in it
or in RECONFIG (R285, R291, R346). -/

namespace Sys2Proof.Machine

/-! ## START -/

/-- START at the bring-up of interface `i`, or at `live:` past the last one (R340). -/
def startNext (n : Nat) (fs : List FilterReg) (i : Nat) (s : State) : State := goto s (.start n fs (startLoop s i))

/-- Every interface restarted (R341), the clock chain running, the poll timer as CLOCK_BRINGUP left it (R342). -/
def State.clocked (s : State) (pt : Option Word) : State :=
  loadClock (ptPolled { s with insts := s.insts.map Inst.restarted } pt) true

/-- An interface brought up and through FSEQ (R344, R345). -/
def Inst.started (c : Config) (fs : List FilterReg) (r : UpRegs) (x : Inst) : Inst :=
  (x.broughtUp r).refiltered c fs true

/-- The interfaces as CLOCK_BRINGUP leaves them: restarted (R341). -/
theorem clocked_inst (s : State) (pt : Option Word) (i : Nat) : (s.clocked pt).inst i = (s.inst i).restarted :=
  inst_restarted s i

theorem clocked_insts_length (s : State) (pt : Option Word) : (s.clocked pt).insts.length = s.insts.length :=
  List.length_map _

/-- What START makes of an interface before its FSEQ (R341, R344). -/
theorem clocked_broughtUp (s : State) (pt : Option Word) (i : Nat) (r : UpRegs) :
    ((s.clocked pt).inst i).broughtUp r = afterBringup r (s.inst i) := by
  rw [clocked_inst]
  rfl

section Start

variable {s : State} {n i : Nat} {fs : List FilterReg} {l : FseqLabel} {rest : List Move}

/-- FG's micro-step inside START. -/
theorem fgMicro_start (hg : s.gim = false) {l : StartLabel} (hp : s.phase = .start n fs l) :
    fgMicro s = startStep s n fs l := by
  simp [fgMicro, hg, hp]

theorem start_fseq_success (hg : s.gim = false) (hp : s.phase = .start n fs (.fp i l))
    (h : fseqProgress s i fs l = .success) :
    fgMicro s = startNext n fs (i + 1) (fseqState s i fs true l) := by
  simp [fgMicro_start hg hp, startStep, h, startNext, startLoop, fseqState_cfg]

theorem start_fseq_failure (hg : s.gim = false) (hp : s.phase = .start n fs (.fp i l))
    (h : fseqProgress s i fs l = .failure) :
    fgMicro s = retHandle (fseqState s i fs true l) .failure false := by
  simp [fgMicro_start hg hp, startStep, h]

/-- INSTANCE_BRINGUP of interface `i` returns Ok (R344). -/
theorem start_bringup_ok (hg : s.gim = false) (hi : i < s.cfg.nIf) (r : UpRegs) (pt : Option Word) :
    drive (.instBringup (.ok r) pt :: rest) (startNext n fs i s) =
      drive rest (goto ((ptPolled s pt).modInst i fun x => x.broughtUp r) (.start n fs (.fp i .frz))) := by
  have hat : startNext n fs i s = goto s (.start n fs (.up i)) := by rw [startNext, startLoop, if_pos hi]
  have hmove : applyMove (.instBringup (.ok r) pt) (goto s (.start n fs (.up i))) =
      goto ((ptPolled s pt).modInst i fun x => x.broughtUp r) (.start n fs (.fp i .frz)) := by
    simp only [applyMove, instBringup, goto_fields, hg, Bool.false_eq_true, if_false]
    rfl
  rw [hat, drive_cons (by simp), hmove]

/-- START from its issue to the bring-up of interface 0, or past the last one (R340 to R343). -/
theorem start_clocked (hr : s.Ready) (hl : s.groupLive = false) (hn : n ≤ s.cfg.fCap) (pt : Option Word) :
    drive (fgs 2 ++ .clockBringup true pt :: fgs 1 ++ rest) (goto s (.start n fs .chk)) =
      drive rest (startNext n fs 0 (s.clocked pt)) := by
  set u : State := { s with insts := s.insts.map Inst.restarted }
  have hchk : fgMicro (goto s (.start n fs .chk)) = goto s (.start n fs .rst) := by
    refine (fgMicro_start (s := goto s (.start n fs .chk)) hr.2 rfl).trans ?_
    simp only [startStep, goto_fields, hl, Bool.false_eq_true, if_false, if_neg (Nat.not_lt.mpr hn)]
    rfl
  have hrst : fgMicro (goto s (.start n fs .rst)) = goto u (.start n fs .clk) :=
    fgMicro_start (s := goto s (.start n fs .rst)) hr.2 rfl
  have hclk : applyMove (.clockBringup true pt) (goto u (.start n fs .clk)) =
      goto (ptPolled u pt) (.start n fs .tmr) := if_neg (by simp [u, hr.2])
  have htmr : fgMicro (goto (ptPolled u pt) (.start n fs .tmr)) = startNext n fs 0 (s.clocked pt) :=
    fgMicro_start (s := goto (ptPolled u pt) (.start n fs .tmr)) hr.2 rfl
  show drive (.fg :: .fg :: .clockBringup true pt :: .fg :: rest) _ = _
  rw [drive_fg (by simp), hchk, drive_fg (by simp), hrst, drive_cons (by simp), hclk, drive_fg (by simp), htmr]

/-- START from its issue to the bring-up of interface `k`, or past the last one (R340). -/
theorem exec_start_upTo (hwf : s.Wf) (hr : s.Ready) (hl : s.groupLive = false) (hn : n ≤ s.cfg.fCap) {k : Nat}
    (hk : k ≤ s.cfg.nIf) {up : Nat → UpRegs} {pt : Option Word}
    (ha : s.agenda = startUpTo s.cfg n up pt k ++ rest) :
    exec (.start n) s = .next (drive rest (startNext n (s.flt.take n) k
      ((s.clocked pt).fseqDone (fun i => Inst.started s.cfg (s.flt.take n) (up i)) k))) := by
  set fs := s.flt.take n with hfs
  set u := s.clocked pt with hu
  set g : Nat → Inst → Inst := fun i => Inst.started s.cfg fs (up i)
  have hlen : fs.length = n := latched_length hwf hn
  have hmb := legal_two hwf.legal
  have hstep : ∀ j, j < k → ∀ rest, drive ((.instBringup (.ok (up j)) pt :: fseqMoves s.cfg j n) ++ rest)
      (startNext n fs j (u.fseqDone g j)) = drive rest (startNext n fs (j + 1) (u.fseqDone g (j + 1))) := by
    intro j hj rest
    obtain ⟨hcfg, hgim, hinsts⟩ := fseqDone_fields u g j
    have hj' : j < (u.fseqDone g j).insts.length := by
      rw [hinsts, hu, clocked_insts_length]
      exact hwf.inst_lt (Nat.lt_of_lt_of_le hj hk)
    have hwhole := (startCtx n fs j).whole_run (s := ptPolled (u.fseqDone g j) pt) (rest := rest)
      (hgim.trans hr.2) hj' (fun x => x.broughtUp (up j)) rfl (by simp [hu, State.clocked]; omega)
      start_fseq_success
    have hcfg' : (ptPolled (u.fseqDone g j) pt).cfg = s.cfg := hcfg
    rw [hcfg', hlen] at hwhole
    rw [List.cons_append, start_bringup_ok (hgim.trans hr.2) (by rw [hcfg]; exact Nat.lt_of_lt_of_le hj hk), hwhole,
      ← modInst_fseqDone u g j]
    rfl
  show Host.Outcome.next (issue s (.start n fs .chk)) = _
  rw [issue_ready hr, ha, startUpTo, List.append_assoc, start_clocked hr hl hn]
  exact congrArg _ (drive_flatMap_range (p := fun j => startNext n fs j (u.fseqDone g j)) k hstep rest)

end Start

/-! ## A timeout inside the loop -/

/-- The interfaces of `t`, where `k` was changed by `h` and those below it by `g`. -/
theorem modBelow_modInst_inst {s t : State} {g : Nat → Inst → Inst} {h : Inst → Inst} {k : Nat}
    (ht : t.insts = ((s.modBelow k g).modInst k h).insts) (hk : k < s.insts.length) :
    t.insts.length = s.insts.length ∧ (∀ i, i < k → t.inst i = g i (s.inst i)) ∧ t.inst k = h (s.inst k) ∧
      ∀ i, k < i → t.inst i = s.inst i := by
  have hinst := inst_congr ht
  refine ⟨by simp [ht], fun i hi => ?_, ?_, fun i hi => ?_⟩
  · rw [hinst, inst_modInst_ne _ (by omega), modBelow_inst_lt s k g hi (by omega)]
  · rw [hinst, inst_modInst_same _ (by simpa using hk), modBelow_inst_ge s k g (Nat.le_refl k)]
  · rw [hinst, inst_modInst_ne _ (by omega), modBelow_inst_ge s k g (by omega)]

section Abort

variable {s : State} {n k : Nat} {fs : List FilterReg} {p : SilentPoll} {rest : List Move}

/-- RECONFIG from the FSEQ of interface `k`, a poll of which times out, to its return (R285, R291). -/
theorem reconfig_abort_run (hg : s.gim = false) (hc : s.cfg.Legal) (hk : k < s.cfg.nIf) (hk' : k < s.insts.length)
    (hp : p.Premise (s.inst k)) :
    drive (abortMoves s.cfg k fs.length p ++ rest) (reconfigNext n fs k s) =
      { ret { (ptRestart s).modInst k fun x => x.aborted s.cfg fs false p with
          ptVal := BitVec.ofNat 32 (0xFFFFFFFF - (s.cfg.pollDefaultTicks + 1)) } .failure with agenda := rest } := by
  have hrun := (reconfigCtx n fs k).abort_run (rest := rest) hg hk' (fun x => x) hc hp
    (fail := fun t => ret t .failure) reconfig_fseq_failure
  rw [modInst_id] at hrun
  rw [reconfigNext, if_pos hk]
  exact hrun.trans (drive_idle rfl rest)

/-- START from the bring-up of interface `k`, a poll of whose FSEQ times out, to its return (R285, R346). -/
theorem start_abort_run (hg : s.gim = false) (hc : s.cfg.Legal) (hk : k < s.cfg.nIf) (hk' : k < s.insts.length)
    (r : UpRegs) (pt : Option Word) (hp : p.Premise ((s.inst k).broughtUp r)) :
    drive (.instBringup (.ok r) pt :: (abortMoves s.cfg k fs.length p ++ rest)) (startNext n fs k s) =
      { retHandle { (ptRestart s).modInst k fun x => (x.broughtUp r).aborted s.cfg fs true p with
          ptVal := BitVec.ofNat 32 (0xFFFFFFFF - (s.cfg.pollDefaultTicks + 1)) } .failure false with
        agenda := rest } := by
  have hrun := (startCtx n fs k).abort_run (s := ptPolled s pt) (rest := rest) hg hk' (fun x => x.broughtUp r) hc hp
    (fail := fun t => retHandle t .failure false) start_fseq_failure
  rw [start_bringup_ok hg hk]
  exact hrun.trans (drive_idle rfl rest)

/-- A bring-up leaves the clock on, and FRZACK as the move gave it (R344; log 11). -/
theorem broughtUp_premise (x : Inst) {r : UpRegs} (h : p = .freeze → r.mcr.getLsbD 24 = false) :
    p.Premise (x.broughtUp r) := by
  rw [SilentPoll.Premise]
  split
  · next hp =>
    show (mcrBroughtUp r.mcr).getLsbD 24 = false
    rw [mcrBroughtUp, BitVec.getLsbD_or, BitVec.getLsbD_and, h hp]
    rfl
  · rfl

/-- RECONFIG ended by the timeout of poll `p` on interface `k` (R285, R291). -/
theorem exec_reconfig_abort (hwf : s.Wf) (hr : s.Ready) (hl : s.groupLive = true) (hn : n ≤ s.cfg.fCap)
    (hk : k < s.cfg.nIf) (hen : ∀ i, i < k → (s.inst i).enabled = true) (hp : p.Premise (s.inst k))
    (ha : s.agenda = reconfigUpTo s.cfg n k ++ abortMoves s.cfg k n p ++ rest) :
    ∃ t, exec (.reconfig n) s = .next t ∧
      t = { s with
        agenda := rest, outcome := .failure, ptRun := true
        ptVal := BitVec.ofNat 32 (0xFFFFFFFF - (s.cfg.pollDefaultTicks + 1)), insts := t.insts } ∧
      t.insts = ((s.modBelow k fun _ => Inst.refiltered s.cfg (s.flt.take n) false).modInst k fun x =>
        x.aborted s.cfg (s.flt.take n) false p).insts := by
  set g : Nat → Inst → Inst := fun _ => Inst.refiltered s.cfg (s.flt.take n) false
  obtain ⟨hcfg, hgim, hinsts⟩ := fseqDone_fields s g k
  have habort := reconfig_abort_run (s := s.fseqDone g k) (n := n) (fs := s.flt.take n) (rest := rest)
    (hgim.trans hr.2) (by rw [hcfg]; exact hwf.legal) (by rw [hcfg]; exact hk) (by rw [hinsts]; exact hwf.inst_lt hk)
    (p := p) (by rw [fseqDone_inst_ge s g k (Nat.le_refl k)]; exact hp)
  rw [hcfg, latched_length hwf hn, ptRestart_fseqDone] at habort
  rw [exec_reconfig_upTo hwf hr hl hn (Nat.le_of_lt hk) hen (by rw [ha, List.append_assoc]), habort]
  exact ⟨_, rfl, by simp only [ret, State.modInst, State.modBelow, ptRestart, hr.1], rfl⟩

/-- START ended by the timeout of poll `p` on interface `k` (R285, R346). -/
theorem exec_start_abort (hwf : s.Wf) (hr : s.Ready) (hl : s.groupLive = false) (hn : n ≤ s.cfg.fCap)
    (hk : k < s.cfg.nIf) {up : Nat → UpRegs} {pt : Option Word} (hp : p = .freeze → (up k).mcr.getLsbD 24 = false)
    (ha : s.agenda = startUpTo s.cfg n up pt k ++ .instBringup (.ok (up k)) pt :: (abortMoves s.cfg k n p ++ rest)) :
    ∃ t, exec (.start n) s = .next t ∧
      t = { s with
        agenda := rest, outcome := .failure, ptRun := true
        ptVal := BitVec.ofNat 32 (0xFFFFFFFF - (s.cfg.pollDefaultTicks + 1))
        clkLo := 0xFFFFFFFF#32, clkHi := 0xFFFFFFFF#32, clkRun := true, insts := t.insts } ∧
      t.insts = (((s.clocked pt).modBelow k fun i => Inst.started s.cfg (s.flt.take n) (up i)).modInst k fun x =>
        (x.broughtUp (up k)).aborted s.cfg (s.flt.take n) true p).insts := by
  set u := s.clocked pt with hu
  set g : Nat → Inst → Inst := fun i => Inst.started s.cfg (s.flt.take n) (up i)
  obtain ⟨hcfg, hgim, hinsts⟩ := fseqDone_fields u g k
  have hcfg' : (u.fseqDone g k).cfg = s.cfg := hcfg
  have habort := start_abort_run (s := u.fseqDone g k) (n := n) (fs := s.flt.take n) (rest := rest)
    (hgim.trans hr.2) (by rw [hcfg']; exact hwf.legal) (by rw [hcfg']; exact hk)
    (by rw [hinsts, hu, clocked_insts_length]; exact hwf.inst_lt hk) (up k) pt (p := p) (broughtUp_premise _ hp)
  rw [hcfg', latched_length hwf hn, ptRestart_fseqDone] at habort
  rw [exec_start_upTo hwf hr hl hn (Nat.le_of_lt hk) ha, habort]
  refine ⟨_, rfl, ?_, rfl⟩
  simp only [retHandle, ret, State.modInst, State.modBelow, ptRestart, hu, State.clocked, loadClock, ptPolled,
    hr.1, hwf.handleLive, hl]

end Abort

/-- Settles O52: the FSEQs below interface `k` are whole, and that of `k` ends at the timed-out poll. -/
theorem freezeTimeoutAborts : Obligations.FreezeTimeoutAborts := by
  intro s n k p rest hwf hr hn hk
  have hcap : (s.flt.take n).length ≤ s.cfg.fCap := by rw [latched_length hwf hn]; exact hn
  have hrefiltered := fun hook {x : Inst} => refiltered_refiltered hwf.legal hcap hook (x := x)
  have haborted := fun hook {x : Inst} hx => aborted_aborted hwf.legal hcap hook (x := x) hx p
  have hram : ∀ {i}, i ≤ k → (s.inst i).ram.wf = true := fun hi => hwf.ram_wf (by omega)
  refine ⟨fun hl hen hp ha => ?_, fun hl up pt hp ha => ?_⟩
  · obtain ⟨t, hexec, hfields, hinsts⟩ := exec_reconfig_abort hwf hr hl hn hk hen hp ha
    obtain ⟨hlength, hbelow, hat, habove⟩ := modBelow_modInst_inst hinsts (hwf.inst_lt hk)
    refine ⟨t, hexec, hfields, hlength, fun i hi => ?_, ?_, habove⟩
    · rw [hbelow i hi]
      exact hrefiltered false (hram (Nat.le_of_lt hi))
    · rw [hat]
      exact haborted false (hram (Nat.le_refl k))
  · obtain ⟨t, hexec, hfields, hinsts⟩ := exec_start_abort hwf hr hl hn hk hp ha
    have hlen := clocked_insts_length s pt
    obtain ⟨hlength, hbelow, hat, habove⟩ := modBelow_modInst_inst hinsts (by rw [hlen]; exact hwf.inst_lt hk)
    refine ⟨t, hexec, hfields, hlength.trans hlen, fun i hi => ?_, ?_, fun i hi _ => ?_⟩
    · rw [hbelow i hi, Inst.started, clocked_broughtUp]
      exact hrefiltered true (hram (Nat.le_of_lt hi))
    · rw [hat, clocked_broughtUp]
      exact haborted true (hram (Nat.le_refl k))
    · rw [habove i hi, clocked_inst]
      rfl

end Sys2Proof.Machine
end

section
/-! SUPPORT. What a foreground run of RECONFIG and of START leaves as it was (R272, R286, R290, R340, R344): kept by
every micro-step and every return of a collaborator, and so by a run. -/

namespace Sys2Proof.Machine

/-! ## Runs -/

/-- What holds at a command's first phase and every move of the agenda keeps, whatever is left of the agenda, holds
when the command stops. -/
theorem drive_keeps {P : State → Prop} (hagenda : ∀ {t} a, P t → P (t.withAgenda a)) :
    ∀ (ms : List Move) {s : State}, (∀ m ∈ ms, ∀ {t}, P t → P (applyMove m t)) → P s → P (drive ms s)
  | [], _, _, hs => hagenda [] hs
  | m :: ms, s, hmove, hs => by
    rw [drive]
    split
    · exact hagenda (m :: ms) hs
    · exact drive_keeps hagenda ms (fun m' hm' => hmove m' (List.mem_cons_of_mem m hm'))
        (hmove m List.mem_cons_self hs)

/-- A command that is not taken changes nothing; one that is taken runs over the agenda (R31, R98). -/
theorem issue_cases (s : State) (p : Phase) : issue s p = s ∨ issue s p = drive s.agenda (goto s p) := by
  unfold issue
  split
  · exact .inr rfl
  · exact .inl rfl

/-! ## Words outside the map -/

theorem load_of_not_mem {m : Memory} {a : Nat} (h : ∀ p ∈ m, p.1 ≠ a) : m.load a = unlistedWord := by
  induction m with
  | nil => rfl
  | cons p m ih =>
    obtain ⟨hne, hrest⟩ := List.forall_mem_cons.mp h
    rw [Memory.load, if_neg (Ne.symm hne), ih hrest]

/-- A well-formed state stores nothing outside the map (R90). -/
theorem State.Wf.load_unstored {s : State} (h : s.Wf) (j : Nat) {a : Nat} (ha : ¬ Stored s.cfg a) :
    (s.inst j).ram.load a = unlistedWord := by
  by_cases hj : j < s.insts.length
  · exact load_of_not_mem fun p hp hpa => ha (hpa ▸ (h.instWf _ (inst_mem s hj)).mapped p hp)
  · rw [inst_absent s (by omega)]
    rfl

/-! ## FSEQ -/

/-- The MCR value read one micro-step before is still the one there (R272 `frz2:`, `unf2:`). -/
def FseqLabel.Latched (x : Inst) : FseqLabel → Prop
  | .frz2 v | .unf2 v => v = x.mcr
  | .frz | .ack1 _ | .zmb _ | .zim _ | .fm _ | .fc _ | .fi _ | .lst | .hk | .unf | .ack2 _ | .rdy _ => True

/-- `y` is `x` but for what FSEQ changes of an interface: the freeze request bits (where `latched` says that the MCR
value written is the one that stood there), RXIMR and mailbox words, FP_STATE, LASTF, and IMASK at the hook. -/
structure Inst.FseqFrame (hook : Bool) (latched : Prop) (x y : Inst) : Prop where
  fields : y = { x with
    mcr := y.mcr, imask := if hook then y.imask else x.imask, ram := y.ram, fpState := y.fpState, lastf := y.lastf }
  mcr : latched → y.mcr &&& ~~~0x50000000#32 = x.mcr &&& ~~~0x50000000#32

theorem Inst.FseqFrame.refl (hook : Bool) (latched : Prop) (x : Inst) : FseqFrame hook latched x x :=
  ⟨by cases hook <;> rfl, fun _ => rfl⟩

/-- A change of what FSEQ may change, MCR apart. -/
theorem Inst.FseqFrame.of_mcr {hook : Bool} {latched : Prop} {x y : Inst}
    (hfields : y = { x with ram := y.ram, fpState := y.fpState, lastf := y.lastf }) :
    FseqFrame hook latched x y := by
  rw [hfields]
  exact ⟨by cases hook <;> rfl, fun _ => rfl⟩

theorem fseqFrame_modInst {hook : Bool} {latched : Prop} {s : State} {i : Nat} {f : Inst → Inst}
    (hf : Inst.FseqFrame hook latched (s.inst i) (f (s.inst i))) (j : Nat) :
    Inst.FseqFrame hook latched (s.inst j) ((s.modInst i f).inst j) := by
  rcases inst_modInst_cases s i f j with h | ⟨rfl, h⟩ <;> rw [h]
  · exact .refl ..
  · exact hf

@[simp] theorem waitState_inst (s : State) (w : WaitLabel) (j : Nat) : (waitState s w).inst j = s.inst j := by
  cases w <;> rfl

theorem setFpState_regWrite (s : State) (i : Nat) (r : WriteReg) (v : Word) (p : FpState) :
    setFpState (regWrite s i r v) i p = s.modInst i fun x => { x.regWritten s.cfg r v with fpState := p } :=
  modInst_modInst ..

theorem fseqState_frame (s : State) (i : Nat) (fs : List FilterReg) (hook : Bool) (l : FseqLabel) (j : Nat) :
    Inst.FseqFrame hook (l.Latched (s.inst i)) (s.inst j) ((fseqState s i fs hook l).inst j) := by
  have hwait : ∀ w latched, Inst.FseqFrame hook latched (s.inst j) ((waitState s w).inst j) := fun w _ => by
    rw [waitState_inst]
    exact .refl ..
  have hplain : ∀ {f : Inst → Inst} latched, (∀ x, f x = { x with
      ram := (f x).ram, fpState := (f x).fpState, lastf := (f x).lastf }) →
      Inst.FseqFrame hook latched (s.inst j) ((s.modInst i f).inst j) := fun _ hf =>
    fseqFrame_modInst (.of_mcr (hf _)) j
  cases l with
  | frz | unf => exact .refl ..
  | frz2 v =>
    rw [fseqState, setFpState_regWrite]
    refine fseqFrame_modInst ⟨by cases hook <;> rfl, ?_⟩ j
    rintro rfl
    show mcrWritten _ (_ ||| freezeBits) &&& _ = _
    rw [mcrWritten_freeze, BitVec.and_or_distrib_right, BitVec.and_not_self]
    exact BitVec.or_zero
  | unf2 v =>
    rw [fseqState, setFpState_regWrite]
    refine fseqFrame_modInst ⟨by cases hook <;> rfl, ?_⟩ j
    rintro rfl
    show mcrWritten _ (_ &&& ~~~freezeBits) &&& _ = _
    rw [mcrWritten_unfreeze, BitVec.and_assoc, BitVec.and_self]
  | zmb a | zim m | fm k | fc k | fi k | lst => exact hplain _ fun _ => rfl
  | hk =>
    cases hook with
    | false => exact .refl ..
    | true => exact fseqFrame_modInst ⟨rfl, fun _ => rfl⟩ j
  | ack1 w | rdy w =>
    simp only [fseqState]
    split
    · exact hplain _ fun _ => rfl
    · exact hwait w _
  | ack2 w => exact hwait w _

/-- FSEQ latches MCR only where it reads it. -/
theorem fseqProgress_latched {s : State} {i : Nat} {fs : List FilterReg} {l l' : FseqLabel} (hook : Bool)
    (h : fseqProgress s i fs l = .more l') : l'.Latched ((fseqState s i fs hook l).inst i) := by
  cases l with
  | frz | unf =>
    cases h
    rfl
  | frz2 | fm | fc | lst | hk | unf2 =>
    cases h
    trivial
  | zmb | fi =>
    cases h
    split <;> trivial
  | zim =>
    cases h
    unfold afterMasks
    split
    · trivial
    · split <;> trivial
  | ack1 | ack2 | rdy =>
    simp only [fseqProgress] at h
    split at h <;> cases h <;> trivial

end Sys2Proof.Machine
end

section
/-! SUPPORT. The frames of RECONFIG and START over a foreground run (R286, R290, R340, R344). -/

namespace Sys2Proof.Machine

/-! ## RECONFIG -/

/-- A state without what RECONFIG may change outside the interfaces. -/
def State.reconfigKept (s : State) : State :=
  { s with agenda := [], phase := .idle, outcome := .noneYet, ptVal := 0, ptRun := false, insts := [] }

theorem eq_of_reconfigKept {s t : State} (h : t.reconfigKept = s.reconfigKept) : t = { s with
    agenda := t.agenda, phase := t.phase, outcome := t.outcome, ptVal := t.ptVal, ptRun := t.ptRun,
    insts := t.insts } := by
  simp only [State.reconfigKept, State.mk.injEq, true_and] at h
  cases t
  simpa using h

theorem waitState_reconfigKept (s : State) (w : WaitLabel) :
    (waitState s w).reconfigKept = s.reconfigKept ∧ (waitState s w).phase = s.phase := by
  cases w <;> exact ⟨rfl, rfl⟩

theorem fseqState_reconfigKept (s : State) (i : Nat) (fs : List FilterReg) (hook : Bool) (l : FseqLabel) :
    (fseqState s i fs hook l).reconfigKept = s.reconfigKept ∧ (fseqState s i fs hook l).phase = s.phase := by
  cases l with
  | ack1 w | rdy w =>
    simp only [fseqState]
    split
    · exact ⟨rfl, rfl⟩
    · exact waitState_reconfigKept s w
  | ack2 w => exact waitState_reconfigKept s w
  | hk => cases hook <;> exact ⟨rfl, rfl⟩
  | _ => exact ⟨rfl, rfl⟩

/-- `t` differs from `s` only in what RECONFIG may change. -/
structure ReconfigFrame (s t : State) : Prop where
  kept : t.reconfigKept = s.reconfigKept
  inst : ∀ j, Inst.FseqFrame false True (s.inst j) (t.inst j)

/-- FG is at IDLE or in RECONFIG, where an MCR value latched is the one there. -/
def State.InReconfig (t : State) : Prop :=
  t.phase = .idle ∨ ∃ n fs l, t.phase = .reconfig n fs l ∧ ∀ i fl, l = .seq i fl → fl.Latched (t.inst i)

section Reconfig

variable {s t : State}

theorem ReconfigFrame.refl (s : State) : ReconfigFrame s s := ⟨rfl, fun _ => .refl ..⟩

theorem ReconfigFrame.fseq (h : ReconfigFrame s t) (i : Nat) (fs : List FilterReg) {l : FseqLabel}
    (hl : l.Latched (t.inst i)) : ReconfigFrame s (fseqState t i fs false l) where
  kept := (fseqState_reconfigKept t i fs false l).1.trans h.kept
  inst j := by
    obtain ⟨hfields, hmcr⟩ := fseqState_frame t i fs false l j
    rw [(h.inst j).fields] at hfields
    exact ⟨hfields, fun _ => (hmcr hl).trans ((h.inst j).mcr trivial)⟩

/-- FG_PHASE, OUTCOME and the agenda are not framed. -/
theorem ReconfigFrame.sequenced (h : ReconfigFrame s t) (p : Phase) (r : OutcomeCode) (a : List Move) :
    ReconfigFrame s { t with phase := p, outcome := r, agenda := a } := ⟨h.kept, h.inst⟩

theorem reconfigStep_frame (h : ReconfigFrame s t) {n : Nat} {fs : List FilterReg} {l : ReconfigLabel}
    (hl : ∀ i fl, l = .seq i fl → fl.Latched (t.inst i)) :
    ReconfigFrame s (reconfigStep t n fs l) ∧ (reconfigStep t n fs l).InReconfig := by
  cases l with
  | chk =>
    simp only [reconfigStep]
    split
    · exact ⟨h.sequenced .., .inl rfl⟩
    split
    · exact ⟨h.sequenced .., .inl rfl⟩
    split
    · exact ⟨h.sequenced .., .inr ⟨n, fs, _, rfl, fun _ _ he => by cases he; trivial⟩⟩
    · exact ⟨h.sequenced .., .inl rfl⟩
  | seq i fl =>
    have hf := h.fseq i fs (hl i fl rfl)
    simp only [reconfigStep]
    split
    · next fl' hp =>
      refine ⟨hf.sequenced .., .inr ⟨n, fs, _, rfl, fun _ _ he => ?_⟩⟩
      cases he
      exact fseqProgress_latched false hp
    · exact ⟨hf.sequenced .., .inl rfl⟩
    split
    · exact ⟨hf.sequenced .., .inr ⟨n, fs, _, rfl, fun _ _ he => by cases he; trivial⟩⟩
    · exact ⟨hf.sequenced .., .inl rfl⟩

/-- CLOCK_BRINGUP returns only into START (R342). -/
theorem clockBringup_outside_start (h : ∀ n fs l, t.phase ≠ .start n fs l) (ok : Bool) (pt : Option Word) :
    clockBringup t ok pt = t := by
  unfold clockBringup
  split
  · next he => exact absurd he (h _ _ _)
  · rfl

/-- INSTANCE_BRINGUP returns only into START (R344). -/
theorem instBringup_outside_start (h : ∀ n fs l, t.phase ≠ .start n fs l) (r : Bringup) (pt : Option Word) :
    instBringup t r pt = t := by
  unfold instBringup
  split
  · next he => exact absurd he (h _ _ _)
  · rfl

/-- FG does not move while a handler runs, and not at IDLE (R38, R94). -/
theorem fgMicro_still (h : t.gim = true ∨ t.phase = .idle) : fgMicro t = t := by
  unfold fgMicro
  split
  · rfl
  · next hg =>
    rw [h.resolve_left hg]

theorem applyMove_reconfig_frame {m : Move} (hm : m.foreground = true)
    (h : ReconfigFrame s t ∧ t.InReconfig) : ReconfigFrame s (applyMove m t) ∧ (applyMove m t).InReconfig := by
  obtain ⟨hframe, hin⟩ := h
  have hnot : ∀ n fs l, t.phase ≠ .start n fs l := by
    rintro n fs l hp
    rcases hin with hi | ⟨_, _, _, hi, -⟩ <;> simp [hi] at hp
  cases m with
  | irqStart | irq | env | host => simp [Move.foreground] at hm
  | clockBringup ok pt =>
    rw [applyMove, clockBringup_outside_start hnot]
    exact ⟨hframe, hin⟩
  | instBringup r pt =>
    rw [applyMove, instBringup_outside_start hnot]
    exact ⟨hframe, hin⟩
  | fg =>
    rw [applyMove]
    by_cases hg : t.gim = true
    · rw [fgMicro_still (.inl hg)]
      exact ⟨hframe, hin⟩
    rcases id hin with hi | ⟨n, fs, l, hp, hl⟩
    · rw [fgMicro_still (.inr hi)]
      exact ⟨hframe, hin⟩
    · rw [fgMicro_reconfig (by simpa using hg) hp]
      exact reconfigStep_frame hframe hl

theorem exec_reconfig_frame {n : Nat} (hfg : ∀ m ∈ s.agenda, m.foreground = true)
    (ht : exec (.reconfig n) s = .next t) : ReconfigFrame s t := by
  obtain rfl : issue s (.reconfig n (latchFilters n s.flt) .chk) = t := by simpa [exec, execReconfig] using ht
  rcases issue_cases s (.reconfig n (latchFilters n s.flt) .chk) with h | h <;> rw [h]
  · exact .refl s
  · have hkeep := drive_keeps (P := fun t => ReconfigFrame s t ∧ t.InReconfig)
      (fun {t} a h => ⟨h.1.sequenced t.phase t.outcome a, h.2⟩) s.agenda
      (fun m hm {_} h => applyMove_reconfig_frame (hfg m hm) h)
      (s := goto s (.reconfig n (latchFilters n s.flt) .chk))
      ⟨(ReconfigFrame.refl s).sequenced _ s.outcome s.agenda, .inr ⟨_, _, _, rfl, fun _ _ he => by cases he⟩⟩
    exact hkeep.1

end Reconfig

/-! ## START -/

/-- A state without what START may change outside the interfaces. -/
def State.startKept (s : State) : State :=
  { s.reconfigKept with handle := false, groupLive := false, clkLo := 0, clkHi := 0, clkRun := false }

theorem eq_of_startKept {s t : State} (h : t.startKept = s.startKept) : t = { s with
    agenda := t.agenda, phase := t.phase, outcome := t.outcome, handle := t.handle, groupLive := t.groupLive,
    clkLo := t.clkLo, clkHi := t.clkHi, clkRun := t.clkRun, ptVal := t.ptVal, ptRun := t.ptRun, insts := t.insts } := by
  simp only [State.startKept, State.reconfigKept, State.mk.injEq, true_and] at h
  cases t
  simpa using h

theorem fseqState_startKept (s : State) (i : Nat) (fs : List FilterReg) (hook : Bool) (l : FseqLabel) :
    (fseqState s i fs hook l).startKept = s.startKept :=
  congrArg (fun k : State => { k with handle := false, groupLive := false, clkLo := 0, clkHi := 0, clkRun := false })
    (fseqState_reconfigKept s i fs hook l).1

/-- The part of an interface that FSEQ and `rst:` leave alone and the statement follows through a bring-up. -/
def Inst.startPart (x : Inst) : Option Nat × List WireFrame × Word × Word × BitVec 16 :=
  (x.lock, x.wire, x.iflag, x.status, x.timer)

theorem Inst.FseqFrame.startPart {hook : Bool} {latched : Prop} {x y : Inst} (h : FseqFrame hook latched x y) :
    y.startPart = x.startPart := by
  rw [h.fields]
  rfl

/-- A bring-up that timed out reaches of RAM only words, and of the block's own state nothing (R344, U3; log 11). -/
theorem partlyUp_eq (c : Config) (x : Inst) (p : PartialBringup) : x.partlyUp c p = { x with
    enabled := p.enabled, mcr := p.mcr, status := p.status, iflag := p.iflag &&& mbMask c,
    imask := p.imask &&& mbMask c, timer := p.timer, ram := (x.partlyUp c p).ram } := by
  have hfold : ∀ {α : Type} {f : Inst → α → Inst}, (∀ x a, f x a = { x with ram := (f x a).ram }) →
      ∀ (l : List α) (x : Inst), l.foldl f x = { x with ram := (l.foldl f x).ram } := by
    intro α f hf l
    induction l with
    | nil => exact fun _ => rfl
    | cons a l ih =>
      intro x
      rw [List.foldl_cons, ih, hf]
  have hmask : ∀ x a, Inst.partialMask c x a = { x with ram := (Inst.partialMask c x a).ram } := fun x a => by
    unfold Inst.partialMask
    split <;> rfl
  have hword : ∀ x a, Inst.partialWord c x a = { x with ram := (Inst.partialWord c x a).ram } := fun x a => by
    unfold Inst.partialWord
    split <;> rfl
  rw [Inst.partlyUp, hfold hword, hfold hmask]

/-- What START keeps of an interface over the moves `ms`: the lock and the wire log, and, where every bring-up among
them answers Ok, IFLAG, with STATUS and TIMER as they were or as one of them left them (log 11). -/
structure Inst.StartFrame (ms : List Move) (x y : Inst) : Prop where
  lock : y.lock = x.lock
  wire : y.wire = x.wire
  regs : (∀ r pt, .instBringup r pt ∈ ms → ∃ u, r = .ok u) → y.iflag = x.iflag ∧
    ((y.status = x.status ∧ y.timer = x.timer) ∨
      ∃ u pt, .instBringup (.ok u) pt ∈ ms ∧ y.status = u.status ∧ y.timer = u.timer)

section Start

variable {s t : State} {ms : List Move} {x y z : Inst}

theorem Inst.StartFrame.refl (ms : List Move) (x : Inst) : StartFrame ms x x :=
  ⟨rfl, rfl, fun _ => ⟨rfl, .inl ⟨rfl, rfl⟩⟩⟩

theorem Inst.StartFrame.of_startPart (h : StartFrame ms x y) (hz : z.startPart = y.startPart) : StartFrame ms x z := by
  simp only [Inst.startPart, Prod.mk.injEq] at hz
  obtain ⟨hlock, hwire, hiflag, hstatus, htimer⟩ := hz
  refine ⟨hlock.trans h.lock, hwire.trans h.wire, fun hok => ?_⟩
  rw [hiflag, hstatus, htimer]
  exact h.regs hok

theorem Inst.StartFrame.broughtUp (h : StartFrame ms x y) {u : UpRegs} {pt : Option Word}
    (hm : .instBringup (.ok u) pt ∈ ms) : StartFrame ms x (y.broughtUp u) :=
  ⟨h.lock, h.wire, fun hok => ⟨(h.regs hok).1, .inr ⟨u, pt, hm, rfl, rfl⟩⟩⟩

theorem Inst.StartFrame.partlyUp (h : StartFrame ms x y) {p : PartialBringup} {pt : Option Word} (c : Config)
    (hm : .instBringup (.timeout p) pt ∈ ms) : StartFrame ms x (y.partlyUp c p) := by
  rw [partlyUp_eq]
  refine ⟨h.lock, h.wire, fun hok => ?_⟩
  obtain ⟨u, hu⟩ := hok _ _ hm
  cases hu

/-- `t` is reached from `s` by START over moves of `ms`: it differs only in what START may change, and FG is at IDLE or
in START. -/
structure StartReached (ms : List Move) (s t : State) : Prop where
  kept : t.startKept = s.startKept
  inst : ∀ j, Inst.StartFrame ms (s.inst j) (t.inst j)
  phase : t.phase = .idle ∨ ∃ n fs l, t.phase = .start n fs l

theorem StartReached.ret (h : StartReached ms s t) (r : OutcomeCode) : StartReached ms s (ret t r) :=
  ⟨h.kept, h.inst, .inl rfl⟩

theorem StartReached.retHandle (h : StartReached ms s t) (r : OutcomeCode) (b : Bool) :
    StartReached ms s (retHandle t r b) := ⟨h.kept, h.inst, .inl rfl⟩

theorem StartReached.goto (h : StartReached ms s t) (n : Nat) (fs : List FilterReg) (l : StartLabel) :
    StartReached ms s (goto t (.start n fs l)) := ⟨h.kept, h.inst, .inr ⟨n, fs, l, rfl⟩⟩

/-- The timers are START's to change. -/
theorem StartReached.timers (h : StartReached ms s t) (lo hi : Word) (run : Bool) (pv : Word) (pr : Bool) :
    StartReached ms s { t with clkLo := lo, clkHi := hi, clkRun := run, ptVal := pv, ptRun := pr } :=
  ⟨h.kept, h.inst, h.phase⟩

theorem StartReached.modInst (h : StartReached ms s t) (i : Nat) {f : Inst → Inst}
    (hf : ∀ {x y}, Inst.StartFrame ms x y → Inst.StartFrame ms x (f y)) : StartReached ms s (t.modInst i f) := by
  refine ⟨h.kept, fun j => ?_, h.phase⟩
  rcases inst_modInst_cases t i f j with he | ⟨-, he⟩ <;> rw [he]
  · exact h.inst j
  · exact hf (h.inst j)

theorem StartReached.fseq (h : StartReached ms s t) (i : Nat) (fs : List FilterReg) (l : FseqLabel) :
    StartReached ms s (fseqState t i fs true l) where
  kept := (fseqState_startKept t i fs true l).trans h.kept
  inst j := (h.inst j).of_startPart (fseqState_frame t i fs true l j).startPart
  phase := by
    rw [(fseqState_reconfigKept t i fs true l).2]
    exact h.phase

theorem startStep_reached (h : StartReached ms s t) (n : Nat) (fs : List FilterReg) (l : StartLabel) :
    StartReached ms s (startStep t n fs l) := by
  cases l with
  | chk =>
    simp only [startStep]
    split
    · exact h.ret _
    split
    · exact h.ret _
    · exact h.goto ..
  | rst =>
    refine ⟨h.kept, fun j => ?_, .inr ⟨_, _, _, rfl⟩⟩
    exact (h.inst j).of_startPart ((congrArg Inst.startPart (inst_restarted t j)).trans rfl)
  | clk | up i => exact h
  | tmr => exact (h.timers ..).goto ..
  | fp i fl =>
    have hf := h.fseq i fs fl
    simp only [startStep]
    split
    · exact hf.goto ..
    · exact hf.retHandle ..
    · exact hf.goto ..
  | live => exact ⟨h.kept, h.inst, .inl rfl⟩

theorem clockBringup_reached (h : StartReached ms s t) (ok : Bool) (pt : Option Word) :
    StartReached ms s (clockBringup t ok pt) := by
  have hpolled : StartReached ms s (ptPolled t pt) := h.timers ..
  unfold clockBringup
  split
  · split
    · exact h
    split
    · exact hpolled.goto ..
    · exact hpolled.retHandle ..
  · exact h

theorem instBringup_reached (h : StartReached ms s t) {r : Bringup} {pt : Option Word}
    (hm : .instBringup r pt ∈ ms) : StartReached ms s (instBringup t r pt) := by
  have hpolled : StartReached ms s (ptPolled t pt) := h.timers ..
  unfold instBringup
  split
  · split
    · exact h
    split
    · exact (hpolled.modInst _ fun hy => hy.broughtUp hm).goto ..
    · exact (hpolled.modInst _ fun hy => hy.partlyUp _ hm).retHandle ..
  · exact h

theorem applyMove_start_reached {m : Move} (hm : m ∈ ms) (hfg : m.foreground = true) (h : StartReached ms s t) :
    StartReached ms s (applyMove m t) := by
  cases m with
  | irqStart | irq | env | host => simp [Move.foreground] at hfg
  | clockBringup ok pt => exact clockBringup_reached h ok pt
  | instBringup r pt => exact instBringup_reached h hm
  | fg =>
    rw [applyMove]
    by_cases hg : t.gim = true
    · rw [fgMicro_still (.inl hg)]
      exact h
    rcases h.phase with hi | ⟨n, fs, l, hp⟩
    · rw [fgMicro_still (.inr hi)]
      exact h
    · rw [fgMicro_start (by simpa using hg) hp]
      exact startStep_reached h n fs l

theorem exec_start_frame {n : Nat} (hfg : ∀ m ∈ s.agenda, m.foreground = true)
    (ht : exec (.start n) s = .next t) :
    t.startKept = s.startKept ∧ ∀ j, Inst.StartFrame s.agenda (s.inst j) (t.inst j) := by
  obtain rfl : issue s (.start n (latchFilters n s.flt) .chk) = t := by simpa [exec, execStart] using ht
  rcases issue_cases s (.start n (latchFilters n s.flt) .chk) with h | h <;> rw [h]
  · exact ⟨rfl, fun _ => .refl ..⟩
  · have hkeep := drive_keeps (P := StartReached s.agenda s) (fun _ h => ⟨h.kept, h.inst, h.phase⟩) s.agenda
      (fun m hm {_} h => applyMove_start_reached hm (hfg m hm) h)
      (s := goto s (.start n (latchFilters n s.flt) .chk)) ⟨rfl, fun _ => .refl .., .inr ⟨_, _, _, rfl⟩⟩
    exact ⟨hkeep.kept, hkeep.inst⟩

end Start

/-! ## The obligation -/

/-- Words that agree outside the freeze request bits agree at every other bit. -/
theorem getLsbD_of_request_masked {v w : Word} (h : v &&& ~~~0x50000000#32 = w &&& ~~~0x50000000#32) {b : Nat}
    (hb : b < 32) (h28 : b ≠ 28) (h30 : b ≠ 30) : v.getLsbD b = w.getLsbD b := by
  have hmask : (0x50000000#32).getLsbD b = false := by
    rw [show 0x50000000#32 = mbBit 28 ||| mbBit 30 from rfl, BitVec.getLsbD_or, mbBit_bit, mbBit_bit]
    simp [h28, h30]
  have hbit := congrArg (fun u : Word => u.getLsbD b) h
  simpa only [BitVec.getLsbD_and, BitVec.getLsbD_not, hb, hmask, decide_true, Bool.not_false, Bool.and_true] using hbit

/-- Settles O60: every foreground move keeps the frames, and no well-formed state has a word outside the map. -/
theorem filterCommandsFrame : Obligations.FilterCommandsFrame := by
  intro s t n hwf hfg
  have hram : ∀ {i : Instr}, exec i s = .next t → t.cfg = s.cfg → ∀ j a, ¬ Stored s.cfg a →
      (t.inst j).ram.load a = (s.inst j).ram.load a := fun ht hcfg j a ha => by
    rw [hwf.load_unstored j ha, (exec_wf hwf _ ht).load_unstored j (hcfg ▸ ha)]
  refine ⟨fun ht => ?_, fun ht => ?_⟩
  · obtain ⟨hkept, hinst⟩ := exec_reconfig_frame hfg ht
    refine ⟨eq_of_reconfigKept hkept, fun j => ⟨(hinst j).fields, fun b hb h28 h30 => ?_,
      hram ht (congrArg State.cfg hkept :) j⟩⟩
    exact getLsbD_of_request_masked ((hinst j).mcr trivial) hb h28 h30
  · obtain ⟨hkept, hinst⟩ := exec_start_frame hfg ht
    exact ⟨eq_of_startKept hkept, fun j => ⟨(hinst j).lock, (hinst j).wire,
      hram ht (congrArg State.cfg hkept :) j, (hinst j).regs⟩⟩

end Sys2Proof.Machine
end

section
/-! SUPPORT. Commands that end after one or two micro-steps of FG, and GROUP_LIVE over all moves (R300, R312, R330,
R331). -/

namespace Sys2Proof.Machine

/-! ## One micro-step of FG -/

section Micro

variable {s : State}

theorem fgMicro_getifc (hg : s.gim = false) (hp : s.phase = .getifc) : fgMicro s = getifcStep s := by
  simp [fgMicro, hg, hp]

theorem fgMicro_getmaxf (hg : s.gim = false) (hp : s.phase = .getmaxf) : fgMicro s = getmaxfStep s := by
  simp [fgMicro, hg, hp]

theorem fgMicro_write (hg : s.gim = false) {inst count : Nat} {f : Frame} {l : WriteLabel}
    (hp : s.phase = .write inst count f l) : fgMicro s = writeStep s inst count f l := by
  simp [fgMicro, hg, hp]

theorem fgMicro_read (hg : s.gim = false) {inst : Nat} {l : ReadLabel} (hp : s.phase = .read inst l) :
    fgMicro s = readStep s inst l := by
  simp [fgMicro, hg, hp]

theorem fgMicro_select (hg : s.gim = false) {ignw : Bool} {tmo : Word} {l : SelectLabel}
    (hp : s.phase = .select ignw tmo l) : fgMicro s = selectStep s ignw tmo l := by
  simp [fgMicro, hg, hp]

end Micro

/-! ## One micro-step after the issue -/

section Issue

variable {s t : State} {p : Phase} {rest : List Move}

theorem issue_fg (hr : s.Ready) (ha : s.agenda = .fg :: rest) (hp : p ≠ .idle) :
    issue s p = drive rest (fgMicro (goto s p)) := by
  rw [issue_ready hr, ha, drive_fg (by simpa using hp)]

/-- A command that returns at its first micro-step. -/
theorem issue_fg_returns (hr : s.Ready) (ha : s.agenda = .fg :: rest) (hp : p ≠ .idle)
    (hmicro : fgMicro (goto s p) = t) (ht : t.phase = .idle) : issue s p = { t with agenda := rest } := by
  rw [issue_fg hr ha hp, hmicro, drive_idle ht]

/-- A command that only reports its outcome leaves FG_PHASE as the host found it. -/
theorem ret_goto (hr : s.Ready) (p : Phase) (r : OutcomeCode) : ret (goto s p) r = { s with outcome := r } := by
  rw [ret, ← hr.1]
  rfl

theorem retWritten_goto (hr : s.Ready) (p : Phase) (r : OutcomeCode) (n : BitVec 8) :
    retWritten (goto s p) r n = { s with outcome := r, nwritten := n } := by
  rw [retWritten, ret_goto hr]

/-- A command refused at its first micro-step only reports the outcome. -/
theorem issue_fg_ret (hr : s.Ready) (ha : s.agenda = .fg :: rest) (hp : p ≠ .idle) {r : OutcomeCode}
    (hmicro : fgMicro (goto s p) = ret (goto s p) r) : issue s p = { s with agenda := rest, outcome := r } := by
  rw [issue_fg_returns hr ha hp hmicro rfl, ret_goto hr]

end Issue

/-! ## Capacity queries -/

/-- Settles O38: GETIFC's one micro-step, and N_IF fits RCOUNT (R10). -/
theorem getifcReportsInterfaces : Obligations.GetifcReportsInterfaces := by
  intro s rest hc hr ha
  obtain ⟨-, hnIf, -⟩ := hc
  refine ⟨BitVec.ofNat 8 s.cfg.nIf, by rw [BitVec.toNat_ofNat]; omega, ?_, rfl, by decide⟩
  have hissue := issue_fg_returns hr ha (by simp) (fgMicro_getifc (s := goto s .getifc) hr.2 rfl) rfl
  rw [getifcStep, ret_goto hr] at hissue
  exact congrArg _ hissue

/-- Settles O39: GETMAXF's one micro-step, and F_CAP fits RCOUNT (R10). -/
theorem getmaxfReportsFilterCapacity : Obligations.GetmaxfReportsFilterCapacity := by
  intro s rest hc hr ha
  obtain ⟨-, -, -, -, hfCap, -⟩ := hc
  refine ⟨BitVec.ofNat 8 s.cfg.fCap, by rw [BitVec.toNat_ofNat]; omega, ?_, rfl, by decide⟩
  have hissue := issue_fg_returns hr ha (by simp) (fgMicro_getmaxf (s := goto s .getmaxf) hr.2 rfl) rfl
  rw [getmaxfStep, ret_goto hr] at hissue
  exact congrArg _ hissue

/-! ## READ -/

/-- RXF from a queued frame: the payload has its table length, at most 64 bytes, and is padded with zeros (R312,
R56). -/
theorem rxResult_eq {f : Frame} (hf : f.Wf) : rxResult f = {
    id := f.id.setWidth 32
    dlc := f.dlc
    len := BitVec.ofNat 7 (dlc2len f.dlc)
    data := f.payload ++ List.replicate (64 - dlc2len f.dlc) 0
    ts := f.ts } := by
  have htake : f.payload.take 64 = f.payload := List.take_of_length_le (hf ▸ dlc2len_le f.dlc)
  rw [rxResult, htake, hf]
  rfl

section Read

variable {s : State} {i : Nat} {rest : List Move}

/-- READ past its checks stands at `pop:`. -/
theorem exec_read_pop (hr : s.Ready) (ha : s.agenda = fgs 2 ++ rest) (hl : s.groupLive = true) (hi : i < s.cfg.nIf) :
    exec (.read i) s = .next (drive rest (readStep (goto s (.read i .pop)) i .pop)) := by
  have hchk : fgMicro (goto s (.read i .chk)) = goto s (.read i .pop) := by
    rw [fgMicro_read (s := goto s (.read i .chk)) hr.2 rfl]
    simp only [readStep, goto_fields, hl, Bool.not_true, Bool.false_eq_true, if_false, if_neg (Nat.not_le.mpr hi)]
    rfl
  show Host.Outcome.next (issue s (.read i .chk)) = _
  rw [issue_fg (rest := .fg :: rest) hr ha (by simp), hchk, drive_fg (by simp),
    fgMicro_read (s := goto s (.read i .pop)) hr.2 rfl]

theorem exec_read_refused (hr : s.Ready) (ha : s.agenda = fgs 2 ++ rest) {r : OutcomeCode}
    (hchk : readStep (goto s (.read i .chk)) i .chk = ret (goto s (.read i .chk)) r) :
    exec (.read i) s = .next { s with agenda := .fg :: rest, outcome := r } :=
  congrArg _ (issue_fg_ret (rest := .fg :: rest) hr ha (by simp)
    ((fgMicro_read (s := goto s (.read i .chk)) hr.2 rfl).trans hchk))

end Read

/-- Settles O43: `chk:` lets only a present interface of a live group pass, and `pop:` answers by the queue. -/
theorem readOutcomes : Obligations.ReadOutcomes := by
  intro s i rest hwf hr ha
  refine ⟨fun f q hl hi hq => ?_, fun hl hi hq => ?_, fun hl hi => ?_, fun hl => ?_⟩
  · have hpopped : popped (goto s (.read i .pop)) i = some f := by simp [popped, hq]
    have hpop : pop s i = s.modInst i fun x => { x with queue := q } :=
      modInst_congr s (by simp [hq])
    have hf : f.Wf := (hwf.instAt hi).queueFrames f (by simp [hq])
    have hstep : readStep (goto s (.read i .pop)) i .pop = ret (goto
        { s.modInst i fun x => { x with queue := q } with rxf := rxResult f } (.read i .pop)) .success := by
      rw [← hpop]
      simp only [readStep, hpopped]
      rfl
    rw [exec_read_pop hr ha hl hi, hstep, drive_idle rfl, rxResult_eq hf]
    rw [ret_goto (s := { s.modInst i fun x => { x with queue := q } with rxf := _ }) hr]
    rfl
  · have hpopped : popped (goto s (.read i .pop)) i = none := by simp [popped, hq]
    rw [exec_read_pop hr ha hl hi]
    simp only [readStep, hpopped]
    rw [drive_idle rfl, ret_goto hr]
  · exact exec_read_refused hr ha (by simp [readStep, hl, hi])
  · exact exec_read_refused hr ha (by simp [readStep, hl])

end Sys2Proof.Machine
end

section
/-! SUPPORT. GROUP_LIVE over all moves (R300): only the last micro-steps of START and of STOP write it. -/

namespace Sys2Proof.Machine

section Moves

variable (s : State)

/-! ## FG -/

theorem reconfigStep_groupLive (count : Nat) (fs : List FilterReg) (l : ReconfigLabel) :
    (reconfigStep s count fs l).groupLive = s.groupLive := by
  cases l with
  | chk =>
    simp only [reconfigStep]
    split
    · rfl
    split
    · rfl
    split <;> rfl
  | seq i fl =>
    have hf := fseqState_groupLive s i fs false fl
    simp only [reconfigStep]
    split
    · exact hf
    · exact hf
    split <;> exact hf

theorem startStep_groupLive (count : Nat) (fs : List FilterReg) {l : StartLabel} (hl : l ≠ .live) :
    (startStep s count fs l).groupLive = s.groupLive := by
  cases l with
  | live => exact absurd rfl hl
  | chk =>
    simp only [startStep]
    split
    · rfl
    split <;> rfl
  | rst | clk | tmr | up => rfl
  | fp i fl =>
    have hf := fseqState_groupLive s i fs true fl
    simp only [startStep]
    split <;> exact hf

theorem stopStep_groupLive {l : StopLabel} (hl : l ≠ .dead) : (stopStep s l).groupLive = s.groupLive := by
  cases l with
  | dead => exact absurd rfl hl
  | lpr | gate | tmr => rfl
  | lpr2 i v =>
    show (mcrWriteGated s i _).groupLive = _
    unfold mcrWriteGated
    split
    · rfl
    split <;> rfl
  | lpa i w =>
    have hw : (lpaState s i w).groupLive = s.groupLive := by
      cases w with
      | restart | deadline => rfl
      | sample => simp only [lpaState]; split <;> rfl
    simp only [stopStep]
    split <;> exact hw

theorem writeStep_groupLive (inst count : Nat) (f : Frame) (l : WriteLabel) :
    (writeStep s inst count f l).groupLive = s.groupLive := by
  cases l with
  | chk =>
    simp only [writeStep]
    split
    · rfl
    split <;> rfl
  | rdy => simp only [writeStep]; split <;> rfl
  | idw | csw | dw | clr => rfl
  | cmp m w =>
    have hw := waitState_groupLive s w
    simp only [writeStep]
    split <;> exact hw

theorem readStep_groupLive (inst : Nat) (l : ReadLabel) : (readStep s inst l).groupLive = s.groupLive := by
  cases l with
  | chk =>
    simp only [readStep]
    split
    · rfl
    split <;> rfl
  | pop => simp only [readStep]; split <;> rfl

theorem selectStep_groupLive (ignw : Bool) (tmo : Word) (l : SelectLabel) :
    (selectStep s ignw tmo l).groupLive = s.groupLive := by
  cases l with
  | restart => rfl
  | chk | q | t | deadline => simp only [selectStep]; split <;> rfl

/-- FG writes GROUP_LIVE at START's `live:` and at STOP's `dead:` only. -/
theorem fgMicro_groupLive : (fgMicro s).groupLive = s.groupLive ∨
    (∃ n fs, s.gim = false ∧ s.phase = .start n fs .live ∧
      fgMicro s = { retHandle s .success true with groupLive := true }) ∨
    s.gim = false ∧ s.phase = .stop .dead ∧ fgMicro s = { retHandle s .success false with groupLive := false } := by
  unfold fgMicro
  split
  · exact .inl rfl
  next hg =>
  have hg : s.gim = false := by simpa using hg
  split
  · exact .inl rfl
  · exact .inl rfl
  · exact .inl rfl
  · next n fs l hp =>
    by_cases hl : l = .live
    · subst hl
      exact .inr (.inl ⟨n, fs, hg, hp, rfl⟩)
    · exact .inl (startStep_groupLive s n fs hl)
  · next l hp =>
    by_cases hl : l = .dead
    · subst hl
      exact .inr (.inr ⟨hg, hp, rfl⟩)
    · exact .inl (stopStep_groupLive s hl)
  · exact .inl (writeStep_groupLive s ..)
  · exact .inl (readStep_groupLive s ..)
  · exact .inl (selectStep_groupLive s ..)
  · exact .inl (reconfigStep_groupLive s ..)

/-! ## The other agents -/

theorem irqStep_groupLive : (irqStep s).groupLive = s.groupLive := by
  unfold irqStep
  split
  · rfl
  · next r _ => cases h : r.label <;> simp [rxirqStep]

theorem clockBringup_groupLive (ok : Bool) (pt : Option Word) : (clockBringup s ok pt).groupLive = s.groupLive := by
  unfold clockBringup
  split
  · split
    · rfl
    split <;> rfl
  · rfl

theorem instBringup_groupLive (r : Bringup) (pt : Option Word) : (instBringup s r pt).groupLive = s.groupLive := by
  unfold instBringup
  split
  · split
    · rfl
    split <;> rfl
  · rfl

theorem envMove_groupLive (e : EnvMove) : (envMove s e).groupLive = s.groupLive := by
  cases e with
  | clock | poll => simp only [envMove]; split <;> rfl
  | clkTick => simp only [envMove, clkTick]; split <;> rfl
  | ptTick => simp only [envMove, ptTick]; split <;> rfl
  | _ => rfl

theorem hostMove_groupLive (h : HostMove) : (hostMove s h).groupLive = s.groupLive := by
  unfold hostMove
  split
  · cases h <;> rfl
  · rfl

/-- A move that is not one of FG's leaves GROUP_LIVE alone. -/
theorem applyMove_groupLive {m : Move} (hm : m ≠ .fg) : (applyMove m s).groupLive = s.groupLive := by
  cases m with
  | fg => exact absurd rfl hm
  | irqStart i => simp only [applyMove, irqStart]; split <;> rfl
  | irq => exact irqStep_groupLive s
  | clockBringup ok pt => exact clockBringup_groupLive s ok pt
  | instBringup r pt => exact instBringup_groupLive s r pt
  | env e => exact envMove_groupLive s e
  | host h => exact hostMove_groupLive s h

end Moves

/-! ## The obligation -/

/-- Settles O40: two micro-steps write GROUP_LIVE, and the first check of each group command is on it. -/
theorem groupCommandsNeedLiveGroup : Obligations.GroupCommandsNeedLiveGroup := by
  refine ⟨fun s m => ?_, fun s rest hr hl ha => ⟨fun i n => ?_, fun i => ?_, fun g => ?_, fun n => ?_, rfl⟩⟩
  · intro t hne
    obtain rfl : m = .fg := by_contra fun hm => hne (applyMove_groupLive s hm)
    rcases fgMicro_groupLive s with h | ⟨n, fs, hg, hp, h⟩ | ⟨hg, hp, h⟩
    · exact absurd h hne
    · exact ⟨rfl, hg, congrArg State.phase h, congrArg State.outcome h, .inl ⟨n, fs, hp, congrArg State.groupLive h⟩⟩
    · exact ⟨rfl, hg, congrArg State.phase h, congrArg State.outcome h, .inr ⟨hp, congrArg State.groupLive h⟩⟩
  · have hmicro := fgMicro_write (s := goto s (.write i n (txFrame s.txf) .chk)) hr.2 rfl
    simp only [writeStep, goto_fields, hl, Bool.not_false, if_true] at hmicro
    have hissue := issue_fg_returns hr ha (by simp) hmicro rfl
    rw [retWritten_goto hr] at hissue
    exact congrArg _ hissue
  · have hmicro := fgMicro_read (s := goto s (.read i .chk)) hr.2 rfl
    exact congrArg _ (issue_fg_ret hr ha (by simp) (hmicro.trans (by simp [readStep, hl])))
  · have hmicro := fgMicro_select (s := goto s (.select g s.tmo .chk)) hr.2 rfl
    exact congrArg _ (issue_fg_ret hr ha (by simp) (hmicro.trans (by simp [selectStep, hl])))
  · have hmicro := fgMicro_reconfig (s := goto s (.reconfig n (latchFilters n s.flt) .chk)) hr.2 rfl
    exact congrArg _ (issue_fg_ret hr ha (by simp) (hmicro.trans (by simp [reconfigStep, hl])))

end Sys2Proof.Machine
end

section
/-! SUPPORT. SELECT scan by scan (R320): what stands after the interfaces passed without a queued frame or a ready
STATUS, and the deadline test. -/

namespace Sys2Proof.Machine

/-! ## The poll timer -/

/-- The poll timer running with value `v`. -/
def State.timed (s : State) (v : Word) : State := { s with ptVal := v, ptRun := true }

/-- The poll timer `n` ticks after a restart, before it has run out (R172, R364). -/
def ticked (n : Nat) : Word := BitVec.ofNat 32 (0xFFFFFFFF - n)

theorem elapsed_ticked {s : State} {n : Nat} (hn : n ≤ 0xFFFFFFFF) : elapsed (s.timed (ticked n)) = n := by
  show 0xFFFFFFFF - (BitVec.ofNat 32 (0xFFFFFFFF - n)).toNat = n
  rw [BitVec.toNat_ofNat]
  omega

/-- `n` poll-timer ticks after a restart, the command waiting at `p`. -/
theorem ptTicks_restarted {s : State} {p : Phase} {rest : List Move} (hp : p ≠ .idle) {n : Nat}
    (hn : n ≤ 0xFFFFFFFF) :
    drive (ptTicks n ++ rest) (goto (ptRestart s) p) = drive rest (goto (s.timed (ticked n)) p) := by
  have hv : 0xFFFFFFFF#32 - BitVec.ofNat 32 n = ticked n :=
    BitVec.ofNat_sub_ofNat_of_le 0xFFFFFFFF n (by omega) hn
  rw [ptTicks_run n (s := goto (ptRestart s) p) hp rfl (by simpa using hn)]
  show drive rest (goto (s.timed (0xFFFFFFFF#32 - BitVec.ofNat 32 n)) p) = _
  rw [hv]

/-! ## Scans -/

/-- The label at which a scan comes to interface `k`, or to the deadline test past the last one (R320). -/
def scanAt (s : State) (k : Nat) : SelectLabel := if k < s.cfg.nIf then .q k else .deadline

/-- Interface `j` has nothing for SELECT: no queued frame and, unless write availability is ignored, no ready STATUS. -/
def State.Unready (s : State) (g : Bool) (j : Nat) : Prop :=
  (s.inst j).queue = [] ∧ (g = false → txReady (s.inst j).status = false)

section Select

variable {s : State} {g : Bool} {tmo : Word} {k : Nat} {rest : List Move}

theorem select_run (hg : s.gim = false) (l : SelectLabel) :
    drive (.fg :: rest) (goto s (.select g tmo l)) = drive rest (selectStep (goto s (.select g tmo l)) g tmo l) := by
  rw [drive_fg (by simp), fgMicro_select (s := goto s (.select g tmo l)) hg rfl]

/-- The queue comes first (R321). -/
theorem select_queue_empty (hg : s.gim = false) (hq : (s.inst k).queue = []) :
    drive (.fg :: rest) (goto s (.select g tmo (.q k))) = drive rest (goto s (.select g tmo (.t k))) := by
  rw [select_run hg]
  simp only [selectStep, qlen, goto_inst, hq, List.length_nil, Nat.lt_irrefl, if_false]
  rfl

theorem select_status_unready (hg : s.gim = false) (ht : g = false → txReady (s.inst k).status = false) :
    drive (.fg :: rest) (goto s (.select g tmo (.t k))) = drive rest (goto s (.select g tmo (scanAt s (k + 1)))) := by
  have hnot : (!g && txReady (regVal (goto s (.select g tmo (.t k))) k .status)) = false := by
    cases g with
    | true => rfl
    | false => exact ht rfl
  rw [select_run hg]
  simp only [selectStep, hnot, Bool.false_eq_true, if_false]
  rfl

/-- A scan over interfaces with nothing ready. -/
theorem select_scan (hg : s.gim = false) : ∀ k, k ≤ s.cfg.nIf → (∀ j, j < k → s.Unready g j) → ∀ rest,
    drive (fgs (2 * k) ++ rest) (goto s (.select g tmo (scanAt s 0))) =
      drive rest (goto s (.select g tmo (scanAt s k)))
  | 0, _, _, _ => rfl
  | k + 1, hk, hun, rest => by
    obtain ⟨hq, ht⟩ := hun k (Nat.lt_succ_self k)
    have hat : scanAt s k = .q k := if_pos hk
    rw [Nat.mul_succ, fgs_add, List.append_assoc,
      select_scan hg k (Nat.le_of_succ_le hk) (fun j hj => hun j (Nat.lt_succ_of_lt hj)), hat]
    exact (select_queue_empty hg hq).trans (select_status_unready hg ht)

/-- SELECT from its issue over the interfaces below `k`, none of them ready. -/
theorem exec_select_scanned (hr : s.Ready) (hl : s.groupLive = true) (hk : k ≤ s.cfg.nIf)
    (hun : ∀ j, j < k → s.Unready g j) (ha : s.agenda = fgs (2 + 2 * k) ++ rest) :
    exec (.select g) s = .next (drive rest (goto (ptRestart s) (.select g s.tmo (scanAt s k)))) := by
  have hchk : selectStep (goto s (.select g s.tmo .chk)) g s.tmo .chk = goto s (.select g s.tmo .restart) := by
    simp only [selectStep, goto_fields, hl, Bool.not_true, Bool.false_eq_true, if_false]
    rfl
  have hscan := select_scan (s := ptRestart s) (g := g) (tmo := s.tmo) hr.2 k hk hun rest
  show Host.Outcome.next (issue s _) = _
  rw [issue_ready hr, ha, fgs_add, List.append_assoc]
  congr 1
  exact (select_run hr.2 .chk).trans (hchk ▸ (select_run hr.2 .restart).trans hscan)

/-- A scan that ends the command leaves the restarted poll timer and the outcome. -/
theorem drive_ret_timed (hr : s.Ready) (v : Word) (p : Phase) (r : OutcomeCode) :
    drive rest (ret (goto (s.timed v) p) r) =
      { s with agenda := rest, outcome := r, ptVal := v, ptRun := true } := by
  rw [drive_idle rfl, ret_goto (s := s.timed v) hr]
  rfl

end Select

/-! ## The obligations -/

/-- Settles O49: the scan passes the interfaces below `k`, and at `k` looks at the queue, then at STATUS. -/
theorem selectFindsReadyInterface : Obligations.SelectFindsReadyInterface := by
  intro s g k rest hr hl hk hun
  have hat : scanAt s k = .q k := if_pos hk
  refine ⟨fun hq ha => ?_, fun hq hg ht ha => ?_⟩
  · have hstep : selectStep (goto (ptRestart s) (.select g s.tmo (.q k))) g s.tmo (.q k) =
        ret (goto (ptRestart s) (.select g s.tmo (.q k))) .success := by
      simp only [selectStep, qlen, goto_inst, ptRestart_inst, List.length_pos_iff.mpr hq, if_true]
    have ha' : s.agenda = fgs (2 + 2 * k) ++ .fg :: rest := by
      rw [ha, show 3 + 2 * k = 2 + 2 * k + 1 by omega, fgs_add, List.append_assoc]
      rfl
    rw [exec_select_scanned hr hl (Nat.le_of_lt hk) hun ha', hat, select_run (s := ptRestart s) hr.2, hstep]
    exact congrArg _ (drive_ret_timed hr 0xFFFFFFFF#32 _ .success)
  · have hstep : selectStep (goto (ptRestart s) (.select g s.tmo (.t k))) g s.tmo (.t k) =
        ret (goto (ptRestart s) (.select g s.tmo (.t k))) .success := by
      simp [selectStep, regVal, Inst.reg, hg, ht]
    have ha' : s.agenda = fgs (2 + 2 * k) ++ .fg :: .fg :: rest := by
      rw [ha, show 4 + 2 * k = 2 + 2 * k + 2 by omega, fgs_add, List.append_assoc]
      rfl
    rw [exec_select_scanned hr hl (Nat.le_of_lt hk) hun ha', hat, select_queue_empty (s := ptRestart s) hr.2 hq,
      select_run (s := ptRestart s) hr.2, hstep]
    exact congrArg _ (drive_ret_timed hr 0xFFFFFFFF#32 _ .success)

/-- Settles O50: one scan passes every interface, and the deadline test compares the ticks since `restart:` with
TMO. -/
theorem selectTimesOut : Obligations.SelectTimesOut := by
  intro s g n rest hr hl hnIf hun hn ha
  have hend : scanAt s s.cfg.nIf = .deadline := if_neg (Nat.lt_irrefl _)
  have ha' : s.agenda = fgs (2 + 2 * s.cfg.nIf) ++ (ptTicks n ++ (.fg :: rest)) := by
    rw [ha, List.append_assoc, List.append_assoc]
    rfl
  have hexec : exec (.select g) s = .next (drive rest
      (selectStep (goto (s.timed (ticked n)) (.select g s.tmo .deadline)) g s.tmo .deadline)) := by
    rw [exec_select_scanned hr hl (Nat.le_refl _) hun ha', hend, ptTicks_restarted (by simp) hn,
      select_run (s := s.timed (ticked n)) hr.2]
  have helapsed : elapsed (goto (s.timed (ticked n)) (.select g s.tmo .deadline)) = n := elapsed_ticked (s := s) hn
  refine ⟨fun hlate => ?_, fun hearly hrest => ?_⟩
  · rw [hexec]
    simp only [selectStep, helapsed, if_pos hlate]
    exact congrArg _ (drive_ret_timed hr (ticked n) _ .successTimeout)
  · have hstart : scanStart (goto (s.timed (ticked n)) (.select g s.tmo .deadline)) = .q 0 := if_pos hnIf
    rw [hexec, hrest]
    simp only [selectStep, helapsed, if_neg (Nat.not_lt.mpr hearly), hstart]
    rfl

end Sys2Proof.Machine
end

section
/-! SUPPORT. The ends of WRITE (R302, R303, R305, R306): no free mailbox, the frame sent, a stale completion flag, and
no completion flag in time. -/

namespace Sys2Proof.Machine

/-! ## What WRITE leaves in the interface -/

/-- The words of a transmit mailbox `m` of `x` after WRITE: id word, control word `cs`, the data words of the payload,
every other word as before (R195, R196). -/
structure TxWords (t : TxOperand) (x : Inst) (m : Nat) (cs : Word) (ram : Memory) : Prop where
  id : ram.load (mbNo m 1) = (t.id &&& 0x1FFFFFFF#32)
  control : ram.load (mbNo m 0) = cs
  data : ∀ w, w < nwords (dlc2len t.dlc) → ram.load (mbNo m (2 + w)) = packWord (t.data.take (dlc2len t.dlc)) w
  others : ∀ a, (∀ k, k < 2 + nwords (dlc2len t.dlc) → a ≠ mbNo m k) → ram.load a = x.ram.load a

/-- The interface once ENCODE has put frame `f` in mailbox `m` (R195). -/
def Inst.encoded (f : Frame) (m : Nat) (x : Inst) : Inst := { x with ram := Memory.encoded f m x.ram }

/-- ENCODE of the latched frame, before the controller sent it. -/
theorem txWords_encoded (t : TxOperand) {x : Inst} (hx : x.ram.wf = true) (m : Nat) :
    TxWords t x m (0xCC200000#32 ||| (t.dlc.setWidth 32 <<< 16)) (Memory.encoded (txFrame t) m x.ram) := by
  obtain ⟨hid, hcontrol, hdata, hothers⟩ := encoded_load (txFrame t) m hx
  exact ⟨hid.trans (idWord_txFrame t), hcontrol, hdata, hothers⟩

/-- The control word written again over ENCODE's. -/
theorem TxWords.setControl {t : TxOperand} {x : Inst} {m : Nat} {cs : Word} {ram : Memory}
    (h : TxWords t x m cs ram) (hwf : ram.wf = true) (cs' : Word) : TxWords t x m cs' (ram.store (mbNo m 0) cs') where
  id := by
    rw [load_store hwf, if_neg (by simp [mbNo]), h.id]
  control := by
    rw [load_store hwf, if_pos rfl]
  data w hw := by
    rw [load_store hwf, if_neg (by simp only [mbNo]; omega), h.data w hw]
  others a ha := by
    rw [load_store hwf, if_neg (ha 0 (by omega)), h.others a ha]

/-! ## The send -/

/-- The frame an encoded mailbox puts on the wire is the one encoded (R206, R368). -/
theorem frameIn_encoded {x : Inst} {f : Frame} (hx : x.ram.wf = true) (hf : f.Wf) (m : Nat) :
    (x.encoded f m).frameIn m = { id := f.id, dlc := f.dlc, payload := f.payload } :=
  congrArg (fun c : Capture => ({ id := c.id, dlc := c.dlc, payload := c.payload } : WireFrame))
    (captureOf_encoded (x := x.encoded f m) hx hf m rfl)

theorem csCode_txcsWord : ∀ d : BitVec 4, csCode (txcsWord d) = 0xC := by decide

/-- The control word of a frame sent (R123, R368). -/
theorem txDoneWord_txcsWord (d : BitVec 4) (ts : BitVec 16) :
    txDoneWord (txcsWord d) ts = 0xC8200000#32 ||| (d.setWidth 32 <<< 16) ||| ts.setWidth 32 := by
  have hcode : ∀ d : BitVec 4, (txcsWord d &&& 0xF0FF0000#32) ||| 0x08000000#32 =
      0xC8200000#32 ||| (d.setWidth 32 <<< 16) := by decide
  rw [txDoneWord, hcode]

/-- An encoded transmit mailbox of a clocked controller outside freeze and low-power mode may be sent (R368). -/
theorem txEnabled_encoded {c : Config} {x : Inst} (f : Frame) {m : Nat} (hx : x.Wf c) (hmay : x.mayTransmit = true)
    (hm : m ≤ 1) : (x.encoded f m).txEnabled m = true := by
  obtain ⟨-, hcontrol, -, -⟩ := encoded_load f m hx.canonical
  have hcs : (x.encoded f m).mb m 0 = txcsWord f.dlc := hcontrol
  have hlock : x.lock ≠ some m := fun h => by
    have hrange := (hx.lockRange m h).1
    omega
  have hmay' : (x.encoded f m).mayTransmit = true := hmay
  have hlock' : (x.encoded f m).lock ≠ some m := hlock
  simp [Inst.txEnabled, hmay', hm, hcs, csCode_txcsWord, hlock']

/-- What the send and `clr:` make of an encoded interface (R302, R368). -/
theorem sent_encoded {c : Config} {x : Inst} {f : Frame} (hx : x.Wf c) (hf : f.Wf) (m : Nat) :
    { (x.encoded f m).sent m with iflag := ((x.encoded f m).sent m).iflag &&& ~~~(1#32 <<< m) } = { x with
      ram := (Memory.encoded f m x.ram).store (mbNo m 0) (txDoneWord (txcsWord f.dlc) x.timer)
      iflag := x.iflag &&& ~~~(1#32 <<< m)
      wire := x.wire ++ [{ id := f.id, dlc := f.dlc, payload := f.payload }] } := by
  obtain ⟨-, hcontrol, -, -⟩ := encoded_load f m hx.canonical
  have hclear : (x.iflag ||| mbBit m) &&& ~~~(1#32 <<< m) = x.iflag &&& ~~~(1#32 <<< m) := by
    rw [BitVec.and_or_distrib_right, mbBit, BitVec.and_not_self]
    exact BitVec.or_zero
  rw [← frameIn_encoded hx.canonical hf m, ← hclear, ← hcontrol]
  rfl

/-! ## The micro-steps -/

section Ends

variable {s : State} {inst count m : Nat} {rest : List Move}

/-- `rdy:` on a ready STATUS: the mailbox number is of the value tested (R303). -/
theorem writeStep_rdy_ready {f : Frame} (ht : txReady (s.inst inst).status = true) :
    writeStep s inst count f .rdy = goto s (.write inst count f (.idw (lptm (s.inst inst).status))) := by
  simp [writeStep, regVal, Inst.reg, ht]

theorem fgMicro_write_unready (hg : s.gim = false) {f : Frame} (ht : txReady (s.inst inst).status = false) :
    fgMicro (goto s (.write inst count f .rdy)) = retWritten (goto s (.write inst count f .rdy)) .bufferFull 0 := by
  rw [fgMicro_write (s := goto s (.write inst count f .rdy)) hg rfl]
  simp [writeStep, regVal, Inst.reg, ht]

theorem fgMicro_write_chk (hg : s.gim = false) {f : Frame} (hl : s.groupLive = true) (hi : inst < s.cfg.nIf)
    (h1 : 1 ≤ count) (h2 : count ≤ s.cfg.txnMax) :
    fgMicro (goto s (.write inst count f .chk)) = goto s (.write inst count f .rdy) := by
  have hok : ¬ (s.cfg.nIf ≤ inst ∨ count = 0 ∨ s.cfg.txnMax < count) := by omega
  rw [fgMicro_write (s := goto s (.write inst count f .chk)) hg rfl]
  simp only [writeStep, goto_fields, hl, hok, Bool.not_true, Bool.false_eq_true, if_false]
  rfl

/-- WRITE as it ends with the poll timer at `v`, its interface changed as `g` and `h` both say. -/
theorem drive_retWritten_timed (hr : s.Ready) (v : Word) {g h : Inst → Inst} (hgh : g (s.inst inst) = h (s.inst inst))
    (r : OutcomeCode) (n : BitVec 8) :
    drive rest (retWritten ((s.timed v).modInst inst g) r n) = { s with
      agenda := rest, outcome := r, nwritten := n, ptVal := v, ptRun := true, insts := s.insts.modify inst h } := by
  rw [drive_idle rfl, modInst_congr (s.timed v) (g := h) hgh, retWritten, ret, ← hr.1]
  rfl

/-- The controller sends the mailbox of the command's interface while the command waits at `p` (R368). -/
theorem tx_run {g : Inst → Inst} {p : Phase} (hp : p ≠ .idle) (hcan : (g (s.inst inst)).txEnabled m = true) :
    drive (.env (.tx inst m) :: rest) (goto (s.modInst inst g) p) =
      drive rest (goto (s.modInst inst fun y => (g y).sent m) p) := by
  have hen : (g (s.inst inst)).enabled = true := by
    simp only [Inst.txEnabled, Inst.mayTransmit, Bool.and_eq_true] at hcan
    obtain ⟨⟨⟨⟨⟨hen, -⟩, -⟩, -⟩, -⟩, -⟩ := hcan
    exact hen
  rw [drive_env (by simpa using hp)]
  show drive rest (goto ((s.modInst inst g).modInst inst _) p) = _
  rw [modInst_modInst, modInst_congr s (g := fun y => (g y).sent m) (by simp [Inst.tx, hcan, hen])]

/-- WRITE on a ready interface, up to the first sample of its completion poll. -/
theorem exec_write_to_sample (hr : s.Ready) (hl : s.groupLive = true) (hi : inst < s.cfg.nIf) (h1 : 1 ≤ count)
    (h2 : count ≤ s.cfg.txnMax) (ht : txReady (s.inst inst).status = true)
    (ha : s.agenda = writeMoves (txFrame s.txf) ++ rest) (hm : lptm (s.inst inst).status = m) :
    exec (.write inst count) s = .next (drive rest (goto ((ptRestart s).modInst inst (Inst.encoded (txFrame s.txf) m))
      (.write inst count (txFrame s.txf) (.cmp m .sample)))) :=
  hm ▸ write_to_sample hr hl hi h1 h2 ht ha

/-- WRITE whose flag the sample misses, up to the deadline test after `n` poll-timer ticks (R173). -/
theorem exec_write_to_deadline (hwf : s.Wf) (hr : s.Ready) (hl : s.groupLive = true) (hi : inst < s.cfg.nIf)
    (h1 : 1 ≤ count) (h2 : count ≤ s.cfg.txnMax) (ht : txReady (s.inst inst).status = true) {n : Nat}
    (ha : s.agenda = writeMoves (txFrame s.txf) ++ (.fg :: (ptTicks n ++ rest)))
    (hm : lptm (s.inst inst).status = m) (hflag : (s.inst inst).iflag.getLsbD m = false) (hn : n ≤ 0xFFFFFFFF) :
    exec (.write inst count) s = .next (drive rest
      (goto ((s.timed (ticked n)).modInst inst (Inst.encoded (txFrame s.txf) m))
        (.write inst count (txFrame s.txf) (.cmp m .deadline)))) := by
  have hm32 : m < 32 := Nat.lt_of_le_of_lt (hm ▸ lptm_le ht) (by decide)
  have hsample := sample_clear_run (s := ptRestart s) (count := count) (f := txFrame s.txf) (rest := ptTicks n ++ rest)
    hr.2 (hwf.inst_lt hi) (Inst.encoded (txFrame s.txf) m) hm32 hflag
  have hticks := ptTicks_restarted (s := s.modInst inst (Inst.encoded (txFrame s.txf) m)) (rest := rest)
    (p := .write inst count (txFrame s.txf) (.cmp m .deadline)) (by simp) hn
  rw [exec_write_to_sample hr hl hi h1 h2 ht ha hm]
  exact congrArg _ (hsample.trans hticks)

end Ends

/-! ## The obligations -/

/-- Settles O45: `rdy:` reads STATUS once, tests it and takes the mailbox number from it. -/
theorem writeWithoutFreeMailbox : Obligations.WriteWithoutFreeMailbox := by
  refine ⟨fun v => rfl, fun s inst count f hg hp ht => ?_, fun s inst count rest hr hl hi h1 h2 ha ht => ⟨?_, rfl⟩⟩
  · rw [applyMove, fgMicro_write hg hp, writeStep_rdy_ready ht]
    rfl
  · show Host.Outcome.next (issue s (.write inst count (txFrame s.txf) .chk)) = _
    rw [issue_fg (rest := .fg :: rest) hr ha (by simp), fgMicro_write_chk hr.2 hl hi h1 h2, drive_fg (by simp),
      fgMicro_write_unready hr.2 ht, drive_idle rfl, retWritten_goto hr]

/-- Settles O44: the frame sent is the one encoded, and the send raises the flag that `clr:` clears. -/
theorem writeSendsFrame : Obligations.WriteSendsFrame := by
  intro s inst count rest hwf hr hl hi h1 h2 hmay ht x m d p ha
  have hx : x.Wf s.cfg := hwf.instAt hi
  have hm : m ≤ 1 := lptm_le ht
  have hm32 : m < 32 := Nat.lt_of_le_of_lt hm (by decide)
  have hflag : ((x.encoded (txFrame s.txf) m).sent m).iflag.getLsbD m = true := by
    simp [Inst.sent, mbBit_bit, hm32]
  have hsend := tx_run (s := ptRestart s) (rest := fgs 2 ++ rest) (g := Inst.encoded (txFrame s.txf) m)
    (p := .write inst count (txFrame s.txf) (.cmp m .sample)) (by simp) (txEnabled_encoded _ hx hmay hm)
  have hsample := sample_set_run (s := ptRestart s) (count := count) (f := txFrame s.txf) (rest := rest) hr.2
    (hwf.inst_lt hi) (fun y => (y.encoded (txFrame s.txf) m).sent m) hm32 hflag
  have hwords := (txWords_encoded s.txf hx.canonical m).setControl (encoded_wf _ m hx.canonical)
    (txDoneWord (txcsWord d) x.timer)
  refine ⟨_, ?_, hwords.id, hwords.control.trans (txDoneWord_txcsWord d x.timer), hwords.data, hwords.others⟩
  rw [exec_write_to_sample hr hl hi h1 h2 ht ha rfl]
  exact congrArg _ ((hsend.trans hsample).trans
    (drive_retWritten_timed hr 0xFFFFFFFF#32 (sent_encoded hx hwf.txFrame_wf m) .success 1))

/-- Settles O47: the first sample sees the flag that was set already. -/
theorem writeSucceedsOnStaleFlag : Obligations.WriteSucceedsOnStaleFlag := by
  intro s inst count rest hwf hr hl hi h1 h2 ht x m d p hflag ha
  have hm32 : m < 32 := Nat.lt_of_le_of_lt (lptm_le ht) (by decide)
  have hsample := sample_set_run (s := ptRestart s) (count := count) (f := txFrame s.txf) (rest := rest) hr.2
    (hwf.inst_lt hi) (Inst.encoded (txFrame s.txf) m) hm32 hflag
  have hwords := txWords_encoded s.txf (hwf.instAt hi).canonical m
  refine ⟨_, ?_, hwords.id, hwords.control, hwords.data, hwords.others⟩
  rw [exec_write_to_sample hr hl hi h1 h2 ht (ha.trans (List.append_assoc ..)) rfl]
  exact congrArg _ (hsample.trans (drive_retWritten_timed hr 0xFFFFFFFF#32 (by rfl) .success 1))

/-- Settles O46: the sample misses the flag, and the deadline test compares the ticks since `restart:` with
POLL_DEFAULT_TICKS. -/
theorem writeTimesOut : Obligations.WriteTimesOut := by
  intro s inst count rest hwf hr hl hi h1 h2 ht x m d p T hflag
  obtain ⟨-, -, -, -, -, -, -, hT, -⟩ := hwf.legal
  have hdeadline : ∀ n rest, drive (.fg :: rest) (goto ((s.timed (ticked n)).modInst inst
      (Inst.encoded (txFrame s.txf) m)) (.write inst count (txFrame s.txf) (.cmp m .deadline))) = _ := fun n rest =>
    deadline_run (s := s.timed (ticked n)) hr.2 _
  have hwords := txWords_encoded s.txf (hwf.instAt hi).canonical m
  refine ⟨fun ha => ?_, fun ha => ?_⟩
  · have ha' : s.agenda = writeMoves (txFrame s.txf) ++ (.fg :: (ptTicks (T + 1) ++ .fg :: rest)) := by
      simpa [fgs] using ha
    have hlate : (s.timed (ticked (T + 1))).cfg.pollDefaultTicks < elapsed (s.timed (ticked (T + 1))) := by
      rw [elapsed_ticked (by omega)]
      exact Nat.lt_succ_self T
    refine ⟨_, ?_, hwords.id, hwords.control, hwords.data, hwords.others⟩
    rw [exec_write_to_deadline hwf hr hl hi h1 h2 ht ha' rfl hflag (by omega), hdeadline, if_pos hlate]
    exact congrArg _ (drive_retWritten_timed hr (ticked (T + 1)) (by rfl) .failure 0)
  · have ha' : s.agenda = writeMoves (txFrame s.txf) ++ (.fg :: (ptTicks T ++ .fg :: [])) := by
      simpa [fgs] using ha
    have hearly : ¬ (s.timed (ticked T)).cfg.pollDefaultTicks < elapsed (s.timed (ticked T)) := by
      rw [elapsed_ticked (by omega)]
      exact Nat.lt_irrefl T
    rw [exec_write_to_deadline hwf hr hl hi h1 h2 ht ha' rfl hflag (by omega), hdeadline, if_neg hearly]
    exact ⟨_, rfl, rfl, rfl⟩

end Sys2Proof.Machine
end

section
/-! SUPPORT. What a foreground run of a command other than START leaves as it was: of GETIFC, GETMAXF, READ and SELECT
(R312, R320, R330, R331), and of WRITE (R196, R302, R305, R306). -/

namespace Sys2Proof.Machine

/-! ## Foreground runs -/

section Run

variable {s : State} {p : Phase}

/-- A frame `P` that FG's micro-steps keep along the phases `A` of a command, none of them START's, holds of a
foreground run of the command: bring-ups return only into START, and at IDLE or under a handler FG stands still. -/
theorem issue_frame {P : State → Prop} {A : Phase → Prop} (hfg : ∀ m ∈ s.agenda, m.foreground = true)
    (hagenda : ∀ {t} a, P t → P (t.withAgenda a)) (hgoto : P (goto s p)) (hA : A p)
    (hstart : ∀ n fs l, ¬ A (.start n fs l))
    (hmicro : ∀ {t}, P t → A t.phase → t.gim = false →
      P (fgMicro t) ∧ ((fgMicro t).phase = .idle ∨ A (fgMicro t).phase))
    (hs : P s) : P (issue s p) := by
  rcases issue_cases s p with h | h <;> rw [h]
  · exact hs
  have hkeep := drive_keeps (P := fun t => P t ∧ (t.phase = .idle ∨ A t.phase)) (fun a ht => ⟨hagenda a ht.1, ht.2⟩)
    s.agenda (s := goto s p) ?_ ⟨hgoto, .inr hA⟩
  · exact hkeep.1
  intro m hm t ⟨ht, hphase⟩
  have hnot : ∀ n fs l, t.phase ≠ .start n fs l := by
    intro n fs l he
    rcases hphase with hi | hi
    · simp [hi] at he
    · exact hstart n fs l (he ▸ hi)
  have hfm := hfg m hm
  cases m with
  | irqStart | irq | env | host => simp [Move.foreground] at hfm
  | clockBringup ok pt =>
    rw [applyMove, clockBringup_outside_start hnot]
    exact ⟨ht, hphase⟩
  | instBringup r pt =>
    rw [applyMove, instBringup_outside_start hnot]
    exact ⟨ht, hphase⟩
  | fg =>
    rw [applyMove]
    by_cases hg : t.gim = true
    · rw [fgMicro_still (.inl hg)]
      exact ⟨ht, hphase⟩
    rcases hphase with hi | hi
    · rw [fgMicro_still (.inr hi)]
      exact ⟨ht, .inl hi⟩
    · exact hmicro ht hi (by simpa using hg)

end Run

/-! ## Query commands -/

/-- `t` is `s` but for what GETIFC and GETMAXF may change. -/
def CountFrame (s t : State) : Prop :=
  ∃ a p o n, t = { s with agenda := a, phase := p, outcome := o, rcount := n }

/-- `t` is `s` but for what SELECT may change. -/
def SelectFrame (s t : State) : Prop :=
  ∃ a p o v r, t = { s with agenda := a, phase := p, outcome := o, ptVal := v, ptRun := r }

/-- `t` is `s` but for what READ of interface `i` may change. -/
structure ReadFrame (i : Nat) (s t : State) : Prop where
  others : ∃ a p o f xs, t = { s with agenda := a, phase := p, outcome := o, rxf := f, insts := xs }
  inst : ∀ j, t.inst j = { s.inst j with queue := (t.inst j).queue } ∧ (j ≠ i → t.inst j = s.inst j)

section Query

variable {s t : State}

theorem CountFrame.reported (h : CountFrame s t) (r : OutcomeCode) (n : BitVec 8) :
    CountFrame s { ret t r with rcount := n } := by
  obtain ⟨a, p, o, m, rfl⟩ := h
  exact ⟨a, .idle, r, n, rfl⟩

theorem SelectFrame.goto (h : SelectFrame s t) (p : Phase) : SelectFrame s (goto t p) := by
  obtain ⟨a, -, o, v, r, rfl⟩ := h
  exact ⟨a, p, o, v, r, rfl⟩

theorem SelectFrame.ret (h : SelectFrame s t) (o : OutcomeCode) : SelectFrame s (ret t o) := by
  obtain ⟨a, p, -, v, r, rfl⟩ := h
  exact ⟨a, .idle, o, v, r, rfl⟩

theorem SelectFrame.ptRestart (h : SelectFrame s t) : SelectFrame s (ptRestart t) := by
  obtain ⟨a, p, o, -, -, rfl⟩ := h
  exact ⟨a, p, o, _, _, rfl⟩

/-- SELECT goes on in SELECT or returns. -/
theorem selectStep_frame (h : SelectFrame s t) (g : Bool) (tmo : Word) (l : SelectLabel) :
    SelectFrame s (selectStep t g tmo l) ∧
      ((selectStep t g tmo l).phase = .idle ∨ ∃ l', (selectStep t g tmo l).phase = .select g tmo l') := by
  cases l with
  | restart => exact ⟨h.ptRestart.goto _, .inr ⟨_, rfl⟩⟩
  | chk | q | t | deadline =>
    simp only [selectStep]
    split
    · exact ⟨h.ret _, .inl rfl⟩
    · exact ⟨h.goto _, .inr ⟨_, rfl⟩⟩

theorem ReadFrame.sequenced {i : Nat} (h : ReadFrame i s t) (p : Phase) (o : OutcomeCode) (a : List Move) :
    ReadFrame i s { t with phase := p, outcome := o, agenda := a } where
  others := by
    obtain ⟨-, -, -, f, xs, rfl⟩ := h.others
    exact ⟨a, p, o, f, xs, rfl⟩
  inst := h.inst

theorem ReadFrame.received {i : Nat} (h : ReadFrame i s t) (f : RxResult) : ReadFrame i s { t with rxf := f } where
  others := by
    obtain ⟨a, p, o, -, xs, rfl⟩ := h.others
    exact ⟨a, p, o, f, xs, rfl⟩
  inst := h.inst

theorem ReadFrame.pop {i : Nat} (h : ReadFrame i s t) : ReadFrame i s (pop t i) where
  others := by
    obtain ⟨a, p, o, f, -, rfl⟩ := h.others
    exact ⟨a, p, o, f, _, rfl⟩
  inst j := by
    obtain ⟨hown, hother⟩ := h.inst j
    rcases inst_modInst_cases t i (fun x => { x with queue := x.queue.tail }) j with he | ⟨rfl, he⟩
    · rw [Machine.pop, he]
      exact ⟨hown, hother⟩
    · rw [Machine.pop, he]
      exact ⟨congrArg (fun x : Inst => { x with queue := (t.inst j).queue.tail }) hown, fun hne => absurd rfl hne⟩

/-- READ goes on at `pop:` or returns. -/
theorem readStep_frame {i : Nat} (h : ReadFrame i s t) (l : ReadLabel) :
    ReadFrame i s (readStep t i l) ∧
      ((readStep t i l).phase = .idle ∨ ∃ l', (readStep t i l).phase = .read i l') := by
  cases l with
  | chk =>
    simp only [readStep]
    split
    · exact ⟨h.sequenced _ _ t.agenda, .inl rfl⟩
    split
    · exact ⟨h.sequenced _ _ t.agenda, .inl rfl⟩
    · exact ⟨h.sequenced _ t.outcome t.agenda, .inr ⟨_, rfl⟩⟩
  | pop =>
    simp only [readStep]
    split
    · exact ⟨h.sequenced _ _ t.agenda, .inl rfl⟩
    · exact ⟨(h.pop.sequenced _ _ (pop t i).agenda).received _, .inl rfl⟩

end Query

/-- The frame of a command whose one micro-step reports a count (R330, R331; log 18). -/
theorem issue_count_frame {s : State} {p : Phase} (hfg : ∀ m ∈ s.agenda, m.foreground = true)
    (hstart : ∀ n fs l, Phase.start n fs l ≠ p)
    (hmicro : ∀ {t}, t.gim = false → t.phase = p → ∃ r n, fgMicro t = { ret t r with rcount := n }) :
    CountFrame s (issue s p) := by
  refine issue_frame (A := (· = p)) hfg (fun a ⟨_, p, o, n, h⟩ => ⟨a, p, o, n, h ▸ rfl⟩) ⟨_, _, _, _, rfl⟩ rfl hstart
    (fun {t} h hp hg => ?_) ⟨_, _, _, _, rfl⟩
  obtain ⟨r, n, hm⟩ := hmicro hg hp
  rw [hm]
  exact ⟨h.reported r n, .inl rfl⟩

/-- Settles O57: each query command keeps its frame along its own phases. -/
theorem queryCommandsFrame : Obligations.QueryCommandsFrame := by
  intro s t hfg
  refine ⟨fun ht => ?_, fun ht => ?_, fun i ht => ?_, fun g ht => ?_⟩
  · obtain rfl : issue s .getifc = t := by simpa [exec, execGetifc] using ht
    obtain ⟨a, p, o, n, h⟩ := issue_count_frame hfg (by simp) fun hg hp => ⟨_, _, fgMicro_getifc hg hp⟩
    rw [h]
  · obtain rfl : issue s .getmaxf = t := by simpa [exec, execGetmaxf] using ht
    obtain ⟨a, p, o, n, h⟩ := issue_count_frame hfg (by simp) fun hg hp => ⟨_, _, fgMicro_getmaxf hg hp⟩
    rw [h]
  · obtain rfl : issue s (.read i .chk) = t := by simpa [exec, execRead] using ht
    have hrefl : ReadFrame i s s := ⟨⟨_, _, _, _, _, rfl⟩, fun _ => ⟨rfl, fun _ => rfl⟩⟩
    have hframe : ReadFrame i s (issue s (.read i .chk)) := issue_frame (A := fun p => ∃ l, p = .read i l) hfg
      (fun {t} a h => h.sequenced t.phase t.outcome a) (hrefl.sequenced _ s.outcome s.agenda) ⟨_, rfl⟩ (by simp)
      (fun h ⟨l, hp⟩ hg => fgMicro_read hg hp ▸ readStep_frame h l) hrefl
    obtain ⟨a, p, o, f, xs, h⟩ := hframe.others
    exact ⟨by rw [h], fun j => (hframe.inst j).1, fun j => (hframe.inst j).2⟩
  · obtain rfl : issue s (.select g s.tmo .chk) = t := by simpa [exec, execSelect] using ht
    have hrefl : SelectFrame s s := ⟨_, _, _, _, _, rfl⟩
    have hframe : SelectFrame s (issue s (.select g s.tmo .chk)) := issue_frame
      (A := fun p => ∃ l, p = .select g s.tmo l) hfg (fun a ⟨_, p, o, v, r, h⟩ => ⟨a, p, o, v, r, h ▸ rfl⟩)
      (hrefl.goto _) ⟨_, rfl⟩ (by simp) (fun h ⟨l, hp⟩ hg => fgMicro_select hg hp ▸ selectStep_frame h g s.tmo l) hrefl
    obtain ⟨a, p, o, v, r, h⟩ := hframe
    rw [h]

end Sys2Proof.Machine
end

section
/-! SUPPORT. The frame of WRITE over a foreground run (R196, R302, R305, R306). -/

namespace Sys2Proof.Machine

/-! ## One interface -/

/-- `y` is interface `x` but for what WRITE of `n` data words changes: words of the transmit mailbox that the STATUS of
`x` reports and its flag, and nothing where that STATUS is not ready. -/
structure Inst.WriteFrame (n : Nat) (x y : Inst) : Prop where
  fields : y = { x with ram := y.ram, iflag := y.iflag }
  iflag : y.iflag = x.iflag ∨ y.iflag = x.iflag &&& ~~~(1#32 <<< lptm x.status)
  canonical : y.ram.wf = true
  words : ∀ a, (∀ k, k < 2 + n → a ≠ mbNo (lptm x.status) k) → y.ram.load a = x.ram.load a
  notReady : txReady x.status = false → y = x

section Inst

variable {n : Nat} {x y : Inst}

theorem Inst.WriteFrame.refl (n : Nat) (hx : x.ram.wf = true) : WriteFrame n x x :=
  ⟨rfl, .inl rfl, hx, fun _ _ => rfl, fun _ => rfl⟩

theorem Inst.WriteFrame.status (h : WriteFrame n x y) : y.status = x.status := by rw [h.fields]

/-- A word of the frame stored. -/
theorem Inst.WriteFrame.setMb (h : WriteFrame n x y) (ht : txReady x.status = true) {k : Nat} (hk : k < 2 + n)
    (v : Word) : WriteFrame n x (y.setMb (lptm x.status) k v) where
  fields := congrArg (fun z : Inst => z.setMb (lptm x.status) k v) h.fields
  iflag := h.iflag
  canonical := store_wf h.canonical _ _
  words a ha := by
    exact (load_store h.canonical _ a v).trans ((if_neg (ha k hk)).trans (h.words a ha))
  notReady hnot := by simp [ht] at hnot

/-- The completion flag cleared. -/
theorem Inst.WriteFrame.clearFlag (h : WriteFrame n x y) (ht : txReady x.status = true) (c : Config) :
    WriteFrame n x (y.regWritten c .iflag (mbBit (lptm x.status))) where
  fields := congrArg (fun z : Inst => z.regWritten c .iflag (mbBit (lptm x.status))) h.fields
  iflag := by
    right
    show y.iflag &&& ~~~(1#32 <<< lptm x.status) = _
    rcases h.iflag with he | he <;> rw [he]
    rw [BitVec.and_assoc, BitVec.and_self]
  canonical := h.canonical
  words := h.words
  notReady hnot := by simp [ht] at hnot

end Inst

/-! ## Runs -/

/-- `t` is `s` but for what WRITE of `n` data words on interface `inst` may change. -/
structure WriteFrame (inst n : Nat) (s t : State) : Prop where
  others : ∃ a p o w v r xs,
    t = { s with agenda := a, phase := p, outcome := o, nwritten := w, ptVal := v, ptRun := r, insts := xs }
  own : (s.inst inst).WriteFrame n (t.inst inst)
  other : ∀ j, j ≠ inst → t.inst j = s.inst j

/-- Where WRITE stands: past `rdy:` STATUS was ready and the mailbox is the one it reported (R303), and a data word is
one of the frame's (R196). -/
def WriteLabel.Latched (x : Inst) (n : Nat) : WriteLabel → Prop
  | .chk | .rdy => True
  | .idw m | .csw m | .cmp m _ | .clr m => m = lptm x.status ∧ txReady x.status = true
  | .dw m w => m = lptm x.status ∧ txReady x.status = true ∧ w < n

section Run

variable {s t : State} {inst n : Nat}

theorem WriteFrame.goto (h : WriteFrame inst n s t) (p : Phase) : WriteFrame inst n s (goto t p) where
  others := by
    obtain ⟨a, -, o, w, v, r, xs, rfl⟩ := h.others
    exact ⟨a, p, o, w, v, r, xs, rfl⟩
  own := h.own
  other := h.other

theorem WriteFrame.withAgenda (h : WriteFrame inst n s t) (a : List Move) : WriteFrame inst n s (t.withAgenda a) where
  others := by
    obtain ⟨-, p, o, w, v, r, xs, rfl⟩ := h.others
    exact ⟨a, p, o, w, v, r, xs, rfl⟩
  own := h.own
  other := h.other

theorem WriteFrame.retWritten (h : WriteFrame inst n s t) (o : OutcomeCode) (w : BitVec 8) :
    WriteFrame inst n s (retWritten t o w) where
  others := by
    obtain ⟨a, -, -, -, v, r, xs, rfl⟩ := h.others
    exact ⟨a, .idle, o, w, v, r, xs, rfl⟩
  own := h.own
  other := h.other

theorem WriteFrame.waitState (h : WriteFrame inst n s t) (l : WaitLabel) : WriteFrame inst n s (waitState t l) where
  others := by
    obtain ⟨a, p, o, w, v, r, xs, rfl⟩ := h.others
    cases l with
    | restart => exact ⟨a, p, o, w, _, _, xs, rfl⟩
    | sample | deadline => exact ⟨a, p, o, w, v, r, xs, rfl⟩
  own := by
    rw [waitState_inst]
    exact h.own
  other j hj := by
    rw [waitState_inst]
    exact h.other j hj

theorem WriteFrame.modInst (h : WriteFrame inst n s t) {f : Inst → Inst}
    (hf : (s.inst inst).WriteFrame n (f (t.inst inst))) : WriteFrame inst n s (t.modInst inst f) where
  others := by
    obtain ⟨a, p, o, w, v, r, -, rfl⟩ := h.others
    exact ⟨a, p, o, w, v, r, _, rfl⟩
  own := by
    rcases inst_modInst_cases t inst f inst with he | ⟨-, he⟩ <;> rw [he]
    · exact h.own
    · exact hf
  other j hj := by
    rw [inst_modInst_ne t hj]
    exact h.other j hj

/-- WRITE goes on in WRITE, its mailbox and data words the latched ones, or returns. -/
theorem writeStep_frame {count : Nat} {f : Frame} {l : WriteLabel} (hn : nwords (dlc2len f.dlc) = n)
    (h : WriteFrame inst n s t) (hl : l.Latched (s.inst inst) n) :
    WriteFrame inst n s (writeStep t inst count f l) ∧
      ((writeStep t inst count f l).phase = .idle ∨
        ∃ l', (writeStep t inst count f l).phase = .write inst count f l' ∧ l'.Latched (s.inst inst) n) := by
  subst hn
  cases l with
  | chk =>
    simp only [writeStep]
    split
    · exact ⟨h.retWritten .., .inl rfl⟩
    split
    · exact ⟨h.retWritten .., .inl rfl⟩
    · exact ⟨h.goto _, .inr ⟨_, rfl, trivial⟩⟩
  | rdy =>
    have hstatus : regVal t inst .status = (s.inst inst).status := h.own.status
    simp only [writeStep, hstatus]
    split
    · next ht => exact ⟨h.goto _, .inr ⟨_, rfl, rfl, ht⟩⟩
    · exact ⟨h.retWritten .., .inl rfl⟩
  | idw m =>
    obtain ⟨rfl, ht⟩ := hl
    exact ⟨(h.modInst (h.own.setMb ht (by omega) _)).goto _, .inr ⟨_, rfl, rfl, ht⟩⟩
  | csw m =>
    obtain ⟨rfl, ht⟩ := hl
    refine ⟨(h.modInst (h.own.setMb ht (by omega) _)).goto _, .inr ⟨_, rfl, ?_⟩⟩
    unfold afterControl
    split
    · next hw => exact ⟨rfl, ht, hw⟩
    · exact ⟨rfl, ht⟩
  | dw m w =>
    obtain ⟨rfl, ht, hw⟩ := hl
    refine ⟨(h.modInst (h.own.setMb ht (by omega) _)).goto _, .inr ⟨_, rfl, ?_⟩⟩
    split
    · next hw => exact ⟨rfl, ht, hw⟩
    · exact ⟨rfl, ht⟩
  | cmp m wl =>
    have hw := h.waitState wl
    simp only [writeStep]
    split
    · exact ⟨hw.goto _, .inr ⟨_, rfl, hl⟩⟩
    · exact ⟨hw.goto _, .inr ⟨_, rfl, hl⟩⟩
    · exact ⟨hw.retWritten .., .inl rfl⟩
  | clr m =>
    obtain ⟨rfl, ht⟩ := hl
    exact ⟨(h.modInst (h.own.clearFlag ht _)).retWritten .., .inl rfl⟩

theorem inst_ram_wf (h : s.Wf) (i : Nat) : (s.inst i).ram.wf = true := by
  by_cases hi : i < s.insts.length
  · exact (h.instWf _ (inst_mem s hi)).canonical
  · rw [inst_absent s (by omega)]
    rfl

end Run

/-- Settles O58: every micro-step of WRITE keeps the frame, with the mailbox latched at `rdy:`. -/
theorem writeFrame : Obligations.WriteFrame := by
  intro s t inst count hwf hfg ht x m n
  obtain rfl : issue s (.write inst count (txFrame s.txf) .chk) = t := by simpa [exec, execWrite] using ht
  have hrefl : WriteFrame inst n s s :=
    ⟨⟨_, _, _, _, _, _, _, rfl⟩, .refl n (inst_ram_wf hwf inst), fun _ _ => rfl⟩
  have hframe : WriteFrame inst n s (issue s (.write inst count (txFrame s.txf) .chk)) :=
    issue_frame (A := fun p => ∃ l, p = .write inst count (txFrame s.txf) l ∧ l.Latched x n) hfg
      (fun a h => h.withAgenda a) (hrefl.goto _) ⟨.chk, rfl, trivial⟩ (by simp)
      (fun h ⟨l, hp, hl⟩ hg => fgMicro_write hg hp ▸ writeStep_frame rfl h hl) hrefl
  obtain ⟨a, p, o, w, v, r, xs, h⟩ := hframe.others
  exact ⟨by rw [h], hframe.other, hframe.own.fields, hframe.own.iflag, hframe.own.words, hframe.own.notReady⟩

end Sys2Proof.Machine
end

section
/-! SUPPORT. The ends of START (R340): the whole group up, a Timeout of either collaborator (R342, R344), and a group
that is live already (R347). -/

namespace Sys2Proof.Machine

/-! ## What a bring-up that timed out makes of a restarted interface -/

theorem partialMask_restarted (c : Config) (x : Inst) (q : Nat × Word) :
    Inst.partialMask c x.restarted q = (Inst.partialMask c x q).restarted := by
  unfold Inst.partialMask
  split <;> rfl

theorem partialWord_restarted (c : Config) (x : Inst) (q : Nat × Nat × Word) :
    Inst.partialWord c x.restarted q = (Inst.partialWord c x q).restarted := by
  unfold Inst.partialWord
  split <;> rfl

/-- A bring-up that timed out reaches neither the queue nor the counter, which `rst:` cleared before it (R341, U3). -/
theorem partlyUp_restarted (c : Config) (x : Inst) (p : PartialBringup) :
    x.restarted.partlyUp c p = (x.partlyUp c p).restarted := by
  rw [Inst.partlyUp, List.foldl_hom Inst.restarted (partialMask_restarted c),
    List.foldl_hom Inst.restarted (partialWord_restarted c)]
  rfl

/-! ## The last moves -/

section Start

variable {s : State} {n k : Nat} {fs : List FilterReg} {up : Nat → UpRegs} {pt : Option Word} {rest : List Move}

/-- Which interfaces were changed does not depend on how often the poll timer was restarted. -/
theorem fseqDone_insts (s : State) (g : Nat → Inst → Inst) (k : Nat) :
    (s.fseqDone g k).insts = (s.modBelow k g).insts := by
  show (ptRestart (s.fseqDone g k)).insts = _
  rw [ptRestart_fseqDone]
  rfl

/-- START past the last interface makes the group live (R340 `live:`). -/
theorem start_live_run (hg : s.gim = false) :
    drive (.fg :: rest) (startNext n fs s.cfg.nIf s) =
      { retHandle s .success true with groupLive := true, agenda := rest } := by
  have hat : startNext n fs s.cfg.nIf s = goto s (.start n fs .live) := by
    rw [startNext, startLoop, if_neg (Nat.lt_irrefl _)]
  rw [hat, drive_fg (by simp), fgMicro_start (s := goto s (.start n fs .live)) hg rfl]
  exact drive_idle rfl rest

/-- INSTANCE_BRINGUP of interface `k` times out (R344, R346). -/
theorem start_bringup_timeout_run (hg : s.gim = false) (hk : k < s.cfg.nIf) (p : PartialBringup) :
    drive (.instBringup (.timeout p) pt :: rest) (startNext n fs k s) =
      { retHandle ((ptPolled s pt).modInst k fun x => x.partlyUp s.cfg p) .failure false with agenda := rest } := by
  have hat : startNext n fs k s = goto s (.start n fs (.up k)) := by rw [startNext, startLoop, if_pos hk]
  have hmove : applyMove (.instBringup (.timeout p) pt) (goto s (.start n fs (.up k))) =
      retHandle ((ptPolled s pt).modInst k fun x => x.partlyUp s.cfg p) .failure false := by
    simp only [applyMove, instBringup, goto_fields, hg, Bool.false_eq_true, if_false]
    rfl
  rw [hat, drive_cons (by simp), hmove]
  exact drive_idle rfl rest

/-- START from its issue to `clk:`, every interface restarted (R340, R341). -/
theorem start_to_clk_run (hr : s.Ready) (hl : s.groupLive = false) (hn : n ≤ s.cfg.fCap) :
    drive (fgs 2 ++ rest) (goto s (.start n fs .chk)) =
      drive rest (goto { s with insts := s.insts.map Inst.restarted } (.start n fs .clk)) := by
  have hchk : fgMicro (goto s (.start n fs .chk)) = goto s (.start n fs .rst) := by
    rw [fgMicro_start (s := goto s (.start n fs .chk)) hr.2 rfl]
    simp only [startStep, goto_fields, hl, Bool.false_eq_true, if_false, if_neg (Nat.not_lt.mpr hn)]
    rfl
  show drive (.fg :: .fg :: rest) _ = _
  rw [drive_fg (by simp), hchk, drive_fg (by simp), fgMicro_start (s := goto s (.start n fs .rst)) hr.2 rfl]
  rfl

/-! ## The three ends -/

/-- Both collaborators Ok and every acknowledge in time (R340). -/
theorem exec_start_whole (hwf : s.Wf) (hr : s.Ready) (hl : s.groupLive = false) (hn : n ≤ s.cfg.fCap)
    (ha : s.agenda = startMoves s.cfg n up pt ++ rest) :
    ∃ t, exec (.start n) s = .next t ∧
      t = { s with
        agenda := rest, clkLo := 0xFFFFFFFF#32, clkHi := 0xFFFFFFFF#32, clkRun := true
        outcome := .success, handle := true, groupLive := true, ptVal := 0xFFFFFFFF#32, ptRun := true
        insts := t.insts } ∧
      t.insts = ((s.clocked pt).modBelow s.cfg.nIf fun i => Inst.started s.cfg (s.flt.take n) (up i)).insts := by
  set u := s.clocked pt with hu
  set g : Nat → Inst → Inst := fun i => Inst.started s.cfg (s.flt.take n) (up i)
  obtain ⟨hcfg, hgim, -⟩ := fseqDone_fields u g s.cfg.nIf
  have hlive := start_live_run (s := u.fseqDone g s.cfg.nIf) (n := n) (fs := s.flt.take n) (rest := rest)
    (hgim.trans hr.2)
  rw [hcfg] at hlive
  rw [exec_start_upTo (rest := .fg :: rest) hwf hr hl hn (Nat.le_refl _)
    (by rw [ha, startMoves, List.append_assoc]; rfl)]
  refine ⟨_, congrArg _ hlive, ?_, fseqDone_insts u g _⟩
  rw [fseqDone_of_pos u g _ hwf.legal.1]
  simp only [retHandle, ret, State.modBelow, ptRestart, hu, State.clocked, loadClock, ptPolled, hr.1]

/-- CLOCK_BRINGUP reports Timeout (R342). -/
theorem exec_start_clock_timeout (hwf : s.Wf) (hr : s.Ready) (hl : s.groupLive = false) (hn : n ≤ s.cfg.fCap)
    (ha : s.agenda = fgs 2 ++ .clockBringup false pt :: rest) :
    exec (.start n) s = .next { s with
      agenda := rest, outcome := .failure, ptVal := pt.getD s.ptVal, ptRun := pt.isSome || s.ptRun
      insts := s.insts.map Inst.restarted } := by
  set u : State := { s with insts := s.insts.map Inst.restarted }
  have hclk : applyMove (.clockBringup false pt) (goto u (.start n (s.flt.take n) .clk)) =
      retHandle (ptPolled u pt) .failure false := by
    simp only [applyMove, clockBringup, goto_fields, u, hr.2, Bool.false_eq_true, if_false]
    rfl
  show Host.Outcome.next (issue s (.start n (s.flt.take n) .chk)) = _
  rw [issue_ready hr, ha, start_to_clk_run hr hl hn, drive_cons (by simp), hclk, drive_idle rfl]
  simp only [retHandle, ret, ptPolled, u, hr.1, hwf.handleLive, hl]

/-- INSTANCE_BRINGUP of interface `k` reports Timeout (R344, R346). -/
theorem exec_start_bringup_timeout (hwf : s.Wf) (hr : s.Ready) (hl : s.groupLive = false) (hn : n ≤ s.cfg.fCap)
    {p : PartialBringup} (hk : k < s.cfg.nIf)
    (ha : s.agenda = startUpTo s.cfg n up pt k ++ .instBringup (.timeout p) pt :: rest) :
    ∃ t, exec (.start n) s = .next t ∧
      t = { s with
        agenda := rest, clkLo := 0xFFFFFFFF#32, clkHi := 0xFFFFFFFF#32, clkRun := true
        outcome := .failure
        ptVal := pt.getD (if k = 0 then s.ptVal else 0xFFFFFFFF#32)
        ptRun := pt.isSome || decide (0 < k) || s.ptRun
        insts := t.insts } ∧
      t.insts = (((s.clocked pt).modBelow k fun i => Inst.started s.cfg (s.flt.take n) (up i)).modInst k fun x =>
        x.partlyUp s.cfg p).insts := by
  set u := s.clocked pt with hu
  set g : Nat → Inst → Inst := fun i => Inst.started s.cfg (s.flt.take n) (up i)
  obtain ⟨hcfg, hgim, -⟩ := fseqDone_fields u g k
  have htimeout := start_bringup_timeout_run (s := u.fseqDone g k) (n := n) (fs := s.flt.take n) (rest := rest)
    (pt := pt) (hgim.trans hr.2) (by rw [hcfg]; exact hk) p
  rw [hcfg] at htimeout
  rw [exec_start_upTo hwf hr hl hn (Nat.le_of_lt hk) ha]
  refine ⟨_, congrArg _ htimeout, ?_, congrArg (fun xs : List Inst => xs.modify k fun x => x.partlyUp s.cfg p)
    (fseqDone_insts u g k)⟩
  cases k with
  | zero =>
    cases pt <;> simp [State.fseqDone, retHandle, ret, State.modInst, hu, State.clocked, loadClock, ptPolled, hr.1,
      hwf.handleLive, hl]
  | succ k =>
    simp [State.fseqDone, retHandle, ret, State.modInst, State.modBelow, ptRestart, hu, State.clocked, loadClock,
      ptPolled, hr.1, hwf.handleLive, hl]

end Start

/-- What START makes of an interface it brought up (R278, R341, R344, R345). -/
theorem started_refiltered {s : State} (hwf : s.Wf) {n i : Nat} (hn : n ≤ s.cfg.fCap) (hi : i < s.cfg.nIf)
    (pt : Option Word) (r : UpRegs) :
    Refiltered s.cfg (s.flt.take n) true (afterBringup r (s.inst i))
      (Inst.started s.cfg (s.flt.take n) r ((s.clocked pt).inst i)) := by
  rw [Inst.started, clocked_broughtUp]
  exact refiltered_refiltered hwf.legal (by rw [latched_length hwf hn]; exact hn) true
    (x := afterBringup r (s.inst i)) (hwf.ram_wf hi)

/-! ## The obligations -/

/-- Settles O53: the bring-ups and FSEQs of the interfaces in order, up to `live:` or to the Timeout that ends START. -/
theorem startBringsUpGroup : Obligations.StartBringsUpGroup := by
  intro s n rest up pt hwf hr hl hn fs running
  have hlen := clocked_insts_length s pt
  refine ⟨fun ha => ?_, fun ha => exec_start_clock_timeout hwf hr hl hn ha, fun k p hk ha => ?_⟩
  · obtain ⟨t, hexec, hfields, hinsts⟩ := exec_start_whole hwf hr hl hn ha
    refine ⟨t, hexec, hfields, ?_, fun i hi => ?_⟩
    · rw [hinsts, modBelow_insts_length, hlen]
    · rw [inst_congr hinsts, modBelow_inst_lt _ _ _ hi (by rw [hlen]; exact hwf.inst_lt hi)]
      exact started_refiltered hwf hn hi pt (up i)
  · obtain ⟨t, hexec, hfields, hinsts⟩ := exec_start_bringup_timeout hwf hr hl hn hk ha
    obtain ⟨hlength, hbelow, hat, habove⟩ := modBelow_modInst_inst hinsts (by rw [hlen]; exact hwf.inst_lt hk)
    refine ⟨t, hexec, hfields, hlength.trans hlen, fun i hi => ?_, ?_, fun i hi _ => ?_⟩
    · rw [hbelow i hi]
      exact started_refiltered hwf hn (hi.trans hk) pt (up i)
    · rw [hat, clocked_inst, partlyUp_restarted]
      exact congrArg Inst.restarted (partlyUp_eq s.cfg (s.inst k) p)
    · rw [habove i hi, clocked_inst]
      rfl

/-- Settles O42: `chk:` refuses an oversized count first and a live group next, and HANDLE = GROUP_LIVE is part of
State.Wf. -/
theorem startWhileLiveFails : Obligations.StartWhileLiveFails := by
  refine ⟨fun s rest n hr ha hl => ?_, fun s t i hwf _ ht => (exec_wf hwf i ht).handleLive⟩
  have hchk := fgMicro_start (s := goto s (.start n (latchFilters n s.flt) .chk)) hr.2 rfl
  refine congrArg _ (issue_fg_ret hr ha (by simp) (hchk.trans ?_))
  simp only [startStep, goto_fields, hl, if_true]
  split <;> rfl

end Sys2Proof.Machine
end

section
/-! SUPPORT. STOP interface by interface (R350): the low-power acknowledge in time, or never (R355). Its polls
restart the poll timer as those of FSEQ do, so State.fseqDone says what stands after the first interfaces here too. -/

namespace Sys2Proof.Machine

/-! ## MCR through a low-power request -/

/-- The sample of LPMACK is bit 20 of MCR (R41). -/
theorem anySet_lpmackBit (v : Word) : anySet v lpmackBit = v.getLsbD 20 :=
  anySet_mbBit (m := 20) (by decide)

theorem mcrWritten_disable (v : Word) : mcrWritten v (v ||| mdisBit) = v ||| 0x80000000#32 := by
  refine mcrWritten_of_ack ?_
  rw [BitVec.and_or_distrib_right, show mdisBit &&& ackBits = 0#32 by decide, BitVec.or_zero]

/-- An interface whose low power was requested (R350 `lpr:`). -/
def Inst.disabling (x : Inst) : Inst := { x with mcr := x.mcr ||| 0x80000000#32 }

/-- An interface whose low power was requested and acknowledged (R372). -/
def Inst.lowPower (x : Inst) : Inst := { x with mcr := x.mcr ||| 0x88100000#32 }

/-- An interface STOP has gated off (R350 `gate:`). -/
def Inst.gated (x : Inst) : Inst := { x with enabled := false, mcr := x.mcr ||| 0x88100000#32 }

/-- The request stands, so the controller may acknowledge it (R372). -/
theorem lpAck_disabling (x : Inst) : x.disabling.lpAck = x.lowPower := by
  have hrequest : anySet x.disabling.mcr mdisBit = true := by
    show anySet (x.mcr ||| 0x80000000#32) (mbBit 31) = true
    rw [anySet_mbBit (by decide)]
    simp
  rw [Inst.lpAck, if_pos hrequest]
  show { x with mcr := x.mcr ||| 0x80000000#32 ||| (lpmackBit ||| notrdyBit) } = _
  rw [BitVec.or_assoc]
  rfl

theorem holds_lowPower (x : Inst) : holds x.lowPower.mcr lpmackBit true = true := by
  show (anySet (x.mcr ||| 0x88100000#32) lpmackBit == true) = true
  rw [anySet_lpmackBit]
  simp

/-- The request itself is no acknowledge (R42, R355). -/
theorem holds_disabling {x : Inst} (h : x.mcr.getLsbD 20 = false) : holds x.disabling.mcr lpmackBit true = false := by
  show (anySet (x.mcr ||| 0x80000000#32) lpmackBit == true) = false
  rw [anySet_lpmackBit, BitVec.getLsbD_or, h]
  rfl

/-! ## Interfaces changed one after another -/

/-- A change of each of the first `k` interfaces, `k` being all of them. -/
theorem modBelow_all {s : State} {k : Nat} (hk : s.insts.length ≤ k) (f : Inst → Inst) :
    s.modBelow k (fun _ => f) = { s with insts := s.insts.map f } := by
  have hsame : s.insts.mapIdx (fun j x => if j < k then f x else x) = s.insts.map f :=
    List.ext_getElem (by simp) fun j hj _ => by
      simp only [List.getElem_mapIdx, List.getElem_map]
      exact if_pos (by rw [List.length_mapIdx] at hj; omega)
  rw [State.modBelow, hsame]

/-- The interfaces below `k` changed by `f`, and interface `k` by `h`. -/
theorem modBelow_modInst_insts (s : State) (k : Nat) (f h : Inst → Inst) :
    ((s.modBelow k fun _ => f).modInst k h).insts =
      s.insts.mapIdx fun i x => if i < k then f x else if i = k then h x else x := by
  refine List.ext_getElem (by simp [State.modInst, State.modBelow]) fun j _ _ => ?_
  simp only [State.modInst, State.modBelow, List.getElem_modify, List.getElem_mapIdx]
  rcases Nat.lt_trichotomy j k with hj | rfl | hj
  · rw [if_neg (by omega), if_pos hj, if_pos hj]
  · simp
  · rw [if_neg (by omega), if_neg (by omega), if_neg (by omega), if_neg (by omega)]

/-! ## The micro-steps on one interface -/

/-- STOP at the low-power request of interface `i`, or at `tmr:` past the last one (R350). -/
def stopNext (i : Nat) (s : State) : State := goto s (.stop (stopLoop s i))

section Stop

variable {s : State} {i k : Nat} {rest : List Move}

/-- FG's micro-step inside STOP. -/
theorem fgMicro_stop (hg : s.gim = false) {l : StopLabel} (hp : s.phase = .stop l) : fgMicro s = stopStep s l := by
  simp [fgMicro, hg, hp]

theorem stop_run (hg : s.gim = false) (l : StopLabel) :
    drive (.fg :: rest) (goto s (.stop l)) = drive rest (stopStep (goto s (.stop l)) l) := by
  rw [drive_fg (by simp), fgMicro_stop (s := goto s (.stop l)) hg rfl]

/-- STOP on interface `i` to the first sample of its poll (R350, R351, R172). -/
theorem stop_request_run (hg : s.gim = false) (hi : i < s.cfg.nIf) (hen : (s.inst i).enabled = true) :
    drive (fgs 3 ++ rest) (stopNext i s) =
      drive rest (goto ((ptRestart s).modInst i Inst.disabling) (.stop (.lpa i .sample))) := by
  have hat : stopNext i s = goto s (.stop (.lpr i)) := by rw [stopNext, stopLoop, if_pos hi]
  have hwrite : mcrWriteGated (goto s (.stop (.lpr2 i (s.inst i).mcr))) i ((s.inst i).mcr ||| mdisBit) =
      goto (s.modInst i Inst.disabling) (.stop (.lpr2 i (s.inst i).mcr)) := by
    rw [mcrWriteGated, goto_inst, if_pos hen]
    refine modInst_congr (goto s _) ?_
    show { s.inst i with mcr := mcrWritten (s.inst i).mcr ((s.inst i).mcr ||| mdisBit) } = _
    rw [mcrWritten_disable]
    rfl
  rw [hat, show fgs 3 ++ rest = .fg :: .fg :: .fg :: rest from rfl, stop_run hg]
  show drive _ (goto s (.stop (.lpr2 i (s.inst i).mcr))) = _
  rw [stop_run hg, stopStep, hwrite]
  exact stop_run (s := s.modInst i Inst.disabling) hg (.lpa i .restart)

/-- The sample goes on to the gate or to the deadline test (R173). -/
theorem stopStep_sample (s : State) (i : Nat) : stopStep s (.lpa i .sample) =
    goto (lpaState s i .sample) (.stop (if lpmackSeen s i then .gate i else .lpa i .deadline)) := by
  simp only [stopStep, lpaProgress, pollProgress]
  cases lpmackSeen s i <;> rfl

/-- The sample of a clocked interface sees LPMACK as it stands and changes nothing (R173, R176). -/
theorem stop_sample_run (hg : s.gim = false) (hen : (s.inst i).enabled = true) :
    drive (.fg :: rest) (goto s (.stop (.lpa i .sample))) =
      drive rest (goto s (.stop (if holds (s.inst i).mcr lpmackBit true then .gate i else .lpa i .deadline))) := by
  have hseen : lpmackSeen (goto s (.stop (.lpa i .sample))) i = holds (s.inst i).mcr lpmackBit true := if_pos hen
  have hstate : lpaState (goto s (.stop (.lpa i .sample))) i .sample = goto s (.stop (.lpa i .sample)) := if_pos hen
  rw [stop_run hg, stopStep_sample, hseen, hstate]
  rfl

/-- The deadline test past POLL_DEFAULT_TICKS ends STOP (R173, R355). -/
theorem stop_deadline_run (hg : s.gim = false) (h : s.cfg.pollDefaultTicks < elapsed s) :
    drive (.fg :: rest) (goto s (.stop (.lpa i .deadline))) = { ret s .failure with agenda := rest } := by
  have hlate : lpaProgress (goto s (.stop (.lpa i .deadline))) i .deadline = .failure :=
    if_pos (decide_eq_true h)
  rw [stop_run hg]
  simp only [stopStep, hlate]
  exact drive_idle rfl rest

/-- STOP on interface `i`, the low-power acknowledge in time (R350, R372). -/
theorem stop_gate_run (hg : s.gim = false) (hi : i < s.cfg.nIf) (hi' : i < s.insts.length)
    (hen : (s.inst i).enabled = true) :
    drive (gateMoves i ++ rest) (stopNext i s) =
      drive rest (stopNext (i + 1) ((ptRestart s).modInst i Inst.gated)) := by
  have hack : envMove (goto ((ptRestart s).modInst i Inst.disabling) (.stop (.lpa i .sample))) (.lpAck i) =
      goto ((ptRestart s).modInst i Inst.lowPower) (.stop (.lpa i .sample)) := by
    show goto (((ptRestart s).modInst i _).modInst i _) _ = _
    rw [modInst_modInst]
    congr 1
    exact modInst_congr (ptRestart s) ((if_pos hen).trans (lpAck_disabling _))
  have hinst : ((ptRestart s).modInst i Inst.lowPower).inst i = (s.inst i).lowPower :=
    inst_modInst_same (ptRestart s) hi' _
  rw [gateMoves, List.append_assoc, stop_request_run hg hi hen]
  show drive (.env (.lpAck i) :: .fg :: .fg :: rest) _ = _
  rw [drive_env (by simp), hack,
    stop_sample_run (s := (ptRestart s).modInst i Inst.lowPower) hg (by rw [hinst]; exact hen), hinst, holds_lowPower,
    if_pos rfl, stop_run (s := (ptRestart s).modInst i Inst.lowPower) hg]
  show drive rest (goto (((ptRestart s).modInst i _).modInst i _) _) = _
  rw [modInst_modInst]
  rfl

/-- STOP on interface `k`, low power never acknowledged, to its return (R355). -/
theorem stop_silent_run (hg : s.gim = false) (hk : k < s.cfg.nIf) (hk' : k < s.insts.length)
    (hen : (s.inst k).enabled = true) (hack : (s.inst k).mcr.getLsbD 20 = false)
    (hT : s.cfg.pollDefaultTicks ≤ 0xFFFFFFFE) :
    drive (fgs 4 ++ ptTicks (s.cfg.pollDefaultTicks + 1) ++ fgs 1 ++ rest) (stopNext k s) =
      { ret ((s.timed (ticked (s.cfg.pollDefaultTicks + 1))).modInst k Inst.disabling) .failure with
        agenda := rest } := by
  set T := s.cfg.pollDefaultTicks
  have hinst : ((ptRestart s).modInst k Inst.disabling).inst k = (s.inst k).disabling :=
    inst_modInst_same (ptRestart s) hk' _
  have hsample := stop_sample_run (s := (ptRestart s).modInst k Inst.disabling)
    (rest := ptTicks (T + 1) ++ .fg :: rest) hg (by rw [hinst]; exact hen)
  rw [hinst, holds_disabling hack, if_neg (by simp)] at hsample
  have hticks := ptTicks_restarted (s := s.modInst k Inst.disabling) (p := .stop (.lpa k .deadline))
    (rest := .fg :: rest) (by simp) (n := T + 1) (by omega)
  have hlate : T < elapsed ((s.timed (ticked (T + 1))).modInst k Inst.disabling) := by
    show T < elapsed (s.timed (ticked (T + 1)))
    rw [elapsed_ticked (by omega)]
    exact Nat.lt_succ_self T
  have hmoves : fgs 4 ++ ptTicks (T + 1) ++ fgs 1 ++ rest = fgs 3 ++ (.fg :: (ptTicks (T + 1) ++ .fg :: rest)) := by
    simp [fgs]
  rw [hmoves, stop_request_run hg hk hen, hsample]
  exact hticks.trans (stop_deadline_run (s := (s.timed (ticked (T + 1))).modInst k Inst.disabling) hg hlate)

/-- STOP past the last interface: the clock chain stopped and the group ended (R350 `tmr:`, `dead:`). -/
theorem stop_dead_run (hg : s.gim = false) :
    drive (fgs 2 ++ rest) (stopNext s.cfg.nIf s) =
      { retHandle (loadClock s false) .success false with groupLive := false, agenda := rest } := by
  have hat : stopNext s.cfg.nIf s = goto s (.stop .tmr) := by
    rw [stopNext, stopLoop, if_neg (Nat.lt_irrefl _)]
  show drive (.fg :: .fg :: rest) _ = _
  rw [hat, stop_run hg]
  exact (stop_run (s := loadClock s false) hg .dead).trans (drive_idle rfl rest)

/-- STOP from its issue over the interfaces below `k`, each acknowledging in time (R350). -/
theorem exec_stop_upTo (hwf : s.Wf) (hr : s.Ready) (hk : k ≤ s.cfg.nIf)
    (hen : ∀ i, i < k → (s.inst i).enabled = true) (ha : s.agenda = (List.range k).flatMap gateMoves ++ rest) :
    exec .stop s = .next (drive rest (stopNext k (s.fseqDone (fun _ => Inst.gated) k))) := by
  have hstep : ∀ j, j < k → ∀ rest, drive (gateMoves j ++ rest) (stopNext j (s.fseqDone (fun _ => Inst.gated) j)) =
      drive rest (stopNext (j + 1) (s.fseqDone (fun _ => Inst.gated) (j + 1))) := by
    intro j hj rest
    obtain ⟨hcfg, hgim, hinsts⟩ := fseqDone_fields s (fun _ => Inst.gated) j
    rw [stop_gate_run (hgim.trans hr.2) (by rw [hcfg]; omega) (by rw [hinsts]; exact hwf.inst_lt (by omega))
      (by rw [fseqDone_inst_ge s _ j (Nat.le_refl j)]; exact hen j hj), modInst_fseqDone s (fun _ => Inst.gated) j]
  show Host.Outcome.next (issue s (.stop (stopLoop s 0))) = _
  rw [issue_ready hr, ha]
  exact congrArg _ (drive_flatMap_range (p := fun j => stopNext j (s.fseqDone (fun _ => Inst.gated) j)) k hstep rest)

/-- STOP over the interfaces below `k` to the poll of interface `k`, which times out (R355). -/
theorem exec_stop_silent (hwf : s.Wf) (hr : s.Ready) (hk : k < s.cfg.nIf)
    (hen : ∀ i, i ≤ k → (s.inst i).enabled = true) (hack : (s.inst k).mcr.getLsbD 20 = false)
    (ha : s.agenda = (List.range k).flatMap gateMoves ++
      (fgs 4 ++ ptTicks (s.cfg.pollDefaultTicks + 1) ++ fgs 1 ++ rest)) :
    exec .stop s = .next { s with
      agenda := rest, outcome := .failure, ptVal := ticked (s.cfg.pollDefaultTicks + 1), ptRun := true
      insts := ((s.modBelow k fun _ => Inst.gated).modInst k Inst.disabling).insts } := by
  obtain ⟨-, -, -, -, -, -, -, hT, -⟩ := hwf.legal
  obtain ⟨hcfg, hgim, hlen⟩ := fseqDone_fields s (fun _ => Inst.gated) k
  have hinst := fseqDone_inst_ge s (fun _ => Inst.gated) k (Nat.le_refl k)
  have hsilent := stop_silent_run (s := s.fseqDone (fun _ => Inst.gated) k) (rest := rest) (hgim.trans hr.2)
    (by rw [hcfg]; exact hk) (by rw [hlen]; exact hwf.inst_lt hk) (by rw [hinst]; exact hen k (Nat.le_refl k))
    (by rw [hinst]; exact hack) (by rw [hcfg]; exact hT)
  have htimed : ∀ v, (s.fseqDone (fun _ => Inst.gated) k).timed v = (s.timed v).modBelow k fun _ => Inst.gated :=
    fun v => congrArg (State.timed · v) (ptRestart_fseqDone s (fun _ => Inst.gated) k)
  rw [hcfg, htimed] at hsilent
  rw [exec_stop_upTo hwf hr (Nat.le_of_lt hk) (fun i hi => hen i (Nat.le_of_lt hi)) ha, hsilent]
  simp only [ret, State.modInst, State.modBelow, State.timed, hr.1]

end Stop

/-! ## The obligations -/

/-- Settles O54: each interface is gated off in turn, then `tmr:` and `dead:` end the group. -/
theorem stopGatesEveryInterface : Obligations.StopGatesEveryInterface := by
  intro s rest hwf hr hen ha
  have hall : s.fseqDone (fun _ => Inst.gated) s.cfg.nIf = { ptRestart s with insts := s.insts.map Inst.gated } := by
    rw [fseqDone_of_pos s _ _ hwf.legal.1, modBelow_all (s := ptRestart s) (Nat.le_of_eq hwf.instCount)]
    rfl
  rw [exec_stop_upTo (rest := fgs 2 ++ rest) hwf hr (Nat.le_refl _) hen
    (by rw [ha, stopMoves, List.append_assoc]), hall]
  refine congrArg _ ((stop_dead_run (s := { ptRestart s with insts := s.insts.map Inst.gated }) hr.2).trans ?_)
  simp only [retHandle, ret, loadClock, ptRestart, hr.1]
  rfl

/-- Settles O55: the interfaces below `k` are gated off, and the poll on `k` runs past POLL_DEFAULT_TICKS. -/
theorem stopAbortsAtSilentInterface : Obligations.StopAbortsAtSilentInterface := by
  intro s k rest hwf hr hk hen hack T ha
  have hmoves : s.agenda = (List.range k).flatMap gateMoves ++
      (fgs 4 ++ ptTicks (s.cfg.pollDefaultTicks + 1) ++ fgs 1 ++ rest) := by
    rw [ha]
    simp only [List.append_assoc, T]
  rw [exec_stop_silent hwf hr hk hen hack hmoves, modBelow_modInst_insts]
  rfl

end Sys2Proof.Machine
end

section
/-! SUPPORT. The frame of STOP over a foreground run (R350, R351, R355), and its micro-steps on an interface whose clock
is off (R462, U19; log 8). -/

namespace Sys2Proof.Machine

/-! ## An interface whose clock is off -/

/-- The MDIS write is stored or lost, as the free value drawn says (R462; log 8). -/
theorem mcrWriteGated_off {s : State} {i : Nat} (hoff : (s.inst i).enabled = false) (v : Word) :
    mcrWriteGated s i v = drawn (if Config.freeBit s.free then regWrite s i .mcr v else s) := by
  rw [mcrWriteGated, if_neg (by simp [hoff])]
  split <;> rfl

/-! ## What STOP keeps -/

/-- Words that agree outside MDIS, bit 31 (R41). -/
def AgreeButMdis (v w : Word) : Prop := ∀ b, b < 32 → b ≠ 31 → v.getLsbD b = w.getLsbD b

/-- `y` is interface `x` but for what STOP changes: the clock enable, which it only takes away, and MDIS. -/
structure Inst.StopFrame (x y : Inst) : Prop where
  fields : y = { x with enabled := y.enabled, mcr := y.mcr }
  enabled : y.enabled = true → x.enabled = true
  mcr : AgreeButMdis y.mcr x.mcr

/-- A state without what STOP may change outside the interfaces. -/
def State.stopKept (s : State) : State := { s.startKept with free := 0 }

theorem eq_of_stopKept {s t : State} (h : t.stopKept = s.stopKept) : t = { s with
    agenda := t.agenda, phase := t.phase, outcome := t.outcome, handle := t.handle, groupLive := t.groupLive,
    clkLo := t.clkLo, clkHi := t.clkHi, clkRun := t.clkRun, ptVal := t.ptVal, ptRun := t.ptRun, insts := t.insts,
    free := t.free } := by
  simp only [State.stopKept, State.startKept, State.reconfigKept, State.mk.injEq, true_and] at h
  cases t
  simpa using h

/-- `t` is `s` but for what STOP may change. -/
structure StopFrame (s t : State) : Prop where
  kept : t.stopKept = s.stopKept
  inst : ∀ j, (s.inst j).StopFrame (t.inst j)

/-- The value `lpr2:` writes is the one read one micro-step before, MDIS aside the MCR that STOP found (R350). -/
def StopLabel.Latched (s : State) : StopLabel → Prop
  | .lpr2 i v => AgreeButMdis v (s.inst i).mcr
  | .lpr _ | .lpa _ _ | .gate _ | .tmr | .dead => True

/-- Setting MDIS in a value that agrees with MCR elsewhere leaves the other bits as they were (R42, R351). -/
theorem mcrWritten_agreeButMdis {old v w : Word} (hold : AgreeButMdis old w) (hv : AgreeButMdis v w) :
    AgreeButMdis (mcrWritten old (v ||| mdisBit)) w := by
  intro b hb h31
  have hmdis : mdisBit.getLsbD b = false := by
    rw [show mdisBit = mbBit 31 from rfl, mbBit_bit]
    simp [h31]
  rw [mcrWritten_bit _ _ hb, BitVec.getLsbD_or, hmdis, Bool.or_false, hold b hb h31, hv b hb h31, ite_self]

section Run

variable {s t : State}

theorem StopFrame.refl (s : State) : StopFrame s s := ⟨rfl, fun _ => ⟨rfl, id, fun _ _ _ => rfl⟩⟩

/-- Outside the interfaces STOP changes only what is not framed. -/
theorem StopFrame.others (h : StopFrame s t) {u : State} (hkept : u.stopKept = t.stopKept)
    (hinsts : u.insts = t.insts) : StopFrame s u :=
  ⟨hkept.trans h.kept, fun j => inst_congr hinsts j ▸ h.inst j⟩

theorem StopFrame.modInst (h : StopFrame s t) (i : Nat) {f : Inst → Inst}
    (hf : (s.inst i).StopFrame (f (t.inst i))) : StopFrame s (t.modInst i f) := by
  refine ⟨h.kept, fun j => ?_⟩
  rcases inst_modInst_cases t i f j with he | ⟨rfl, he⟩ <;> rw [he]
  · exact h.inst j
  · exact hf

/-- The MDIS write, where it is stored (R351, R462). -/
theorem StopFrame.disable (h : StopFrame s t) {i : Nat} {v : Word} (hv : AgreeButMdis v (s.inst i).mcr) :
    StopFrame s (regWrite t i .mcr (v ||| mdisBit)) := by
  obtain ⟨hfields, henabled, hmcr⟩ := h.inst i
  refine h.modInst i ⟨?_, henabled, mcrWritten_agreeButMdis hmcr hv⟩
  exact congrArg (fun x : Inst => { x with mcr := mcrWritten (t.inst i).mcr (v ||| mdisBit) }) hfields

theorem StopFrame.mcrWriteGated (h : StopFrame s t) {i : Nat} {v : Word} (hv : AgreeButMdis v (s.inst i).mcr) :
    StopFrame s (mcrWriteGated t i (v ||| mdisBit)) := by
  unfold Machine.mcrWriteGated
  split
  · exact h.disable hv
  split
  · exact (h.disable hv).others rfl rfl
  · exact h.others rfl rfl

/-- Low power is polled, not written (R350 `lpa:`, R176). -/
theorem StopFrame.lpaState (h : StopFrame s t) (i : Nat) (w : WaitLabel) : StopFrame s (lpaState t i w) := by
  cases w with
  | restart => exact h.others rfl rfl
  | sample =>
    simp only [Machine.lpaState]
    split
    · exact h
    · exact h.others rfl rfl
  | deadline => exact h

theorem StopFrame.gateOff (h : StopFrame s t) (i : Nat) : StopFrame s (gateOff t i) := by
  obtain ⟨hfields, -, hmcr⟩ := h.inst i
  exact h.modInst i ⟨congrArg (fun x : Inst => { x with enabled := false }) hfields, by simp, hmcr⟩

theorem stopLoop_latched (s t : State) (i : Nat) : (stopLoop t i).Latched s := by
  unfold stopLoop
  split <;> trivial

/-- STOP goes on in STOP, the MCR value it writes the one it read, or returns. -/
theorem stopStep_frame (h : StopFrame s t) {l : StopLabel} (hl : l.Latched s) :
    StopFrame s (stopStep t l) ∧
      ((stopStep t l).phase = .idle ∨ ∃ l', (stopStep t l).phase = .stop l' ∧ l'.Latched s) := by
  cases l with
  | lpr i => exact ⟨h.others rfl rfl, .inr ⟨_, rfl, (h.inst i).mcr⟩⟩
  | lpr2 i v => exact ⟨(h.mcrWriteGated hl).others rfl rfl, .inr ⟨_, rfl, trivial⟩⟩
  | lpa i w =>
    have hw := h.lpaState i w
    simp only [stopStep]
    split
    · exact ⟨hw.others rfl rfl, .inr ⟨_, rfl, trivial⟩⟩
    · exact ⟨hw.others rfl rfl, .inr ⟨_, rfl, trivial⟩⟩
    · exact ⟨hw.others rfl rfl, .inl rfl⟩
  | gate i => exact ⟨(h.gateOff i).others rfl rfl, .inr ⟨_, rfl, stopLoop_latched s t (i + 1)⟩⟩
  | tmr => exact ⟨h.others rfl rfl, .inr ⟨_, rfl, trivial⟩⟩
  | dead => exact ⟨h.others rfl rfl, .inl rfl⟩

end Run

/-- Settles O59: every micro-step of STOP keeps the frame; where the clock is off, the value drawn decides. -/
theorem stopFrame : Obligations.StopFrame := by
  refine ⟨fun s i v hg hoff hp => ⟨Config.freeBit s.free, ?_⟩, fun s i hg hoff hp => ⟨Config.freeBit s.free, ?_⟩,
    fun s t hfg ht => ?_⟩
  · rw [applyMove, fgMicro_stop hg hp, stopStep, mcrWriteGated_off hoff]
    split <;> rfl
  · have hseen : lpmackSeen s i = Config.freeBit s.free := if_neg (by simp [hoff])
    have hdrawn : lpaState s i .sample = drawn s := if_neg (by simp [hoff])
    rw [applyMove, fgMicro_stop hg hp, stopStep_sample, hseen, hdrawn]
    rfl
  · obtain rfl : issue s (.stop (stopLoop s 0)) = t := by simpa [exec, execStop] using ht
    have hframe : StopFrame s (issue s (.stop (stopLoop s 0))) :=
      issue_frame (A := fun p => ∃ l, p = .stop l ∧ l.Latched s) hfg (fun _ h => h.others rfl rfl)
        ((StopFrame.refl s).others rfl rfl) ⟨_, rfl, stopLoop_latched s s 0⟩ (by simp)
        (fun h ⟨l, hp, hl⟩ hg => fgMicro_stop hg hp ▸ stopStep_frame h hl) (.refl s)
    exact ⟨eq_of_stopKept hframe.kept, fun j =>
      ⟨(hframe.inst j).fields, (hframe.inst j).enabled, (hframe.inst j).mcr⟩⟩

end Sys2Proof.Machine
end

section
/-! SUPPORT. The ticks (R222, R363, R364): what one clock tick does to the chain and to each TIMER, and that no move
stops the poll timer (R408). -/

namespace Sys2Proof.Machine

/-! ## The clock tick -/

theorem toNat_clockValue (h l : Word) :
    (clockValue h l).toNat = (2 ^ 32 - 1 - h.toNat) * 2 ^ 32 + (2 ^ 32 - 1 - l.toNat) := by
  have hlt := (inv32 l).isLt
  rw [clockValue, BitVec.toNat_append, ← Nat.shiftLeft_add_eq_or_of_lt hlt, Nat.shiftLeft_eq]
  simp [inv32, BitVec.toNat_not]

/-- The chain counts down with a borrow into its upper word, so its complement counts up (R222, R363). -/
theorem clockValue_tick (h l : Word) :
    clockValue (if l = 0 then h - 1 else h) (if l = 0 then 0xFFFFFFFF#32 else l - 1) = clockValue h l + 1 := by
  have hh := h.isLt
  have hl := l.isLt
  rw [← BitVec.toNat_inj, BitVec.toNat_add]
  simp only [toNat_clockValue, BitVec.ofNat_eq_ofNat]
  by_cases h0 : l = 0#32
  · subst h0
    simp only [if_true, BitVec.toNat_sub, BitVec.toNat_ofNat]
    omega
  · have hpos : l.toNat ≠ 0 := fun h' => h0 (BitVec.eq_of_toNat_eq h')
    simp only [if_neg h0, BitVec.toNat_sub, BitVec.toNat_ofNat]
    omega

theorem inst_mapIdx {s : State} (f : Nat → Inst → Inst) {i : Nat} (hi : i < s.insts.length) :
    State.inst { s with insts := s.insts.mapIdx f } i = f i (s.inst i) := by
  simp [State.inst, List.getD_eq_getElem?_getD, hi]

theorem ticks_iff (frozen : List Nat) (x : Inst) (i : Nat) :
    x.ticks frozen i = true ↔ x.enabled = true ∧ (x.mcr.getLsbD 24 = false ∨ i ∈ frozen) := by
  simp [Inst.ticks, Inst.frzack, anySet_frzackBit]

theorem timerTick_eq (frozen : List Nat) (i : Nat) (x : Inst) : Inst.timerTick frozen i x =
    if x.enabled = true ∧ (x.mcr.getLsbD 24 = false ∨ i ∈ frozen) then { x with timer := x.timer + 1 } else x := by
  simp only [Inst.timerTick, ticks_iff]

theorem clkTick_running {s : State} (h : s.clkRun = true) (frozen : List Nat) : clkTick s frozen = { s with
    clkLo := if s.clkLo = 0 then 0xFFFFFFFF#32 else s.clkLo - 1
    clkHi := if s.clkLo = 0 then s.clkHi - 1 else s.clkHi
    insts := s.insts.mapIdx (Inst.timerTick frozen) } := if_pos h

theorem clkTick_stopped {s : State} (h : s.clkRun = false) (frozen : List Nat) : clkTick s frozen = s :=
  if_neg (by simp [h])

/-! ## The poll timer runs on -/

section PtRun

variable {s : State} (hr : s.ptRun = true)

include hr

theorem waitState_ptRun (w : WaitLabel) : (waitState s w).ptRun = true := by
  cases w with
  | restart => rfl
  | sample | deadline => exact hr

theorem fseqState_ptRun (i : Nat) (fs : List FilterReg) (hook : Bool) (l : FseqLabel) :
    (fseqState s i fs hook l).ptRun = true := by
  cases l with
  | ack1 w | rdy w =>
    simp only [fseqState]
    split
    · exact hr
    · exact waitState_ptRun hr w
  | ack2 w => exact waitState_ptRun hr w
  | hk => cases hook <;> exact hr
  | _ => exact hr

theorem reconfigStep_ptRun (count : Nat) (fs : List FilterReg) (l : ReconfigLabel) :
    (reconfigStep s count fs l).ptRun = true := by
  cases l with
  | chk =>
    simp only [reconfigStep]
    split
    · exact hr
    split
    · exact hr
    split <;> exact hr
  | seq i fl =>
    have hf := fseqState_ptRun hr i fs false fl
    simp only [reconfigStep]
    split
    · exact hf
    · exact hf
    split <;> exact hf

theorem startStep_ptRun (count : Nat) (fs : List FilterReg) (l : StartLabel) :
    (startStep s count fs l).ptRun = true := by
  cases l with
  | chk =>
    simp only [startStep]
    split
    · exact hr
    split <;> exact hr
  | rst | clk | tmr | up | live => exact hr
  | fp i fl =>
    have hf := fseqState_ptRun hr i fs true fl
    simp only [startStep]
    split <;> exact hf

theorem mcrWriteGated_ptRun (i : Nat) (v : Word) : (mcrWriteGated s i v).ptRun = true := by
  unfold mcrWriteGated
  split
  · exact hr
  split <;> exact hr

theorem lpaState_ptRun (i : Nat) (w : WaitLabel) : (lpaState s i w).ptRun = true := by
  cases w with
  | restart => rfl
  | deadline => exact hr
  | sample => simp only [lpaState]; split <;> exact hr

theorem stopStep_ptRun (l : StopLabel) : (stopStep s l).ptRun = true := by
  cases l with
  | lpr | gate | tmr | dead => exact hr
  | lpr2 i v => exact mcrWriteGated_ptRun hr i _
  | lpa i w =>
    have hw := lpaState_ptRun hr i w
    simp only [stopStep]
    split <;> exact hw

theorem writeStep_ptRun (inst count : Nat) (f : Frame) (l : WriteLabel) :
    (writeStep s inst count f l).ptRun = true := by
  cases l with
  | chk =>
    simp only [writeStep]
    split
    · exact hr
    split <;> exact hr
  | rdy => simp only [writeStep]; split <;> exact hr
  | idw | csw | dw | clr => exact hr
  | cmp m w =>
    have hw := waitState_ptRun hr w
    simp only [writeStep]
    split <;> exact hw

theorem readStep_ptRun (inst : Nat) (l : ReadLabel) : (readStep s inst l).ptRun = true := by
  cases l with
  | chk =>
    simp only [readStep]
    split
    · exact hr
    split <;> exact hr
  | pop => simp only [readStep]; split <;> exact hr

theorem selectStep_ptRun (ignw : Bool) (tmo : Word) (l : SelectLabel) :
    (selectStep s ignw tmo l).ptRun = true := by
  cases l with
  | restart => rfl
  | chk | q | t | deadline => simp only [selectStep]; split <;> exact hr

theorem fgMicro_ptRun : (fgMicro s).ptRun = true := by
  unfold fgMicro
  split
  · exact hr
  split
  · exact hr
  · exact hr
  · exact hr
  · exact startStep_ptRun hr ..
  · exact stopStep_ptRun hr _
  · exact writeStep_ptRun hr ..
  · exact readStep_ptRun hr ..
  · exact selectStep_ptRun hr ..
  · exact reconfigStep_ptRun hr ..

theorem irqStep_ptRun : (irqStep s).ptRun = true := by
  unfold irqStep
  split
  · exact hr
  · next r _ => cases r.label <;> simpa [rxirqStep] using hr

/-- A collaborator restarts the poll timer or leaves it as it is (R342, R181). -/
theorem ptPolled_ptRun (pt : Option Word) : (ptPolled s pt).ptRun = true := by simp [ptPolled, hr]

theorem clockBringup_ptRun (ok : Bool) (pt : Option Word) : (clockBringup s ok pt).ptRun = true := by
  have hp := ptPolled_ptRun hr pt
  unfold clockBringup
  split
  · split
    · exact hr
    split <;> exact hp
  · exact hr

theorem instBringup_ptRun (r : Bringup) (pt : Option Word) : (instBringup s r pt).ptRun = true := by
  have hp := ptPolled_ptRun hr pt
  unfold instBringup
  split
  · split
    · exact hr
    split <;> exact hp
  · exact hr

theorem envMove_ptRun (e : EnvMove) : (envMove s e).ptRun = true := by
  cases e with
  | clock | poll => simp only [envMove]; split <;> exact hr
  | clkTick => simp only [envMove, clkTick]; split <;> exact hr
  | ptTick => simp only [envMove, ptTick]; split <;> exact hr
  | _ => exact hr

theorem hostMove_ptRun (h : HostMove) : (hostMove s h).ptRun = true := by
  unfold hostMove
  split
  · cases h <;> exact hr
  · exact hr

/-- No move of any agent stops the poll timer (R408). -/
theorem applyMove_ptRun (m : Move) : (applyMove m s).ptRun = true := by
  cases m with
  | fg => exact fgMicro_ptRun hr
  | irqStart i => simp only [applyMove, irqStart]; split <;> exact hr
  | irq => exact irqStep_ptRun hr
  | clockBringup ok pt => exact clockBringup_ptRun hr ok pt
  | instBringup r pt => exact instBringup_ptRun hr r pt
  | env e => exact envMove_ptRun hr e
  | host h => exact hostMove_ptRun hr h

end PtRun

/-! ## The obligation -/

/-- Settles O24: CLK64 is the complement of the chain, which counts down, and the poll timer is restarted by some
moves and stopped by none. -/
theorem timersTick : Obligations.TimersTick := by
  refine ⟨fun s frozen hrun hlen => ?_, fun s frozen hstop => clkTick_stopped hstop frozen,
    fun s hrun hpos => if_pos ⟨hrun, hpos⟩, fun s hstill => if_neg ?_, fun s m hrun => applyMove_ptRun hrun m⟩
  · have htick : envMove s (.clkTick frozen) = _ := clkTick_running hrun frozen
    simp only [htick]
    refine ⟨clockValue_tick s.clkHi s.clkLo, trivial, List.length_mapIdx, fun i hi => ?_⟩
    exact (inst_mapIdx _ (hlen ▸ hi)).trans (timerTick_eq frozen i _)
  · rintro ⟨hrun, hpos⟩
    exact hstill.elim (by simp [hrun]) hpos

end Sys2Proof.Machine
end

section
/-! SUPPORT. The freeze and low-power acknowledges (R371, R372), on top of what a move of ENV on one interface does
(R361). -/

namespace Sys2Proof.Machine

/-! ## A move of ENV on one interface -/

theorem onEnabled_effect {s : State} {i : Nat} {f g : Inst → Inst} (hen : (s.inst i).enabled = true)
    (hf : f (s.inst i) = g (s.inst i)) : onEnabled s i f = s.modInst i g :=
  modInst_congr s ((if_pos hen).trans hf)

/-- A disabled interface does not move, nor one whose move has no effect (R361). -/
theorem onEnabled_idle {s : State} {i : Nat} {f : Inst → Inst}
    (h : (s.inst i).enabled = false ∨ f (s.inst i) = s.inst i) : onEnabled s i f = s := by
  refine (modInst_congr s (g := fun x => x) ?_).trans (modInst_id s i)
  rcases h with hoff | hf
  · exact if_neg (by simp [hoff])
  · exact (congrArg (fun y => if (s.inst i).enabled then y else s.inst i) hf).trans (ite_self _)

/-! ## The acknowledges of one interface -/

theorem freezeRequested_iff (x : Inst) :
    x.freezeRequested = true ↔ x.mcr.getLsbD 28 = true ∧ x.mcr.getLsbD 30 = true := by
  simp [Inst.freezeRequested, show haltBit = mbBit 28 from rfl, show frzBit = mbBit 30 from rfl, anySet_mbBit]

theorem anySet_mdisBit (v : Word) : anySet v mdisBit = v.getLsbD 31 := anySet_mbBit (m := 31) (by decide)

theorem freezeAck_eq (x : Inst) : x.freezeAck =
    if x.mcr.getLsbD 28 = true ∧ x.mcr.getLsbD 30 = true then { x with mcr := x.mcr ||| 0x09000000#32 } else x := by
  simp only [Inst.freezeAck, freezeRequested_iff]
  rfl

theorem freezeLeave_eq (x : Inst) (ready : Bool) : x.freezeLeave ready =
    if x.mcr.getLsbD 28 = true ∧ x.mcr.getLsbD 30 = true then x
    else { x with mcr := x.mcr &&& ~~~(if ready then 0x09000000#32 else 0x01000000#32) } := by
  simp only [Inst.freezeLeave, freezeRequested_iff]
  rfl

theorem becomeReady_eq (x : Inst) : x.becomeReady =
    if (x.mcr.getLsbD 28 = true ∧ x.mcr.getLsbD 30 = true) ∨ x.mcr.getLsbD 24 = true then x
    else { x with mcr := x.mcr &&& ~~~0x08000000#32 } := by
  simp only [Inst.becomeReady, Inst.frzack, anySet_frzackBit, Bool.or_eq_true, freezeRequested_iff]
  rfl

theorem lpAck_eq (x : Inst) : x.lpAck =
    if x.mcr.getLsbD 31 = true then { x with mcr := x.mcr ||| 0x08100000#32 } else x := by
  simp only [Inst.lpAck, anySet_mdisBit]
  rfl

/-! ## The obligation -/

/-- Settles O28: each acknowledge is a move on one enabled interface, decided by its request bits. -/
theorem freezeAndLowPowerAcknowledges : Obligations.FreezeAndLowPowerAcknowledges := by
  intro s i _ x set clear frozen
  refine ⟨fun hen hfrz => onEnabled_effect hen ?_, fun hen hfrz => onEnabled_effect hen ?_,
    fun hen hfrz => onEnabled_effect hen ?_, fun hen hfrz hack => onEnabled_effect hen ?_,
    fun hen hmdis => onEnabled_effect hen ?_, fun h => onEnabled_idle (h.imp_right fun hfrz => ?_),
    fun h r => onEnabled_idle (h.imp_right fun hfrz => ?_), fun h => onEnabled_idle (h.imp_right fun hstay => ?_),
    fun h => onEnabled_idle (h.imp_right fun hmdis => ?_)⟩
  · exact (freezeAck_eq x).trans (if_pos hfrz)
  · exact (freezeLeave_eq x false).trans (if_neg hfrz)
  · exact (freezeLeave_eq x true).trans (if_neg hfrz)
  · exact (becomeReady_eq x).trans (if_neg (not_or.mpr ⟨hfrz, Bool.eq_false_iff.mp hack⟩))
  · exact (lpAck_eq x).trans (if_pos hmdis)
  · exact (freezeAck_eq x).trans (if_neg hfrz)
  · exact (freezeLeave_eq x r).trans (if_pos hfrz)
  · exact (becomeReady_eq x).trans (if_pos hstay)
  · exact (lpAck_eq x).trans (if_neg (Bool.eq_false_iff.mp hmdis))

end Sys2Proof.Machine
end

section
/-! SUPPORT. The send (R368): its condition, and the control word it leaves. -/

namespace Sys2Proof.Machine

/-- A field of a word, bit by bit. -/
theorem extractLsb'_eq_of_bits {w : Word} {lo n : Nat} {v : BitVec n}
    (h : ∀ b, b < n → w.getLsbD (lo + b) = v.getLsbD b) : w.extractLsb' lo n = v := by
  apply BitVec.eq_of_getLsbD_eq
  intro b hb
  rw [BitVec.getLsbD_extractLsb', h b hb, decide_eq_true hb, Bool.true_and]

/-- Every field of the control word a send leaves: TIMESTAMP, CODE 0x8, the rest as before (R121, R368). -/
theorem txDoneWord_bit (cs : Word) (ts : BitVec 16) {b : Nat} (hb : b < 32) : (txDoneWord cs ts).getLsbD b =
    if b < 16 then ts.getLsbD b else if 24 ≤ b ∧ b < 28 then decide (b = 27) else cs.getLsbD b := by
  simp only [txDoneWord, BitVec.getLsbD_or, BitVec.getLsbD_and, BitVec.getLsbD_setWidth]
  interval_cases b <;> simp

theorem csCode_txDoneWord (cs : Word) (ts : BitVec 16) : csCode (txDoneWord cs ts) = 0x8 :=
  extractLsb'_eq_of_bits fun b hb => by
    rw [txDoneWord_bit _ _ (by omega), if_neg (by omega), if_pos (by omega)]
    interval_cases b <;> decide

theorem csTimestamp_txDoneWord (cs : Word) (ts : BitVec 16) : csTimestamp (txDoneWord cs ts) = ts :=
  extractLsb'_eq_of_bits fun b hb => by
    rw [txDoneWord_bit _ _ (by omega), if_pos (by omega), Nat.zero_add]

/-- The lock holds no transmit mailbox (R58), so it never stops a send. -/
theorem Inst.Wf.txEnabled_iff {c : Config} {x : Inst} (h : x.Wf c) (m : Nat) :
    x.txEnabled m = true ↔ x.enabled = true ∧ x.mcr.getLsbD 24 = false ∧ x.mcr.getLsbD 20 = false ∧ m ≤ 1 ∧
      csCode (x.mb m 0) = 0xC#4 := by
  have hlock : m ≤ 1 → x.lock ≠ some m := fun hm hl => by
    have hrange := (h.lockRange m hl).1
    omega
  simp only [Inst.txEnabled, Inst.mayTransmit, Inst.frzack, Inst.lpmack, anySet_frzackBit, anySet_lpmackBit,
    Bool.and_eq_true, Bool.not_eq_true', decide_eq_true_eq, beq_iff_eq, bne_iff_ne, and_assoc]
  exact ⟨fun ⟨hen, hfrz, hlp, hm, hcode, _⟩ => ⟨hen, hfrz, hlp, hm, hcode⟩,
    fun ⟨hen, hfrz, hlp, hm, hcode⟩ => ⟨hen, hfrz, hlp, hm, hcode, hlock hm⟩⟩

/-- Settles O27: ENV_TX happens exactly where the mailbox may be sent, and then is the model's `sent`. -/
theorem transmissionMoveEffect : Obligations.TransmissionMoveEffect := by
  intro s i m hwf hi x cs n t can
  have hiff : x.txEnabled m = true ↔ can := (hwf.instAt hi).txEnabled_iff m
  refine ⟨fun hnot => onEnabled_idle (.inr (if_neg (mt hiff.mp hnot))), fun hcan => ?_⟩
  exact ⟨txDoneWord cs x.timer, onEnabled_effect hcan.1 (if_pos (hiff.mpr hcan)), csCode_txDoneWord ..,
    csTimestamp_txDoneWord .., fun b h16 hb hcode => by
      rw [txDoneWord_bit _ _ hb, if_neg (by omega), if_neg (by omega)]⟩

end Sys2Proof.Machine
end

section
/-! SUPPORT. The reception (R365): its condition, the words it stores and the control word among them. -/

namespace Sys2Proof.Machine

/-! ## The control word -/

/-- Every field of the control word a reception leaves (R121, R365). -/
theorem rxControlWord_bit (brs esi srr : Bool) (code d : BitVec 4) (ts : BitVec 16) (other : Word) {b : Nat}
    (hb : b < 32) : (rxControlWord brs esi srr code d ts other).getLsbD b =
      if b < 16 then ts.getLsbD b else if b < 20 then d.getLsbD (b - 16)
      else if 24 ≤ b ∧ b < 28 then code.getLsbD (b - 24)
      else if b = 22 then srr else if b = 23 ∨ b = 28 then other.getLsbD b
      else if b = 29 then esi else if b = 30 then brs else decide (b = 21 ∨ b = 31) := by
  have hflag : ∀ (f : Bool) (v : Word), (if f then v else 0).getLsbD b = (f && v.getLsbD b) := fun f v => by
    cases f <;> simp
  simp only [rxControlWord, csReserved, BitVec.getLsbD_or, BitVec.getLsbD_and, BitVec.getLsbD_setWidth,
    BitVec.getLsbD_shiftLeft, hflag]
  interval_cases b <;> simp

section Fields

variable (brs esi srr : Bool) (code d : BitVec 4) (ts : BitVec 16) (other : Word)

theorem csCode_rxControlWord : csCode (rxControlWord brs esi srr code d ts other) = code :=
  extractLsb'_eq_of_bits fun b hb => by
    rw [rxControlWord_bit _ _ _ _ _ _ _ (by omega), if_neg (by omega), if_neg (by omega), if_pos (by omega),
      Nat.add_sub_cancel_left]

theorem csDlc_rxControlWord : csDlc (rxControlWord brs esi srr code d ts other) = d :=
  extractLsb'_eq_of_bits fun b hb => by
    rw [rxControlWord_bit _ _ _ _ _ _ _ (by omega), if_neg (by omega), if_pos (by omega), Nat.add_sub_cancel_left]

theorem csTimestamp_rxControlWord : csTimestamp (rxControlWord brs esi srr code d ts other) = ts :=
  extractLsb'_eq_of_bits fun b hb => by
    rw [rxControlWord_bit _ _ _ _ _ _ _ (by omega), if_pos (by omega), Nat.zero_add]

end Fields

/-- A full or overrun mailbox may be overrun, an empty one is filled (R365). -/
theorem toNat_rxCode : ∀ (code : BitVec 4) (overrun : Bool),
    (rxCode code overrun).toNat = if code.toNat = 0x4 ∨ overrun = false then 0x2 else 0x6 := by
  decide

/-! ## The condition -/

theorem matchesId_iff (x : Inst) (m : Nat) (id : BitVec 29) : x.matchesId m id = true ↔
    ∀ b, b < 29 → (x.rximr m).getLsbD b = true → id.getLsbD b = (x.mb m 1).getLsbD b := by
  have hbit : ∀ b, b < 29 → ((id ^^^ idOf (x.mb m 1)) &&& idOf (x.rximr m)).getLsbD b =
      ((id.getLsbD b ^^ (x.mb m 1).getLsbD b) && (x.rximr m).getLsbD b) := fun b hb => by
    simp [idOf, hb]
  rw [Inst.matchesId, beq_iff_eq]
  refine ⟨fun h b hb hmask => ?_, fun h => BitVec.eq_of_getLsbD_eq fun b hb => ?_⟩
  · have hzero := hbit b hb
    rw [h, hmask] at hzero
    simpa using hzero
  · rw [hbit b hb]
    cases hmask : (x.rximr m).getLsbD b with
    | false => simp
    | true => simp [h b hb hmask]

theorem armedCode_iff : ∀ code : BitVec 4, (code == 0x4 || code == 0x2 || code == 0x6) = true ↔
    code.toNat = 0x4 ∨ code.toNat = 0x2 ∨ code.toNat = 0x6 := by
  decide

theorem rxEnabled_iff (c : Config) (x : Inst) (m : Nat) (id : BitVec 29) (d : BitVec 4) (payload : List Byte) :
    x.rxEnabled c m id d payload = true ↔
      x.enabled = true ∧ x.mcr.getLsbD 24 = false ∧ x.mcr.getLsbD 27 = false ∧ x.mcr.getLsbD 20 = false ∧ 2 ≤ m ∧
      m < c.nMb ∧ (x.mb m 0).getLsbD 31 = true ∧ (x.mb m 0).getLsbD 21 = true ∧
      ((csCode (x.mb m 0)).toNat = 0x4 ∨ (csCode (x.mb m 0)).toNat = 0x2 ∨ (csCode (x.mb m 0)).toNat = 0x6) ∧
      x.lock ≠ some m ∧
      (∀ b, b < 29 → (x.rximr m).getLsbD b = true → id.getLsbD b = (x.mb m 1).getLsbD b) ∧
      payload.length = dlc2len d := by
  simp only [Inst.rxEnabled, Inst.mayReceive, Inst.frzack, Inst.notrdy, Inst.lpmack, Inst.armed, csEdl, csIde,
    anySet_frzackBit, anySet_notrdyBit, anySet_lpmackBit, Bool.and_eq_true, armedCode_iff, matchesId_iff,
    Bool.not_eq_true', decide_eq_true_eq, beq_iff_eq, bne_iff_ne, and_assoc]

/-! ## The words stored -/

/-- The memory a reception of `payload` under `id` leaves, `cs` its control word (R365). -/
def Memory.received (m : Nat) (id : BitVec 29) (payload : List Byte) (cs : Word) (r : Memory) : Memory :=
  (Memory.storeWords payload m 0 (nwords payload.length) (r.store (mbNo m 1) (idWord id))).store (mbNo m 0) cs

theorem setMbWords_packWord (p : List Byte) (m : Nat) : ∀ (k w : Nat) (x : Inst),
    x.setMbWords m (2 + w) ((List.range' w k).map (packWord p)) = { x with ram := Memory.storeWords p m w k x.ram }
  | 0, _, _ => rfl
  | k + 1, w, x => setMbWords_packWord p m k (w + 1) (x.setMb m (2 + w) (packWord p w))

theorem setMbWords_pack (p : List Byte) (m : Nat) (x : Inst) :
    x.setMbWords m 2 (pack p) = { x with ram := Memory.storeWords p m 0 (nwords p.length) x.ram } := by
  rw [pack, List.range_eq_range']
  exact setMbWords_packWord p m _ 0 x

theorem received_eq (x : Inst) (m : Nat) (id : BitVec 29) (d : BitVec 4) (payload : List Byte)
    (brs esi srr overrun : Bool) (other : Word) :
    x.received m id d payload brs esi srr overrun other = { x with
      ram := Memory.received m id payload
        (rxControlWord brs esi srr (rxCode (csCode (x.mb m 0)) overrun) d x.timer other) x.ram
      iflag := x.iflag ||| mbBit m } := by
  rw [Inst.received, setMbWords_pack]
  rfl

/-- What a reception leaves, word by word (R365). -/
theorem received_load (m : Nat) (id : BitVec 29) (payload : List Byte) (cs : Word) {r : Memory} (h : r.wf = true) :
    (Memory.received m id payload cs r).load (mbNo m 1) = idWord id ∧
    (∀ w, w < nwords payload.length →
      (Memory.received m id payload cs r).load (mbNo m (2 + w)) = packWord payload w) ∧
    (Memory.received m id payload cs r).load (mbNo m 0) = cs ∧
    ∀ a, (∀ k, k < 2 + nwords payload.length → a ≠ mbNo m k) →
      (Memory.received m id payload cs r).load a = r.load a := by
  have hid := store_wf h (mbNo m 1) (idWord id)
  have hdata := storeWords_wf payload m (nwords payload.length) 0 hid
  unfold Memory.received
  refine ⟨?_, fun w hw => ?_, ?_, fun a ha => ?_⟩
  · rw [load_store hdata, if_neg (by simp [mbNo]), storeWords_other _ _ _ _ hid, load_store h, if_pos rfl]
    intro j _ _
    simp only [mbNo]
    omega
  · rw [load_store hdata, if_neg (by simp only [mbNo]; omega)]
    exact storeWords_load _ _ _ _ hid w (Nat.zero_le _) (by omega)
  · rw [load_store hdata, if_pos rfl]
  · rw [load_store hdata, if_neg (ha 0 (by omega)), storeWords_other _ _ _ _ hid, load_store h,
      if_neg (ha 1 (by omega))]
    intro j _ hj
    exact ha (2 + j) (by omega)

/-! ## The obligation -/

/-- Settles O26: ENV_RX happens exactly where the mailbox may receive, and then is the model's `received`. -/
theorem receptionMoveEffect : Obligations.ReceptionMoveEffect := by
  intro s i m id d payload brs esi srr overrun other hwf hi x cs code t can
  have hiff : x.rxEnabled s.cfg m id d payload = true ↔ can := rxEnabled_iff ..
  refine ⟨fun hnot => onEnabled_idle (.inr (if_neg (mt hiff.mp hnot))), fun hcan => ?_⟩
  have heffect : x.rx s.cfg m id d payload brs esi srr overrun other = _ :=
    (if_pos (hiff.mpr hcan)).trans (received_eq ..)
  obtain ⟨hid, hdata, hcontrol, hothers⟩ := received_load m id payload
    (rxControlWord brs esi srr (rxCode (csCode cs) overrun) d x.timer other) (hwf.ram_wf hi)
  refine ⟨_, onEnabled_effect hcan.1 heffect, hid, hdata, ⟨_, hcontrol, ?_⟩, hothers⟩
  have hbit := fun {b : Nat} =>
    rxControlWord_bit (b := b) brs esi srr (rxCode (csCode cs) overrun) d x.timer other
  exact ⟨hbit (by decide), hbit (by decide), hbit (by decide), hbit (by decide), hbit (by decide), hbit (by decide),
    hbit (by decide), hbit (by decide), csDlc_rxControlWord .., csTimestamp_rxControlWord ..,
    (congrArg BitVec.toNat (csCode_rxControlWord ..)).trans (toNat_rxCode ..)⟩

end Sys2Proof.Machine
end

section
/-! SUPPORT. What a move of ENV may change (R361, R362): on one interface, and as a whole. -/

namespace Sys2Proof.Machine

/-! ## One interface -/

/-- `y` is interface `x` but for what ENV may change of it: the acknowledge bits, STATUS, rising IFLAG bits, TIMER,
words of unlocked mailboxes, and the wire log. -/
structure Inst.EnvFrame (x y : Inst) : Prop where
  fields : y = { x with
    mcr := y.mcr, status := y.status, iflag := y.iflag, timer := y.timer, ram := y.ram, wire := y.wire }
  mcr : ∀ b, ackBits.getLsbD b = false → y.mcr.getLsbD b = x.mcr.getLsbD b
  iflag : ∀ b, x.iflag.getLsbD b = true → y.iflag.getLsbD b = true
  canonical : y.ram.wf = true
  words : ∀ a, (∀ m k, k < 18 → a = mbNo m k → x.lock = some m) → y.ram.load a = x.ram.load a

section Inst

variable {x y : Inst}

theorem Inst.EnvFrame.refl (hx : x.ram.wf = true) : EnvFrame x x :=
  ⟨rfl, fun _ _ => rfl, fun _ => id, hx, fun _ _ => rfl⟩

/-- Acknowledge bits take any value. -/
theorem Inst.EnvFrame.acknowledged (h : EnvFrame x y) (mask : Word) (hmask : mask &&& ~~~ackBits = 0) (on : Bool) :
    EnvFrame x { y with mcr := setBits y.mcr mask on } where
  fields := congrArg (fun z : Inst => { z with mcr := setBits y.mcr mask on }) h.fields
  mcr b hb := by
    have hoff : mask.getLsbD b = false := Bool.eq_false_iff.mpr fun hm => by
      simp [within_iff.mp hmask b hm] at hb
    rw [← h.mcr b hb]
    cases on with
    | true => simp [setBits, hoff]
    | false => simpa [setBits, hoff] using BitVec.lt_of_getLsbD
  iflag := h.iflag
  canonical := h.canonical
  words := h.words

/-- Flags rise. -/
theorem Inst.EnvFrame.raised (h : EnvFrame x y) (v : Word) : EnvFrame x { y with iflag := x.iflag ||| v } where
  fields := congrArg (fun z : Inst => { z with iflag := x.iflag ||| v }) h.fields
  mcr := h.mcr
  iflag b hb := by rw [BitVec.getLsbD_or, hb, Bool.true_or]
  canonical := h.canonical
  words := h.words

/-- STATUS, TIMER and the wire log take any value. -/
theorem Inst.EnvFrame.observed (h : EnvFrame x y) (status : Word) (timer : BitVec 16) (wire : List WireFrame) :
    EnvFrame x { y with status := status, timer := timer, wire := wire } where
  fields := congrArg (fun z : Inst => { z with status := status, timer := timer, wire := wire }) h.fields
  mcr := h.mcr
  iflag := h.iflag
  canonical := h.canonical
  words := h.words

/-- A word of an unlocked mailbox takes any value. -/
theorem Inst.EnvFrame.setMb (h : EnvFrame x y) {m k : Nat} (hk : k < 18) (hlock : x.lock ≠ some m) (v : Word) :
    EnvFrame x (y.setMb m k v) where
  fields := congrArg (fun z : Inst => z.setMb m k v) h.fields
  mcr := h.mcr
  iflag := h.iflag
  canonical := store_wf h.canonical _ _
  words a ha :=
    (load_store h.canonical _ a v).trans ((if_neg fun he => hlock (ha m k hk he)).trans (h.words a ha))

theorem Inst.EnvFrame.setMbWords {m : Nat} (hlock : x.lock ≠ some m) :
    ∀ (ws : List Word) {k : Nat} {y : Inst}, EnvFrame x y → k + ws.length ≤ 18 → EnvFrame x (y.setMbWords m k ws)
  | [], _, _, h, _ => h
  | w :: ws, k, _, h, hk => by
    rw [List.length_cons] at hk
    exact setMbWords hlock ws (h.setMb (by omega) hlock w) (by omega)

variable (hx : x.ram.wf = true)

include hx

theorem setAck_envFrame (notrdy frzack lpmack : Bool) : x.EnvFrame (x.setAck notrdy frzack lpmack) :=
  (((Inst.EnvFrame.refl hx).acknowledged notrdyBit (by decide) notrdy).acknowledged frzackBit (by decide)
    frzack).acknowledged lpmackBit (by decide) lpmack

theorem freezeAck_envFrame : x.EnvFrame x.freezeAck := by
  unfold Inst.freezeAck
  split
  · exact (Inst.EnvFrame.refl hx).acknowledged (frzackBit ||| notrdyBit) (by decide) true
  · exact .refl hx

theorem freezeLeave_envFrame (ready : Bool) : x.EnvFrame (x.freezeLeave ready) := by
  have hmask : (if ready then frzackBit ||| notrdyBit else frzackBit) &&& ~~~ackBits = 0 := by
    cases ready <;> decide
  unfold Inst.freezeLeave
  split
  · exact .refl hx
  · exact (Inst.EnvFrame.refl hx).acknowledged _ hmask false

theorem becomeReady_envFrame : x.EnvFrame x.becomeReady := by
  unfold Inst.becomeReady
  split
  · exact .refl hx
  · exact (Inst.EnvFrame.refl hx).acknowledged notrdyBit (by decide) false

theorem lpAck_envFrame : x.EnvFrame x.lpAck := by
  unfold Inst.lpAck
  split
  · exact (Inst.EnvFrame.refl hx).acknowledged (lpmackBit ||| notrdyBit) (by decide) true
  · exact .refl hx

theorem pokeWord_envFrame (c : Config) (m k : Nat) (v : Word) : x.EnvFrame (x.pokeWord c m k v) := by
  unfold Inst.pokeWord
  split
  · next hfree => exact (Inst.EnvFrame.refl hx).setMb hfree.2.1 hfree.2.2 v
  · exact .refl hx

theorem report_envFrame (c : Config) (vps : Bool) (other : Word) : x.EnvFrame (x.report c vps other) := by
  unfold Inst.report
  split <;> exact (Inst.EnvFrame.refl hx).observed _ x.timer x.wire

theorem rx_envFrame (c : Config) (m : Nat) (id : BitVec 29) (d : BitVec 4) (payload : List Byte)
    (brs esi srr overrun : Bool) (other : Word) :
    x.EnvFrame (x.rx c m id d payload brs esi srr overrun other) := by
  unfold Inst.rx
  split
  · next hcan =>
    obtain ⟨-, -, -, -, -, -, -, -, -, hlock, -, hlen⟩ := (rxEnabled_iff ..).mp hcan
    have hwords : 2 + (pack payload).length ≤ 18 := by
      rw [pack_length, hlen]
      have hle := nwords_dlc_le d
      omega
    have hid := (Inst.EnvFrame.refl hx).setMb (k := 1) (by decide) hlock (idWord id)
    exact ((hid.setMbWords hlock (pack payload) hwords).setMb (k := 0) (by decide) hlock _).raised (mbBit m)
  · exact .refl hx

theorem tx_envFrame (m : Nat) : x.EnvFrame (x.tx m) := by
  unfold Inst.tx
  split
  · next hcan =>
    have hlock : x.lock ≠ some m := by
      simp only [Inst.txEnabled, Bool.and_eq_true, bne_iff_ne] at hcan
      exact hcan.2
    exact (((Inst.EnvFrame.refl hx).setMb (k := 0) (by decide) hlock (txDoneWord (x.mb m 0) x.timer)).raised
      (mbBit m)).observed x.status x.timer (x.wire ++ [x.frameIn m])
  · exact .refl hx

theorem timerTick_envFrame (frozen : List Nat) (i : Nat) : x.EnvFrame (Inst.timerTick frozen i x) := by
  unfold Inst.timerTick
  split
  · exact (Inst.EnvFrame.refl hx).observed x.status (x.timer + 1) x.wire
  · exact .refl hx

end Inst

/-! ## The whole move -/

/-- `t` is `s` but for what a move of ENV may change: the two timers where they run, and the interfaces enabled. -/
structure EnvFrame (s t : State) : Prop where
  others : t = { s with clkLo := t.clkLo, clkHi := t.clkHi, ptVal := t.ptVal, insts := t.insts }
  clock : s.clkRun = false → t.clkLo = s.clkLo ∧ t.clkHi = s.clkHi
  poll : s.ptRun = false → t.ptVal = s.ptVal
  inst : ∀ j, (s.inst j).EnvFrame (t.inst j)
  disabled : ∀ j, (s.inst j).enabled = false → t.inst j = s.inst j

section Moves

variable {s : State} (h : s.Wf)

include h

theorem EnvFrame.refl : EnvFrame s s :=
  ⟨rfl, fun _ => ⟨rfl, rfl⟩, fun _ => rfl, fun j => .refl (inst_ram_wf h j), fun _ _ => rfl⟩

theorem onEnabled_envFrame (i : Nat) {f : Inst → Inst} (hf : ∀ x : Inst, x.ram.wf = true → x.EnvFrame (f x)) :
    EnvFrame s (onEnabled s i f) := by
  have hinst : ∀ j, (onEnabled s i f).inst j = s.inst j ∨
      (s.inst j).enabled = true ∧ (onEnabled s i f).inst j = f (s.inst j) := fun j => by
    rcases inst_modInst_cases s i (fun x => if x.enabled then f x else x) j with he | ⟨-, he⟩
    · exact .inl he
    · cases hen : (s.inst j).enabled with
      | true => exact .inr ⟨rfl, he.trans (if_pos hen)⟩
      | false => exact .inl (he.trans (if_neg (by simp [hen])))
  refine ⟨rfl, fun _ => ⟨rfl, rfl⟩, fun _ => rfl, fun j => ?_,
    fun j hoff => (hinst j).resolve_right (by simp [hoff])⟩
  rcases hinst j with he | ⟨-, he⟩ <;> rw [he]
  · exact .refl (inst_ram_wf h j)
  · exact hf _ (inst_ram_wf h j)

theorem clkTick_envFrame (frozen : List Nat) : EnvFrame s (clkTick s frozen) := by
  cases hrun : s.clkRun with
  | false => rw [clkTick_stopped hrun]; exact .refl h
  | true =>
    rw [clkTick_running hrun]
    have hinst : ∀ lo hi j, State.inst { s with
        clkLo := lo, clkHi := hi, insts := s.insts.mapIdx (Inst.timerTick frozen) } j =
          Inst.timerTick frozen j (s.inst j) := fun _ _ j => by
      by_cases hj : j < s.insts.length
      · exact inst_mapIdx _ hj
      · rw [inst_absent s (by omega), inst_absent _ (by simpa using hj)]
        rfl
    refine ⟨rfl, by simp [hrun], fun _ => rfl, fun j => ?_, fun j hoff => ?_⟩ <;> rw [hinst]
    · exact timerTick_envFrame (inst_ram_wf h j) frozen j
    · rw [timerTick_eq, if_neg (by simp [hoff])]

theorem envMove_envFrame (e : EnvMove) : EnvFrame s (envMove s e) := by
  have hkept := EnvFrame.refl h
  cases e with
  | ack i notrdy frzack lpmack => exact onEnabled_envFrame h i fun _ hx => setAck_envFrame hx notrdy frzack lpmack
  | status i v => exact onEnabled_envFrame h i fun x hx => (Inst.EnvFrame.refl hx).observed v x.timer x.wire
  | raise i v => exact onEnabled_envFrame h i fun _ hx => (Inst.EnvFrame.refl hx).raised _
  | timer i v => exact onEnabled_envFrame h i fun x hx => (Inst.EnvFrame.refl hx).observed x.status v x.wire
  | word i m k v => exact onEnabled_envFrame h i fun _ hx => pokeWord_envFrame hx _ m k v
  | clock lo hi =>
    simp only [envMove]
    split
    · next hrun => exact ⟨rfl, by simp [hrun], fun _ => rfl, hkept.inst, hkept.disabled⟩
    · exact hkept
  | poll v =>
    simp only [envMove]
    split
    · next hrun => exact ⟨rfl, fun _ => ⟨rfl, rfl⟩, by simp [hrun], hkept.inst, hkept.disabled⟩
    · exact hkept
  | clkTick frozen => exact clkTick_envFrame h frozen
  | ptTick =>
    simp only [envMove, ptTick]
    split
    · next hrun => exact ⟨rfl, fun _ => ⟨rfl, rfl⟩, by simp [hrun], hkept.inst, hkept.disabled⟩
    · exact hkept
  | rx i m id d payload brs esi srr overrun other => exact onEnabled_envFrame h i fun _ hx => rx_envFrame hx ..
  | tx i m => exact onEnabled_envFrame h i fun _ hx => tx_envFrame hx m
  | freezeAck i => exact onEnabled_envFrame h i fun _ hx => freezeAck_envFrame hx
  | freezeLeave i ready => exact onEnabled_envFrame h i fun _ hx => freezeLeave_envFrame hx ready
  | ready i => exact onEnabled_envFrame h i fun _ hx => becomeReady_envFrame hx
  | lpAck i => exact onEnabled_envFrame h i fun _ hx => lpAck_envFrame hx
  | report i vps other => exact onEnabled_envFrame h i fun _ hx => report_envFrame hx _ vps other

end Moves

/-! ## The obligation -/

/-- Settles O25: every move of ENV keeps the frame; a mask is no mailbox word, and a locked mailbox has no word that
changed. -/
theorem environmentChangesOnlyItsFields : Obligations.EnvironmentChangesOnlyItsFields := by
  intro s e hwf t
  have hframe : EnvFrame s t := envMove_envFrame hwf e
  refine ⟨hframe.others, hframe.clock, hframe.poll, fun i => ?_⟩
  have hi := hframe.inst i
  refine ⟨hi.fields, hframe.disabled i, fun b _ h27 h24 h20 => hi.mcr b ?_, hi.iflag, fun m hm => hi.words _ ?_,
    fun m hlock k hk => hi.words _ ?_⟩
  · simp [ackBits_bit, h27, h24, h20]
  · exact fun m' k _ he => absurd he (rximrNo_ne_mbNo hwf.legal hm)
  · intro m' k' hk' he
    obtain ⟨rfl, -⟩ := mbNo_inj hk hk' he
    exact hlock

end Sys2Proof.Machine
end

section
/-! SUPPORT. The outcome register is the only error report (R390, R403): every step and every instruction answers a next
state, and an operand out of bounds is reported there at the first micro-step (R391, R399). -/

namespace Sys2Proof.Machine

/-! ## No fault and no refusal -/

/-- A command is issued; a control word is written, reserved or ignored, by where FG stands (log 7). -/
theorem exec_answers (i : Instr) (s : State) : ∃ t, exec i s = .next t := by
  cases i with
  | txcs dlc =>
    simp only [exec, execTxcs]
    split
    · exact ⟨_, rfl⟩
    split <;> exact ⟨_, rfl⟩
  | rxcs =>
    simp only [exec, execRxcs]
    split
    · exact ⟨_, rfl⟩
    split <;> exact ⟨_, rfl⟩
  | _ => exact ⟨_, rfl⟩

theorem issueWord_answers (s : State) (w : Word) : ∃ t, issueWord s w = .next t := by
  unfold issueWord
  split
  · exact exec_answers _ _
  · exact ⟨_, rfl⟩

/-- Settles O13: a step is the issue of a command word or one agent's move, and a move is a function. -/
theorem everyStepAnswersNext : Obligations.EveryStepAnswersNext := by
  refine ⟨fun s => ?_, exec_answers⟩
  cases hf : fetched s with
  | none => exact ⟨_, step_of_not_fetched hf⟩
  | some w =>
    rw [step, hf]
    exact issueWord_answers s w

/-! ## Operands out of bounds -/

/-- Settles O41: each command's `chk:` compares its operands with the configuration's bounds; START's does so before it
looks at the group. -/
theorem outOfBoundsIsBadArgument : Obligations.OutOfBoundsIsBadArgument := by
  intro s rest hr ha
  refine ⟨fun i n hl hbad => ?_, fun i hl hi => ?_, fun n hl hn => ?_, fun n hn => ?_, rfl⟩
  · have hmicro := fgMicro_write (s := goto s (.write i n (txFrame s.txf) .chk)) hr.2 rfl
    simp only [writeStep, goto_fields, hl, Bool.not_true, Bool.false_eq_true, if_false, if_pos hbad] at hmicro
    have hissue := issue_fg_returns hr ha (by simp) hmicro rfl
    rw [retWritten_goto hr] at hissue
    exact congrArg _ hissue
  · have hmicro := fgMicro_read (s := goto s (.read i .chk)) hr.2 rfl
    exact congrArg _ (issue_fg_ret hr ha (by simp) (hmicro.trans (by simp [readStep, hl, hi])))
  · have hmicro := fgMicro_reconfig (s := goto s (.reconfig n (latchFilters n s.flt) .chk)) hr.2 rfl
    exact congrArg _ (issue_fg_ret hr ha (by simp) (hmicro.trans (by simp [reconfigStep, hl, hn])))
  · have hmicro := fgMicro_start (s := goto s (.start n (latchFilters n s.flt) .chk)) hr.2 rfl
    exact congrArg _ (issue_fg_ret hr ha (by simp) (hmicro.trans (by simp [startStep, hn])))

end Sys2Proof.Machine
end

section
/-! SUPPORT. What a running handler leaves alone: its own accesses (R82, R407), and the other agents' moves in the
meantime (R94, R98). -/

namespace Sys2Proof.Machine

/-! ## A handler's access -/

/-- Of the machine an access reaches GIM, the handler's position and the interfaces. -/
theorem rxirqStep_others (s : State) (i : Nat) (l : IrqLabel) : rxirqStep s i l = { s with
    gim := (rxirqStep s i l).gim, irq := (rxirqStep s i l).irq, insts := (rxirqStep s i l).insts } := by
  cases l with
  | csr m =>
    simp only [rxirqStep, mbRead]
    split <;> rfl
  | idr | dr => simp [rxirqStep, mbRead, irqAt]
  | _ => rfl

/-- Of the handler's interface it reaches the lock, the queue, the discard counter and the flags. -/
theorem IrqLabel.effect_fields (x : Inst) (l : IrqLabel) : l.effect x = { x with
    lock := (l.effect x).lock, queue := (l.effect x).queue, discard := (l.effect x).discard,
    iflag := (l.effect x).iflag } := by
  cases l with
  | csr m =>
    simp only [IrqLabel.effect]
    split <;> rfl
  | _ => rfl

/-- Settles O33: with no handler running the move has no effect, else it is the effect of the handler's label on its own
interface. -/
theorem handlerTouchesOnlyItsOwn : Obligations.HandlerTouchesOnlyItsOwn := by
  intro s
  cases hr : s.irq with
  | none =>
    rw [applyMove_irq_none hr]
    exact ⟨rfl, fun _ => rfl, fun _ _ => rfl⟩
  | some r =>
    obtain ⟨i, l⟩ := r
    rw [applyMove_irq_some hr]
    refine ⟨rxirqStep_others s i l, fun j => ?_, fun j hj => ?_⟩
    · rcases rxirqStep_inst s i l j with h | ⟨-, h⟩ <;> rw [h]
      exact l.effect_fields _
    · exact (rxirqStep_inst s i l j).resolve_right fun ⟨he, _⟩ => hj ⟨i, l⟩ rfl he.symm

/-! ## What FG alone writes -/

/-- Of an interface: the clock enable, IMASK, FP_STATE and LASTF. -/
def Inst.fgPart (x : Inst) : Bool × Word × FpState × List Filter := (x.enabled, x.imask, x.fpState, x.lastf)

/-- `t` is `s` in all of FG's state: the command port, FG_PHASE, GROUP_LIVE, the enables of the timers, and FG's part of
every interface (R98). -/
structure FgKept (s t : State) : Prop where
  others : t = { s with
    agenda := t.agenda, gim := t.gim, irq := t.irq, clkLo := t.clkLo, clkHi := t.clkHi, ptVal := t.ptVal
    insts := t.insts }
  part : ∀ j, (t.inst j).fgPart = (s.inst j).fgPart

theorem FgKept.refl (s : State) : FgKept s s := ⟨rfl, fun _ => rfl⟩

/-- What a handler owns FG does not write alone. -/
theorem applyMove_irq_fgKept (s : State) : FgKept s (applyMove .irq s) := by
  obtain ⟨hothers, hown, -⟩ := handlerTouchesOnlyItsOwn s
  exact ⟨by rw [hothers], fun j => (congrArg Inst.fgPart (hown j)).trans rfl⟩

/-! ## ENV and the host -/

theorem rx_fgPart (c : Config) (x : Inst) (m : Nat) (id : BitVec 29) (d : BitVec 4) (payload : List Byte)
    (brs esi srr overrun : Bool) (other : Word) :
    (x.rx c m id d payload brs esi srr overrun other).fgPart = x.fgPart := by
  unfold Inst.rx
  split
  · have h := setMbWords_fields m 2 (pack payload) (x.setMb m 1 (idWord id))
    simp [Inst.fgPart, Inst.received, h]
  · rfl

theorem onEnabled_fgKept (s : State) (i : Nat) {f : Inst → Inst} (hf : ∀ x, (f x).fgPart = x.fgPart) :
    FgKept s (onEnabled s i f) := by
  refine ⟨rfl, fun j => ?_⟩
  rcases inst_modInst_cases s i (fun x => if x.enabled then f x else x) j with h | ⟨-, h⟩
  · exact congrArg Inst.fgPart h
  · refine (congrArg Inst.fgPart h).trans ?_
    split
    · exact hf _
    · rfl

theorem clkTick_fgKept (s : State) (frozen : List Nat) : FgKept s (clkTick s frozen) := by
  cases hrun : s.clkRun with
  | false => rw [clkTick_stopped hrun]; exact .refl s
  | true =>
    rw [clkTick_running hrun]
    refine ⟨rfl, fun j => ?_⟩
    by_cases hj : j < s.insts.length
    · refine (congrArg Inst.fgPart (inst_mapIdx (s := s) _ hj)).trans ?_
      unfold Inst.timerTick
      split <;> rfl
    · rw [inst_absent s (by omega), inst_absent _ (by simpa using hj)]

/-- ENV owns nothing that FG alone writes, nor the enables of the timers (R361, R362). -/
theorem envMove_fgKept (s : State) (e : EnvMove) : FgKept s (envMove s e) := by
  cases e with
  | ack i | status i | raise i | timer i => exact onEnabled_fgKept s i fun _ => rfl
  | word i => exact onEnabled_fgKept s i fun x => by unfold Inst.pokeWord; split <;> rfl
  | clock | poll =>
    simp only [envMove]
    split
    · exact ⟨rfl, fun _ => rfl⟩
    · exact .refl s
  | clkTick frozen => exact clkTick_fgKept s frozen
  | ptTick =>
    simp only [envMove, ptTick]
    split
    · exact ⟨rfl, fun _ => rfl⟩
    · exact .refl s
  | rx i => exact onEnabled_fgKept s i fun x => rx_fgPart ..
  | tx i => exact onEnabled_fgKept s i fun x => by unfold Inst.tx; split <;> rfl
  | freezeAck i => exact onEnabled_fgKept s i fun x => by unfold Inst.freezeAck; split <;> rfl
  | freezeLeave i => exact onEnabled_fgKept s i fun x => by unfold Inst.freezeLeave; split <;> rfl
  | ready i => exact onEnabled_fgKept s i fun x => by unfold Inst.becomeReady; split <;> rfl
  | lpAck i => exact onEnabled_fgKept s i fun x => by unfold Inst.lpAck; split <;> rfl
  | report i => exact onEnabled_fgKept s i fun x => by unfold Inst.report; split <;> rfl

/-! ## All moves while a handler runs -/

section InHandler

variable {s : State} (hg : s.gim = true)

include hg

/-- A collaborator is FG's, and does not return while FG stands still (R94). -/
theorem clockBringup_of_gim (ok : Bool) (pt : Option Word) : clockBringup s ok pt = s := by
  unfold clockBringup
  split
  · exact if_pos hg
  · rfl

theorem instBringup_of_gim (r : Bringup) (pt : Option Word) : instBringup s r pt = s := by
  unfold instBringup
  split
  · exact if_pos hg
  · rfl

/-- No handler is entered inside another (R403). -/
theorem irqStart_of_gim (i : Nat) : irqStart s i = s := if_neg (by simp [irqMayStart, hg])

theorem applyMove_fgKept (m : Move) : FgKept s (applyMove m s) := by
  cases m with
  | fg => rw [applyMove, fgMicro_still (.inl hg)]; exact .refl s
  | irqStart i => rw [applyMove, irqStart_of_gim hg]; exact .refl s
  | irq => exact applyMove_irq_fgKept s
  | clockBringup ok pt => rw [applyMove, clockBringup_of_gim hg]; exact .refl s
  | instBringup r pt => rw [applyMove, instBringup_of_gim hg]; exact .refl s
  | env e => exact envMove_fgKept s e
  | host h => rw [applyMove, hostMove_busy (fun hr => by simp [hr.2] at hg)]; exact .refl s

/-- A step then is a move, and taking it off the agenda changes nothing else. -/
theorem moveStep_fgKept : FgKept s (moveStep s) := by
  have hfloor : FgKept s (floorMove s) := by rw [floorMove_eq]; exact applyMove_fgKept hg _
  unfold moveStep
  split
  · exact hfloor
  split
  · exact hfloor
  · next m _ _ _ =>
    obtain ⟨hothers, hpart⟩ := applyMove_fgKept (s := takeMove s) hg m
    exact ⟨hothers, hpart⟩

theorem step_fgKept {t : State} (h : step s = .next t) : FgKept s t := by
  rw [step_of_not_fetched (fetched_busy fun hr => by simp [hr.2] at hg)] at h
  cases h
  exact moveStep_fgKept hg

end InHandler

/-! ## The obligation -/

/-- Settles O29: PEND(i) and GIM decide the entry, and while GIM is set no agent that moves owns any of FG's state. -/
theorem handlerEntryAndExit : Obligations.HandlerEntryAndExit := by
  refine ⟨fun s i hi hg hen hpend => ?_, fun s i h => ?_, fun s i hr => applyMove_irq_some hr, fun s hg => ?_,
    fun s t hg ht => ?_⟩
  · exact if_pos (by simpa [irqMayStart, Inst.pend, hi, hg, hen] using hpend)
  · refine if_neg ?_
    rcases h with hg | hoff | hnone
    · simp [irqMayStart, hg]
    · simp [irqMayStart, Inst.pend, hoff]
    · simp [irqMayStart, Inst.pend, hnone]
  · exact ⟨fgMicro_still (.inl hg), clockBringup_of_gim hg, instBringup_of_gim hg⟩
  · obtain ⟨hothers, hpart⟩ := step_fgKept hg ht
    exact ⟨hothers, fun j => by simpa [Inst.fgPart] using hpart j⟩

end Sys2Proof.Machine
end

section
/-! SUPPORT. A transmission between ENCODE's control word and its first data word (R197, R451): what WRITE has written
by then, and the frame the controller finds. -/

namespace Sys2Proof.Machine

/-- The interface once ENCODE has written the id word and the control word of `f` into mailbox `m`, which requests the
transmission, and no data word (R195). -/
def Inst.requested (f : Frame) (m : Nat) (x : Inst) : Inst :=
  (x.setMb m 1 (idWord f.id)).setMb m 0 (txcsWord f.dlc)

section Requested

variable {x : Inst} (hx : x.ram.wf = true) (f : Frame) (m : Nat)

include hx

theorem requested_control : (x.requested f m).mb m 0 = txcsWord f.dlc := mb_setMb_same (store_wf hx _ _) ..

theorem requested_id : (x.requested f m).mb m 1 = idWord f.id :=
  (mb_setMb_ne (store_wf hx _ _) _ _ (by decide) (by decide) (.inr (by decide))).trans (mb_setMb_same hx ..)

/-- The data words are those the mailbox held before. -/
theorem requested_data {w : Nat} (hw : w < 16) : (x.requested f m).mb m (2 + w) = x.mb m (2 + w) :=
  (mb_setMb_ne (store_wf hx _ _) _ _ (by decide) (by omega) (.inr (by omega))).trans
    (mb_setMb_ne hx _ _ (by decide) (by omega) (.inr (by omega)))

theorem dataWords_requested {n : Nat} (hn : n ≤ 16) :
    (x.requested f m).dataWords m n = (List.range n).map fun w => x.mb m (2 + w) :=
  List.map_congr_left fun w hw => requested_data hx f m (by rw [List.mem_range] at hw; omega)

/-- The frame on the wire has the new id and length and the old words. -/
theorem frameIn_requested : (x.requested f m).frameIn m = {
    id := f.id
    dlc := f.dlc
    payload := unpack ((List.range (nwords (dlc2len f.dlc))).map fun w => x.mb m (2 + w)) (dlc2len f.dlc) } := by
  rw [Inst.frameIn, requested_id hx, requested_control hx, idOf_idWord, csDlc_txcsWord,
    dataWords_requested hx f m (nwords_dlc_le f.dlc)]

end Requested

/-- The requested mailbox of a clocked controller outside freeze and low-power mode may be sent (R368). -/
theorem txEnabled_requested {c : Config} {x : Inst} (hx : x.Wf c) (f : Frame) {m : Nat} (hmay : x.mayTransmit = true)
    (hm : m ≤ 1) : (x.requested f m).txEnabled m = true := by
  have hlock : (x.requested f m).lock ≠ some m := fun h => by
    have hrange := (hx.lockRange m h).1
    omega
  have hmay' : (x.requested f m).mayTransmit = true := hmay
  simp [Inst.txEnabled, hmay', hm, requested_control hx.canonical, csCode_txcsWord, hlock]

/-- ENCODE inside WRITE up to its control word (R195). -/
theorem encode_control_run {s : State} (hg : s.gim = false) (inst count m : Nat) (f : Frame) (rest : List Move) :
    drive (fgs 2 ++ rest) (goto s (.write inst count f (.idw m))) =
      drive rest (goto (s.modInst inst (Inst.requested f m)) (.write inst count f (afterControl f m))) := by
  rw [show fgs 2 ++ rest = .fg :: .fg :: rest from rfl, drive_fg (by simp),
    fgMicro_write (s := goto s (.write inst count f (.idw m))) hg rfl]
  show drive (.fg :: rest) (goto (s.modInst inst fun x => x.setMb m 1 (idWord f.id))
    (.write inst count f (.csw m))) = _
  rw [write_run hg, writeStep, controlStore, encodeDlc_eq]
  show drive rest (goto ((s.modInst inst _).modInst inst _) _) = _
  rw [modInst_modInst]
  rfl

/-- WRITE on a ready interface up to its control word: `chk`, `rdy`, `idw`, `csw` (R302, R195). -/
theorem exec_write_requested {s : State} {inst count : Nat} {rest : List Move} (hr : s.Ready)
    (hl : s.groupLive = true) (hi : inst < s.cfg.nIf) (h1 : 1 ≤ count) (h2 : count ≤ s.cfg.txnMax)
    (ht : txReady (s.inst inst).status = true) (ha : s.agenda = fgs 4 ++ rest) :
    exec (.write inst count) s = .next (drive rest
      (goto (s.modInst inst (Inst.requested (txFrame s.txf) (lptm (s.inst inst).status)))
        (.write inst count (txFrame s.txf) (afterControl (txFrame s.txf) (lptm (s.inst inst).status))))) := by
  set f := txFrame s.txf
  have hrdy : fgMicro (goto s (.write inst count f .rdy)) =
      goto s (.write inst count f (.idw (lptm (s.inst inst).status))) :=
    (fgMicro_write (s := goto s (.write inst count f .rdy)) hr.2 rfl).trans
      (writeStep_rdy_ready (s := goto s (.write inst count f .rdy)) ht)
  show Host.Outcome.next (issue s (.write inst count f .chk)) = _
  rw [issue_fg (rest := .fg :: (fgs 2 ++ rest)) hr ha (by simp), fgMicro_write_chk hr.2 hl hi h1 h2, drive_fg (by simp),
    hrdy, encode_control_run hr.2]

/-- Settles O48: the send finds the new id and control words over the old data words, and WRITE stands where `csw:` left
it. -/
theorem earlyTransmissionSendsOldWords : Obligations.EarlyTransmissionSendsOldWords := by
  intro s inst count hwf hr hl hi h1 h2 hmay ht x m n ha
  have hx : x.Wf s.cfg := hwf.instAt hi
  have hsend := tx_run (s := s) (rest := []) (g := Inst.requested (txFrame s.txf) m)
    (p := .write inst count (txFrame s.txf) (afterControl (txFrame s.txf) m)) (by simp)
    (txEnabled_requested hx _ hmay (lptm_le ht))
  refine ⟨_, (exec_write_requested hr hl hi h1 h2 ht ha).trans (congrArg _ hsend), ?_, ?_⟩
  · exact (congrArg Inst.wire (inst_modInst_same s (hwf.inst_lt hi) _)).trans
      (congrArg (x.wire ++ [·]) (frameIn_requested hx.canonical _ m))
  · exact congrArg _ (afterControl_eq _ m)

end Sys2Proof.Machine
end
